-- ==== Sys2Proof/Word.lean ====
section
/-! DEFINITION. The word types of the block and the plain shapes its data comes in: bytes, halves, words, stereo
samples, the two DMA channels, the four PSG channels, the seven resampler variants. -/

namespace Sys2Proof

/-- One byte: an opcode, a selector, a byte sample, a byte of host memory. -/
abbrev Byte := BitVec 8

/-- Sixteen bits: field `b` of a command word, one lane of an `s16` sample. -/
abbrev Half := BitVec 16

/-- Thirty-two bits: field `d` of a command word, a control register, a FIFO word. -/
abbrev Word := BitVec 32

/-- A command word (R102: one length, 64 bits). -/
abbrev CommandWord := BitVec 64

/-- A stereo side: left is lane 0, right is lane 1 (R10, R108). -/
inductive Side where
  | left
  | right
  deriving DecidableEq, Repr

/-- A stereo sample (R10): both lanes always exist together. -/
structure Stereo (α : Type) where
  l : α
  r : α
  deriving DecidableEq, Repr

/-- The lane `x[s]` of R10. -/
def Stereo.side {α : Type} (x : Stereo α) : Side → α
  | .left => x.l
  | .right => x.r

/-- The sample whose lane on each side is `f` of that side. -/
def Stereo.of {α : Type} (f : Side → α) : Stereo α := ⟨f .left, f .right⟩

/-- Lane-by-lane application. -/
def Stereo.map {α β : Type} (f : α → β) (x : Stereo α) : Stereo β := ⟨f x.l, f x.r⟩

/-- A DMA sound channel, 0 or 1 (R12: "There are two, numbered 0 and 1"). -/
inductive DmaCh where
  | ch0
  | ch1
  deriving DecidableEq, Repr

/-- The number of a DMA channel: the `f` of the rules and the occasion code of R108. -/
def DmaCh.num : DmaCh → Nat
  | .ch0 => 0
  | .ch1 => 1

/-- One value for each DMA channel. -/
structure Pair (α : Type) where
  c0 : α
  c1 : α
  deriving DecidableEq, Repr

/-- The value of channel `f`. -/
def Pair.get {α : Type} (p : Pair α) : DmaCh → α
  | .ch0 => p.c0
  | .ch1 => p.c1

/-- The pair with channel `f`'s value replaced. -/
def Pair.put {α : Type} (p : Pair α) (f : DmaCh) (v : α) : Pair α :=
  match f with
  | .ch0 => { p with c0 := v }
  | .ch1 => { p with c1 := v }

/-- A PSG channel, 0 to 3 (R12: "There are four"). -/
inductive PsgCh where
  | ch0
  | ch1
  | ch2
  | ch3
  deriving DecidableEq, Repr

/-- The number of a PSG channel: the `c` of the rules. -/
def PsgCh.num : PsgCh → Nat
  | .ch0 => 0
  | .ch1 => 1
  | .ch2 => 2
  | .ch3 => 3

/-- The four PSG channels in the order of R222. -/
def PsgCh.all : List PsgCh := [.ch0, .ch1, .ch2, .ch3]

/-- One value for each PSG channel, or for each entry of a four-entry table. -/
structure Quad (α : Type) where
  c0 : α
  c1 : α
  c2 : α
  c3 : α
  deriving DecidableEq, Repr

/-- The value of channel `c`. -/
def Quad.get {α : Type} (q : Quad α) : PsgCh → α
  | .ch0 => q.c0
  | .ch1 => q.c1
  | .ch2 => q.c2
  | .ch3 => q.c3

/-- The four values with channel `c`'s replaced. -/
def Quad.put {α : Type} (q : Quad α) (c : PsgCh) (v : α) : Quad α :=
  match c with
  | .ch0 => { q with c0 := v }
  | .ch1 => { q with c1 := v }
  | .ch2 => { q with c2 := v }
  | .ch3 => { q with c3 := v }

/-- The seven resampler variants (R7), in the order of their codes (R31). -/
inductive Variant where
  | nearest
  | cosine
  | cubic
  | sinc32
  | sinc64
  | sinc128
  | sinc256
  deriving DecidableEq, Repr

/-- The two event classes this block's scheduler can hold (R105, R131). -/
inductive EvClass where
  | mixer
  | sequencer
  deriving DecidableEq, Repr

end Sys2Proof
end

