-- ==== Sys2Proof/Config.lean ====
section
/-! DEFINITION. The parameter record `Cfg` of R6, the constraints R6 puts on it, the reference profile REF, and
the weights the spec leaves open as constants without a value.

R6: "A model takes the record `Cfg` below as an argument", and no rule may have a REF value built into it. The record
is plain data and every rule of the model reads it from the state it is given (`State.cfg`), so whatever is proved for
every state is proved for every parameter set (log entry 1). -/

namespace Sys2Proof

/-- `BUILD` (R6): the build flavour. -/
inductive Build where
  | debug
  | release
  deriving DecidableEq, Repr

/-- `RS_PATH` (R6, R231, conflict C3): where the resampler sits. -/
inductive RsPath where
  | bypass
  | inline
  deriving DecidableEq, Repr

/-- `KERNEL` (R196) is a function, and the state holds plain data only: this names which one. `reference` is the family
of reference kernels R199 to R206; `other k` is an arbitrary function about which nothing is known, one for each `k`
(log entry 2). -/
inductive KernelSel where
  | reference
  | other (k : Nat)
  deriving DecidableEq, Repr

/-- The record `Cfg` of R6, one field a parameter, in R6's order.

The two parameters that R6 types as functions over a finite range are held as tables, so that the record is plain data:
`MASTER_NUM` as its `2^MASTER_W` values, `RS_SUPPORTED` as the list of the combinations it answers false for. -/
structure Cfg where
  /-- `CPS_NUM`, the numerator of the cycles per mixer sample. -/
  cpsNum : Nat
  /-- `CPS_DEN`, its denominator. -/
  cpsDen : Nat
  /-- `SEQ_CYCLES`, the sequencer step interval. -/
  seqCycles : Nat
  /-- `SRC_RATE`, the internal sample rate in Hz. -/
  srcRate : Nat
  /-- `PSG_W`, the width of a PSG channel sample. -/
  psgW : Nat
  /-- `PSG_VOL_TAB[0..3]`. -/
  psgVolTab : Quad Nat
  /-- `DMA_VOL_TAB[0..1]`; `c0` is entry 0, `c1` entry 1. -/
  dmaVolTab : Pair Nat
  /-- `MASTER_W`, the width of a master volume field (at most 4 by R27). -/
  masterW : Nat
  /-- `MASTER_NUM(m)` for `m = 0, 1, ...`. -/
  masterNum : List Int
  /-- `PSG_DIV`. -/
  psgDiv : Nat
  /-- `BIAS_W`, the width of the bias level. -/
  biasW : Nat
  /-- `BIAS_RESET`, the bias level after reset. -/
  biasReset : Nat
  /-- `SAT_MIN`. -/
  satMin : Int
  /-- `SAT_MAX`. -/
  satMax : Int
  /-- `NORM_OFFSET`. -/
  normOffset : Int
  /-- `NORM_SCALE`. -/
  normScale : Nat
  /-- `S16_SCALE`. -/
  s16Scale : Nat
  /-- `FIFO_CAP`. -/
  fifoCap : Nat
  /-- `RBB_N`, samples per block. -/
  rbbN : Nat
  /-- `RBB_B`, blocks. -/
  rbbB : Nat
  /-- `RB_N`, slots of the resampler's tap ring. -/
  rbN : Nat
  /-- `KERNEL`. -/
  kernel : KernelSel
  /-- `RS_PATH`. -/
  rsPath : RsPath
  /-- `RS_DEFAULT`. -/
  rsDefault : Variant
  /-- The combinations `(v, src, dst)` for which `RS_SUPPORTED` is false (a zero rate is handled by R188 itself). -/
  rsUnsupported : List (Variant × Nat × Nat)
  /-- `BUILD`. -/
  build : Build
  /-- `TS_W`, the width of the cycle timestamp. -/
  tsW : Nat
  deriving DecidableEq, Repr

/-- The constraints of R6's column "type and constraint", with R27's `MASTER_W <= 4`. -/
def Cfg.wf (c : Cfg) : Bool :=
  decide (0 < c.cpsNum) && decide (0 < c.cpsDen) && decide (0 < c.seqCycles) && decide (0 < c.srcRate)
    && decide (2 ≤ c.psgW) && decide (c.psgW ≤ 16)
    && decide (1 ≤ c.masterW) && decide (c.masterW ≤ 4) && decide (c.masterNum.length = 2 ^ c.masterW)
    && decide (0 < c.psgDiv)
    && decide (1 ≤ c.biasW) && decide (c.biasW ≤ 16) && decide (c.biasReset < 2 ^ c.biasW)
    && decide (c.satMin < c.satMax)
    && decide (0 < c.normScale) && decide (0 < c.s16Scale) && decide (c.s16Scale ≤ 32768)
    && decide (4 ≤ c.fifoCap) && decide (0 < c.rbbN) && decide (0 < c.rbbB) && decide (256 ≤ c.rbN)

/-- `RS_SUPPORTED(v, src, dst)` (R6). -/
def Cfg.rsSupported (c : Cfg) (v : Variant) (src dst : Nat) : Bool :=
  !(c.rsUnsupported.contains (v, src, dst))

/-- The reference profile REF of R6. `RS_PATH` has no REF value ("OPEN; each vector states it"): the convention of
`95_test_vectors.md`, `BYPASS`, is taken (log entry 1). -/
def Config.ref : Cfg where
  cpsNum := 512
  cpsDen := 1
  seqCycles := 32768
  srcRate := 32768
  psgW := 8
  psgVolTab := ⟨1, 2, 4, 0⟩
  dmaVolTab := ⟨2, 4⟩
  masterW := 3
  masterNum := [0, 1, 2, 3, 4, 5, 6, 7]
  psgDiv := 28
  biasW := 10
  biasReset := 512
  satMin := 0
  satMax := 1023
  normOffset := 512
  normScale := 512
  s16Scale := 32767
  fifoCap := 7
  rbbN := 4
  rbbB := 2
  rbN := 256
  kernel := .reference
  rsPath := .bypass
  rsDefault := .cosine
  rsUnsupported := []
  build := .release
  tsW := 64

/-- Free value (log entry 2): the kernel of `KernelSel.other k`, any function of the four arguments R196 allows. -/
opaque Config.freeKernel : Nat → Variant → Rat → Rat → Nat → Rat

/-- Free value (log entry 2): the reference Cosine weight `c(mu)` of R201 at the phases where R201 lists no exact value.
R196: "a model takes those weights as an opaque function and may assume only the exact values the rules list". -/
opaque Config.cosineWeight : Rat → Rat

/-- Free value (log entry 2): the reference Sinc weights of R199, tap by tap, for a variant, a shift and a phase. R199: "No claim
may rest on a particular Sinc weight". -/
opaque Config.sincWeight : Variant → Rat → Rat → Nat → Rat

end Sys2Proof
end

