-- ==== Sys2Proof/Syntax.lean ====
section
/-! DEFINITION. The instruction type: one constructor for each row of `spec/opcode_table.json`, that is the 25 commands of
R104 and the two event handlers of R105, with their operands as the fields of the command word carry them. -/

namespace Sys2Proof

/-- Where an instruction comes in: the emulation agent's port, the host-audio agent's port (R101), or, for the two
handlers, the scheduler's own selection by class code (R105; the table's port "scheduler"). -/
inductive Port where
  | e
  | h
  | scheduler
  deriving DecidableEq, Repr

/-- The instructions. A sample operand is its two lanes, left then right (R75, R106); a 24-bit operand is `{a, b}`. -/
inductive Instr where
  /-- `SCH.ADD class, delta` (R132). -/
  | schAdd (cls : Byte) (delta : Word)
  /-- `SCH.ADV n` (R134). -/
  | schAdv (n : Word)
  /-- `SCH.NOW` (R133). -/
  | schNow
  /-- `RB.PUSH x` (R152). -/
  | rbPush (l r : Half)
  /-- `RB.POP` (R153). -/
  | rbPop
  /-- `RB.PEEK offset` (R154). -/
  | rbPeek (offset : Half)
  /-- `RB.AVAIL` (R155). -/
  | rbAvail
  /-- `RB.RESET` (R156). -/
  | rbReset
  /-- `RBB.PUSH x` (R167). -/
  | rbbPush (l r : Half)
  /-- `RBB.POPB` (R169). -/
  | rbbPopb
  /-- `RBB.DATA` (R170). -/
  | rbbData
  /-- `RBB.BACK` (R171). -/
  | rbbBack
  /-- `RBB.SIZE` (R172). -/
  | rbbSize
  /-- `RBB.CPB` (R173). -/
  | rbbCpb
  /-- `RS.RATE src, dst` (R188). -/
  | rsRate (src : BitVec 24) (dst : Word)
  /-- `RS.WRITE x` (R190). -/
  | rsWrite (l r : Half)
  /-- `APU.RESET` (R215). -/
  | apuReset
  /-- `APU.OFF` (R240). -/
  | apuOff
  /-- `TMR.OVF timerId, times` (R250). -/
  | tmrOvf (timerId : Byte) (times : Half)
  /-- `FIFO.WR f, word` (R258). -/
  | fifoWr (f : Byte) (word : Word)
  /-- `CSR.WR index, value` (R262). -/
  | csrWr (index : Byte) (value : Word)
  /-- `CSR.RD index` (R264). -/
  | csrRd (index : Byte)
  /-- `PSG.SET c, value` (R266). -/
  | psgSet (c : Byte) (value : Word)
  /-- `DEV.SET ok, rate` (R268). -/
  | devSet (ok : Byte) (rate : Word)
  /-- `CB.REQ len, dest` (R275). -/
  | cbReq (len : BitVec 24) (dest : Word)
  /-- `EV.MIXER`, the handler `StepMixer` (R105, R225). -/
  | evMixer
  /-- `EV.SEQ`, the handler `StepSequencer` (R105, R222). -/
  | evSeq
  deriving DecidableEq, Repr

/-- What the decoder is given: a command word from a port, or an event class code from the scheduler (R105). -/
inductive Code where
  | command (w : CommandWord)
  | event (c : Byte)
  deriving DecidableEq, Repr

/-- Why the decoder refuses a code, by name. -/
inductive DecodeError where
  /-- R115 (a), R116: the opcode is not in the table of R104. -/
  | reservedOpcode
  /-- R115 (b), R103: a field the row's format does not use is not zero. -/
  | unusedField
  /-- R105: the class code belongs to no handler of this block. -/
  | reservedClass
  deriving DecidableEq, Repr

end Sys2Proof
end

