-- ==== Sys2Proof/WellFormed.lean ====
section
/-! DEFINITION. Which instructions have operands in the ranges of R106, the ones R118 does not refuse by value. -/

namespace Sys2Proof

/-- `v` fits `w` signed bits (R106: `-2^(w-1) .. 2^(w-1)-1`). -/
def fitsSigned (w : Nat) (v : Int) : Bool :=
  decide (-(2 ^ (w - 1) : Int) ≤ v) && decide (v < (2 ^ (w - 1) : Int))

/-- The operand ranges of R106 and R118. `PSG.SET`'s depends on the parameter `PSG_W`. -/
def Instr.wf (c : Cfg) : Instr → Bool
  | .schAdd cls _ => decide (cls.toNat ≤ 1)
  | .schAdv _ => true
  | .schNow => true
  | .rbPush _ _ => true
  | .rbPop => true
  | .rbPeek _ => true
  | .rbAvail => true
  | .rbReset => true
  | .rbbPush _ _ => true
  | .rbbPopb => true
  | .rbbData => true
  | .rbbBack => true
  | .rbbSize => true
  | .rbbCpb => true
  | .rsRate _ _ => true
  | .rsWrite _ _ => true
  | .apuReset => true
  | .apuOff => true
  | .tmrOvf _ times => decide (times.toNat = 1)
  | .fifoWr f _ => decide (f.toNat ≤ 1)
  | .csrWr index _ => decide (index.toNat ≤ 6)
  | .csrRd index => decide (index.toNat ≤ 8)
  | .psgSet ch value => decide (ch.toNat ≤ 3) && fitsSigned c.psgW value.toInt
  | .devSet ok _ => decide (ok.toNat ≤ 1)
  | .cbReq len _ => decide (len.toNat % 4 = 0)
  | .evMixer => true
  | .evSeq => true

end Sys2Proof
end

