-- ==== Sys2Proof/Decode.lean ====
section
/-! DEFINITION. The decoder and the encoder of `30_encoding.md`: the fields of a command word (R102), the seven formats (R103), the
opcode map (R104), the class codes (R105) and the operand fields (R106). Decoding is total: a code that R115 and R116 leave without
a meaning is refused by name. -/

namespace Sys2Proof

/-- Field `op`, bits 63:56 (R102). -/
def opField (w : CommandWord) : Byte := w.extractLsb' 56 8
/-- Field `a`, bits 55:48 (R102). -/
def aField (w : CommandWord) : Byte := w.extractLsb' 48 8
/-- Field `b`, bits 47:32 (R102). -/
def bField (w : CommandWord) : Half := w.extractLsb' 32 16
/-- Field `d`, bits 31:0 (R102). -/
def dField (w : CommandWord) : Word := w.extractLsb' 0 32

/-- The command word with the four fields given, `{op, a, b, d}` (R102). -/
def packWord (op a : Byte) (b : Half) (d : Word) : CommandWord := op ++ a ++ b ++ d

/-- The left lane of a sample in field `d`: bits 15:0 (R75). -/
def lowHalf (d : Word) : Half := d.extractLsb' 0 16
/-- The right lane of a sample in field `d`: bits 31:16 (R75). -/
def highHalf (d : Word) : Half := d.extractLsb' 16 16

/-- The high byte of a 24-bit operand `{a, b}` (R106). -/
def high24 (v : BitVec 24) : Byte := v.extractLsb' 16 8
/-- The low half of a 24-bit operand `{a, b}` (R106). -/
def low24 (v : BitVec 24) : Half := v.extractLsb' 0 16

/-- The seven formats of R103, named by the fields they use. -/
inductive Format where
  | z
  | a
  | b
  | d
  | ad
  | ab
  | abd
  deriving DecidableEq, Repr

/-- The mask of a format: the bits that must match (R103). -/
def Format.mask : Format → CommandWord
  | .z => 0xFFFFFFFFFFFFFFFF#64
  | .a => 0xFF00FFFFFFFFFFFF#64
  | .b => 0xFFFF0000FFFFFFFF#64
  | .d => 0xFFFFFFFF00000000#64
  | .ad => 0xFF00FFFF00000000#64
  | .ab => 0xFF000000FFFFFFFF#64
  | .abd => 0xFF00000000000000#64

/-- "A field a format does not use must be zero" (R103). -/
def Format.unusedZero (f : Format) (a : Byte) (b : Half) (d : Word) : Bool :=
  match f with
  | .z => a == 0 && b == 0 && d == 0
  | .a => b == 0 && d == 0
  | .b => a == 0 && d == 0
  | .d => a == 0 && b == 0
  | .ad => b == 0
  | .ab => d == 0
  | .abd => true

/-- One row of R104: the opcode, the format, and the command its operand fields make (R106). -/
structure OpRow where
  op : Byte
  format : Format
  build : Byte → Half → Word → Instr

/-- The opcode map of R104, in its order. -/
def opRows : List OpRow :=
  [ ⟨0x01#8, .ad, fun a _ d => .schAdd a d⟩,
    ⟨0x02#8, .d, fun _ _ d => .schAdv d⟩,
    ⟨0x03#8, .z, fun _ _ _ => .schNow⟩,
    ⟨0x10#8, .d, fun _ _ d => .rbPush (lowHalf d) (highHalf d)⟩,
    ⟨0x11#8, .z, fun _ _ _ => .rbPop⟩,
    ⟨0x12#8, .b, fun _ b _ => .rbPeek b⟩,
    ⟨0x13#8, .z, fun _ _ _ => .rbAvail⟩,
    ⟨0x14#8, .z, fun _ _ _ => .rbReset⟩,
    ⟨0x20#8, .d, fun _ _ d => .rbbPush (lowHalf d) (highHalf d)⟩,
    ⟨0x21#8, .z, fun _ _ _ => .rbbPopb⟩,
    ⟨0x22#8, .z, fun _ _ _ => .rbbData⟩,
    ⟨0x23#8, .z, fun _ _ _ => .rbbBack⟩,
    ⟨0x24#8, .z, fun _ _ _ => .rbbSize⟩,
    ⟨0x25#8, .z, fun _ _ _ => .rbbCpb⟩,
    ⟨0x30#8, .abd, fun a b d => .rsRate (a ++ b) d⟩,
    ⟨0x31#8, .d, fun _ _ d => .rsWrite (lowHalf d) (highHalf d)⟩,
    ⟨0x40#8, .z, fun _ _ _ => .apuReset⟩,
    ⟨0x41#8, .z, fun _ _ _ => .apuOff⟩,
    ⟨0x48#8, .ab, fun a b _ => .tmrOvf a b⟩,
    ⟨0x49#8, .ad, fun a _ d => .fifoWr a d⟩,
    ⟨0x4A#8, .ad, fun a _ d => .csrWr a d⟩,
    ⟨0x4B#8, .a, fun a _ _ => .csrRd a⟩,
    ⟨0x4C#8, .ad, fun a _ d => .psgSet a d⟩,
    ⟨0x4D#8, .ad, fun a _ d => .devSet a d⟩,
    ⟨0x50#8, .abd, fun a b d => .cbReq (a ++ b) d⟩ ]

/-- The command of a command word (R104), or the refusal of R115. -/
def decodeCommand (w : CommandWord) : Except DecodeError Instr :=
  match opRows.find? (fun r => r.op == opField w) with
  | none => .error .reservedOpcode
  | some r =>
    if r.format.unusedZero (aField w) (bField w) (dField w) then
      .ok (r.build (aField w) (bField w) (dField w))
    else .error .unusedField

/-- The handler of a class code (R105). -/
def decodeEvent (c : Byte) : Except DecodeError Instr :=
  if c = 0x00#8 then .ok .evMixer
  else if c = 0x01#8 then .ok .evSeq
  else .error .reservedClass

/-- The instruction of any code. -/
def decode : Code → Except DecodeError Instr
  | .command w => decodeCommand w
  | .event c => decodeEvent c

/-- The encoding of an instruction, from the same tables (R102 to R106). -/
def encode : Instr → Code
  | .schAdd cls delta => .command (packWord 0x01#8 cls 0 delta)
  | .schAdv n => .command (packWord 0x02#8 0 0 n)
  | .schNow => .command (packWord 0x03#8 0 0 0)
  | .rbPush l r => .command (packWord 0x10#8 0 0 (r ++ l))
  | .rbPop => .command (packWord 0x11#8 0 0 0)
  | .rbPeek offset => .command (packWord 0x12#8 0 offset 0)
  | .rbAvail => .command (packWord 0x13#8 0 0 0)
  | .rbReset => .command (packWord 0x14#8 0 0 0)
  | .rbbPush l r => .command (packWord 0x20#8 0 0 (r ++ l))
  | .rbbPopb => .command (packWord 0x21#8 0 0 0)
  | .rbbData => .command (packWord 0x22#8 0 0 0)
  | .rbbBack => .command (packWord 0x23#8 0 0 0)
  | .rbbSize => .command (packWord 0x24#8 0 0 0)
  | .rbbCpb => .command (packWord 0x25#8 0 0 0)
  | .rsRate src dst => .command (packWord 0x30#8 (high24 src) (low24 src) dst)
  | .rsWrite l r => .command (packWord 0x31#8 0 0 (r ++ l))
  | .apuReset => .command (packWord 0x40#8 0 0 0)
  | .apuOff => .command (packWord 0x41#8 0 0 0)
  | .tmrOvf timerId times => .command (packWord 0x48#8 timerId times 0)
  | .fifoWr f word => .command (packWord 0x49#8 f 0 word)
  | .csrWr index value => .command (packWord 0x4A#8 index 0 value)
  | .csrRd index => .command (packWord 0x4B#8 index 0 0)
  | .psgSet c value => .command (packWord 0x4C#8 c 0 value)
  | .devSet ok rate => .command (packWord 0x4D#8 ok 0 rate)
  | .cbReq len dest => .command (packWord 0x50#8 (high24 len) (low24 len) dest)
  | .evMixer => .event 0x00#8
  | .evSeq => .event 0x01#8

/-- Pseudo-command `RB.WRITE x`, which is `RB.PUSH x` (R120). -/
def Instr.rbWrite (l r : Half) : Instr := .rbPush l r
/-- Pseudo-command `RB.READ`, which is `RB.POP` (R120). -/
def Instr.rbRead : Instr := .rbPop
/-- Pseudo-command `SCH.TICK`, which is `SCH.ADV 1` (R120). -/
def Instr.schTick : Instr := .schAdv 1#32

/-- The port an instruction belongs to (R101, R104, R105): `CB.REQ` the H port, every other command the E port,
the two handlers the scheduler. -/
def Instr.port : Instr → Port
  | .schAdd _ _ => .e
  | .schAdv _ => .e
  | .schNow => .e
  | .rbPush _ _ => .e
  | .rbPop => .e
  | .rbPeek _ => .e
  | .rbAvail => .e
  | .rbReset => .e
  | .rbbPush _ _ => .e
  | .rbbPopb => .e
  | .rbbData => .e
  | .rbbBack => .e
  | .rbbSize => .e
  | .rbbCpb => .e
  | .rsRate _ _ => .e
  | .rsWrite _ _ => .e
  | .apuReset => .e
  | .apuOff => .e
  | .tmrOvf _ _ => .e
  | .fifoWr _ _ => .e
  | .csrWr _ _ => .e
  | .csrRd _ => .e
  | .psgSet _ _ => .e
  | .devSet _ _ => .e
  | .cbReq _ _ => .h
  | .evMixer => .scheduler
  | .evSeq => .scheduler

/-- The port a command word is meant for: the H port for the opcode of `CB.REQ`, else the E port. -/
def portOfWord (w : CommandWord) : Port := if opField w = 0x50#8 then .h else .e

/-- The code of a row of `spec/opcode_table.json` whose bits are `w`: an 8-bit row is a class code, a 64-bit row a command word. -/
def tableCode (nbits w : Nat) : Code :=
  if nbits ≤ 8 then .event (BitVec.ofNat 8 w) else .command (BitVec.ofNat 64 w)

/-- The instruction the decoder reads from the bits of a table row. -/
def decodeTableWord (nbits w : Nat) : Option Instr :=
  match decode (tableCode nbits w) with
  | .ok i => some i
  | .error _ => none

end Sys2Proof
end

