-- ==== Sys2Proof/Machine/State.lean ====
section
/-! DEFINITION. The state of the block as plain data (`10_state.md`), the reasons a step stops, and the state at power-on.

Every element of the table of R62 has one home here. An element that R62 gives "no value" at power-on holds the value log entry 3
names, and `Known` says which of those elements the spec gives a value: reading one that has none is refused, as R62 and R322 say. -/

namespace Sys2Proof.Machine

/-- A Scheduled Event (R24): target timestamp, event class, insertion number. -/
structure Event where
  target : Nat
  cls : EvClass
  seq : Nat
  deriving DecidableEq, Repr

/-- The scheduler's state: `now` (R23), `evq` (R24), `seq_ctr` (R25). The set `evq` is held as the list sorted by
`(target, seq)`, so that equal sets are equal lists. -/
structure Sched where
  now : Nat
  evq : List Event
  seqCtr : Nat
  deriving DecidableEq, Repr

/-- The seven control registers that can be written (R26 to R33), each 32 bits; `STATUS` and `ERR` are views of the
flags and of `ERR_CODE` (R36, R37). -/
structure Csr where
  sndctlL : Word
  sndctlH : Word
  sndbias : Word
  outvol : Word
  interp : Word
  mixmode : Word
  tgtrate : Word
  deriving DecidableEq, Repr

/-- The input ports: `PSG_IN[0..3]` (R34), `DEV_RATE` and `DEV_OK` (R35). -/
structure Ports where
  psgIn : Quad Int
  devRate : Word
  devOk : Bool
  deriving DecidableEq, Repr

/-- A FIFO pipe latch (R41): buffered word and remaining byte count. -/
structure Pipe where
  word : Word
  count : Nat
  deriving DecidableEq, Repr

/-- The DMA sound channels: FIFOs, oldest word first (R40), pipes (R41), latches (R42, an `s8`). -/
structure Dma where
  fifo : Pair (List Word)
  pipe : Pair Pipe
  latch : Pair Byte
  deriving DecidableEq, Repr

/-- The mixer's timing state: `mix_epoch` and `mix_n` (R43). -/
structure MixTime where
  epoch : Nat
  n : Nat
  deriving DecidableEq, Repr

/-- The resampler's state: `rs_variant`, `rs_shift`, `rs_phase` (R44). -/
structure Resampler where
  variant : Variant
  shift : Rat
  phase : Rat
  deriving DecidableEq, Repr

/-- `RingBuffer<T,N>` with `T` a stereo sample over `Q` (R45, R150): slots and the two cursors. -/
structure Ring where
  data : List (Stereo Rat)
  head : Nat
  tail : Nat
  deriving DecidableEq, Repr

/-- `RingBlockBuffer<T,N,B>` with `T` a stereo sample of `s16` lanes (R46, R166). -/
structure BlockBuffer where
  data : List (Stereo Half)
  currentBlock : Nat
  size : Nat
  deriving DecidableEq, Repr

/-- Which of the elements without a power-on value (R62) have been given one. The elements that only `APU.RESET` gives a value, all
together, share the flag `apu`: `fifo`, `pipe`, `latch`, `mix_epoch`, `mix_n`, `rs_variant`, `rs_shift`, `rs_phase`. -/
structure Known where
  sndctlL : Bool
  sndctlH : Bool
  sndbias : Bool
  psgIn : Quad Bool
  dev : Bool
  apu : Bool
  ring : Bool
  deriving DecidableEq, Repr

/-- An element that has no value (R62), named in the refusal of an operation that reads it. -/
inductive Element where
  | sndctlL
  | sndctlH
  | sndbias
  | psgIn (c : PsgCh)
  | devPorts
  | dmaChannels
  | mixTime
  | resampler
  | rsRing
  deriving DecidableEq, Repr

/-- A value on the result port (R107). -/
inductive Value where
  /-- `SCH.NOW`, `RB.AVAIL`, `RBB.DATA`, `RBB.SIZE`, `RBB.CPB`. -/
  | number (n : Nat)
  /-- `CSR.RD`. -/
  | word (w : Word)
  /-- `RB.POP`, `RB.PEEK`. -/
  | sample (x : Stereo Rat)
  /-- `RS.WRITE`. -/
  | samples (xs : List (Stereo Rat))
  /-- `RBB.BACK`. -/
  | sample16 (x : Stereo Half)
  /-- `RBB.POPB`. -/
  | samples16 (xs : List (Stereo Half))
  deriving DecidableEq, Repr

/-- An event of the output trace (R60). -/
inductive OutEvent where
  | dmaReq (f : DmaCh)
  | psgTick (c : PsgCh)
  | devClose
  | devOpen
  | result (v : Value)
  | memByte (addr : Nat) (b : Byte)
  deriving DecidableEq, Repr

/-- One entry of a program: a port and a command word (R100). -/
structure Command where
  port : Port
  word : CommandWord
  deriving DecidableEq, Repr

/-- Host memory as the block has written it: (address, byte) pairs, addresses strictly rising. An address that is not listed
holds no byte of the block's (log entry 4). -/
abbrev Memory := List Host.Cell

/-- The state of the block, with the program it is given and the trace it leaves. -/
structure State where
  /-- `Cfg` (R6): the parameters, never written by a step (log entry 1). -/
  cfg : Cfg
  /-- `now`, `evq`, `seq_ctr` (R23 to R25). -/
  sched : Sched
  /-- Control registers 0 to 6 (R26 to R33). -/
  csr : Csr
  /-- `PSG_IN`, `DEV_RATE`, `DEV_OK` (R34, R35). -/
  ports : Ports
  /-- `fifo`, `pipe`, `latch` (R40 to R42). -/
  dma : Dma
  /-- `mix_epoch`, `mix_n` (R43). -/
  mix : MixTime
  /-- `rs_variant`, `rs_shift`, `rs_phase` (R44). -/
  rs : Resampler
  /-- `RS_RING` (R45). -/
  ring : Ring
  /-- `RBB` (R46). -/
  rbb : BlockBuffer
  /-- `rbb_constructed` (R47). -/
  rbbConstructed : Bool
  /-- `mutex` (R48). -/
  mutex : Bool
  /-- `dev_open` (R49). -/
  devOpen : Bool
  /-- `cfg_err` (R49). -/
  cfgErr : Bool
  /-- `dev_fail` (R49). -/
  devFail : Bool
  /-- `ERR_CODE` (R37). -/
  errCode : Byte
  /-- The ghost flag `rbb_overflow` (R50). -/
  rbbOverflow : Bool
  /-- The mark of R291, "A model marks the state faulted, never clears the mark". -/
  faulted : Bool
  /-- Which elements without a power-on value have one now (R62). -/
  known : Known
  /-- The host's destination buffer, R70 (e). -/
  mem : Memory
  /-- The output trace `out`, oldest event first (R60). -/
  out : List OutEvent
  /-- The program: the commands given on the two ports (R100). -/
  program : List Command
  /-- `pc`, the command index (R22). -/
  pc : Nat
  /-- The class code the scheduler has selected and whose handler has not run (R105, R135; log entry 5). `SCH.ADV` runs
  every handler it selects within its own step, so this is `none` between the steps of a run. -/
  dispatch : Option Byte
  deriving DecidableEq, Repr

/-- The faults of R290. -/
inductive Violation where
  | rbEmpty
  | rbRange
  | rbbAbsent
  | rbbUnderflow
  | negDelay
  deriving DecidableEq, Repr

/-- Why the machine stops for good. -/
inductive Fault where
  /-- Any command but `CSR.RD 7` and `CSR.RD 8` on a block halted by an earlier fault of R290 (R291: "This spec defines no behaviour of
  any later command"). Safe: the machine stops where hardware would do something the spec does not say. -/
  | halted
  /-- An agent would wait for a mutex that nothing will release. Raised by the operations of R84; R84 shows that it does not arise ("`lock`
  never waits"), and `Inv` rules it out. Safe. -/
  | mutexHeld
  /-- A loop of R134, R190 or R278 that would never end. Raised by `SCH.ADV`, `RS.WRITE`, `EV.MIXER` and `CB.REQ` in states whose
  parameters or `rs_shift` break R6 or R44; `Inv` rules it out. Safe. -/
  | endlessLoop
  deriving DecidableEq, Repr

/-- Why a step is refused: "the spec says nothing of what hardware does with them" (R296). Every refusal is safe: the model
stops where hardware may go on. -/
inductive Refusal where
  /-- No meaning yet; used by the arms of `exec` alone. -/
  | notModelled (mnemonic : String)
  /-- A code without a meaning (R115 (a) and (b), R116, R105); raised by `step`. -/
  | badEncoding (e : DecodeError)
  /-- A command on the wrong port (R115 (c), R101); raised by `step`. -/
  | wrongPort
  /-- A well-formed word whose operand is out of range (R118); raised by the instruction, which `operand` names. -/
  | operandRange (operand : String)
  /-- An operation that reads an element with no value: refused by R62, R296, R322 and U12, and for its instructions by R215, R225, R250, R258,
  R264 and R324. Safe: the model stops where hardware goes on. -/
  | noValue (what : Element)
  /-- A timestamp that would reach `2^TS_W` (R139, R134, R23); raised by `SCH.ADD`, `SCH.ADV`, `APU.RESET` and the handlers' re-arms. -/
  | timestampOverflow
  /-- A callback request that ends inside a block with samples left over (R280); raised by `CB.REQ`. -/
  | requestInsideBlock
  /-- `pc` equals the length of the program: it has ended (R22); raised by `step`. -/
  | programEnded
  deriving DecidableEq, Repr

/-- Why an operation does not complete: a fault of R290, or one of the two stops above. -/
inductive Stop where
  | violation (v : Violation)
  | refused (r : Refusal)
  | stuck (f : Fault)
  deriving DecidableEq, Repr

/-- The result of an operation that may not complete. -/
abbrev Result (α : Type) := Except Stop α

/-- The outcome of an instruction. -/
abbrev Outcome := Host.Outcome State Fault Refusal

/-- The sample `ZERO` over `Q` (R10). -/
def zeroSample : Stereo Rat := ⟨0, 0⟩

/-- The sample `ZERO` with `s16` lanes (R10). -/
def zeroSample16 : Stereo Half := ⟨0, 0⟩

/-- Power-on, the state before the first `APU.RESET`: column "power-on" of R62. Elements without a value there hold the
values of log entry 3 and are marked not known; the parameters are REF (log entry 1); no program is given (log entry 5). -/
def State.reset : State where
  cfg := Config.ref
  sched := { now := 0, evq := [], seqCtr := 0 }
  csr :=
    { sndctlL := 0, sndctlH := 0, sndbias := 0, outvol := 100#32, interp := 1#32, mixmode := 0, tgtrate := 0 }
  ports := { psgIn := ⟨0, 0, 0, 0⟩, devRate := 0, devOk := false }
  dma := { fifo := ⟨[], []⟩, pipe := ⟨⟨0, 0⟩, ⟨0, 0⟩⟩, latch := ⟨0, 0⟩ }
  mix := { epoch := 0, n := 0 }
  rs := { variant := .nearest, shift := 1, phase := 0 }
  ring := { data := List.replicate Config.ref.rbN zeroSample, head := 0, tail := 0 }
  rbb := { data := [], currentBlock := 0, size := 0 }
  rbbConstructed := false
  mutex := false
  devOpen := false
  cfgErr := false
  devFail := false
  errCode := 0
  rbbOverflow := false
  faulted := false
  known :=
    { sndctlL := false, sndctlH := false, sndbias := false, psgIn := ⟨false, false, false, false⟩, dev := false,
      apu := false, ring := false }
  mem := []
  out := []
  program := []
  pc := 0
  dispatch := none

end Sys2Proof.Machine
end

