-- ==== Sys2Proof/Machine/Ops.lean ====
section
/-! DEFINITION. The shared operations: raising a fault (the block's only exception, R291), completing a command, reading an element that
may have no value, host memory, the event queue, the mutex, the two ring buffers, and taking the next command. -/

namespace Sys2Proof.Machine

/-! ### Arithmetic of R9 -/

/-- `clamp(x, lo, hi)` on `Z` (R9). -/
def clampInt (x lo hi : Int) : Int := if x < lo then lo else if hi < x then hi else x

/-- `clamp(x, lo, hi)` on `Q` (R9). -/
def clampRat (x lo hi : Rat) : Rat := if x < lo then lo else if hi < x then hi else x

/-- `tdiv(a, b)`: division truncated toward zero (R9). -/
def tdiv (a : Int) (b : Nat) : Int := Int.tdiv a b

/-- `trunc(x)`: the fraction dropped toward zero (R9). -/
def truncRat (x : Rat) : Int := Int.tdiv x.num x.den

/-- `round_half_up(num / den)` for naturals, by the formula of R236: `floor((2 num + den) / (2 den))`. -/
def roundHalfUp (num den : Nat) : Nat := (2 * num + den) / (2 * den)

/-! ### Faults (R290, R291) and the end of an operation -/

/-- The code of a fault (R290). -/
def Violation.code : Violation → Byte
  | .rbEmpty => 1
  | .rbRange => 2
  | .rbbAbsent => 3
  | .rbbUnderflow => 4
  | .negDelay => 5

/-- `raise F` (R291): the code is recorded if none was, the block is marked faulted, nothing else changes and `pc` does not advance. -/
def State.raise (v : Violation) (s : State) : State :=
  { s with errCode := if s.errCode = 0 then v.code else s.errCode, faulted := true }

/-- The outcome of an operation that stopped, `s` being the state it leaves standing (R291, R296). -/
def Stop.outcome (e : Stop) (s : State) : Outcome :=
  match e with
  | .violation v => .next (s.raise v)
  | .refused r => .refused r
  | .stuck f => .fault f

/-- `pc <- pc + 1` (R11, R22). -/
def State.retire (s : State) : State := { s with pc := s.pc + 1 }

/-- `emit e` (R11, R60). -/
def State.emit (e : OutEvent) (s : State) : State := { s with out := s.out ++ [e] }

/-- `result v` (R11, R101). -/
def State.result (v : Value) (s : State) : State := s.emit (.result v)

/-- A command as one atomic step (R100): on a halted block it has no behaviour (R291), otherwise it completes and `pc` advances, or
it stops and leaves the state it began in. -/
def runCommand (s : State) (body : Result State) : Outcome :=
  if s.faulted then .fault .halted
  else
    match body with
    | .ok t => .next t.retire
    | .error e => e.outcome s

/-- A handler as one atomic step (R105, R225): as `runCommand`, but no rule of a handler advances `pc`. -/
def runHandler (s : State) (body : Result State) : Outcome :=
  if s.faulted then .fault .halted
  else
    match body with
    | .ok t => .next t
    | .error e => e.outcome s

/-- An operation that reads an element which may have no value. R62: "a model refuses an operation that reads an element with no value"; R322
says the same, and R296 and U12 count it among the refusals. -/
def needing {α : Type} (has : Bool) (what : Element) (body : Result α) : Result α :=
  if has then body else .error (.refused (.noValue what))

/-- Refuses an operand out of range by its name (R118). -/
def badOperand {α : Type} (operand : String) : Result α := .error (.refused (.operandRange operand))

/-! ### Host memory (R70 (e), R72) -/

/-- The byte the block has written at `a`, if it has written one. -/
def Memory.read : Memory → Nat → Option Byte
  | [], _ => none
  | (k, b) :: rest, a => if k = a then some b else Memory.read rest a

/-- The memory with byte `v` at `a`; the addresses stay strictly rising. -/
def Memory.write : Memory → Nat → Byte → Memory
  | [], a, v => [(a, v)]
  | (k, b) :: rest, a, v =>
    if a < k then (a, v) :: (k, b) :: rest
    else if a = k then (a, v) :: rest
    else (k, b) :: Memory.write rest a v

/-- The canonical form: addresses strictly rising. An unlisted address holds no byte, so no entry can equal one. -/
abbrev Memory.wf (m : Memory) : Prop := m.Pairwise (fun x y => x.1 < y.1)

/-- `MemRead(addr, n)` (R11), low byte at the lower address; R11: no rule uses it. -/
def Memory.readLE (m : Memory) (addr : Nat) : Nat → Option Nat
  | 0 => some 0
  | n + 1 =>
    match Memory.read m addr, Memory.readLE m (addr + 1) n with
    | some b, some rest => some (b.toNat + 256 * rest)
    | _, _ => none

/-- One byte written to host memory, and its event in the trace (R60). -/
def State.writeByte (addr : Nat) (b : Byte) (s : State) : State :=
  { s with mem := Memory.write s.mem addr b, out := s.out ++ [.memByte addr b] }

/-- `MemWrite(addr, n, v)` (R11), low byte at the lower address (R74). -/
def memWrite (addr : Nat) : Nat → Nat → State → State
  | 0, _, s => s
  | n + 1, v, s => memWrite (addr + 1) n (v / 256) (s.writeByte addr (BitVec.ofNat 8 v))

/-! ### The event queue (R24, R137, R139) -/

/-- The order of R137: target first, then insertion number. -/
def Event.before (x y : Event) : Bool :=
  decide (x.target < y.target) || (decide (x.target = y.target) && decide (x.seq < y.seq))

/-- The queue with one more event, in its place. -/
def insertEvent (e : Event) : List Event → List Event
  | [] => [e]
  | x :: rest => if e.before x then e :: x :: rest else x :: insertEvent e rest

/-- `Arm(delta, class)` (R139). -/
def arm (delta : Nat) (cls : EvClass) (s : State) : Result State :=
  if s.sched.now + delta < 2 ^ s.cfg.tsW then
    .ok { s with
      sched :=
        { s.sched with
          evq := insertEvent { target := s.sched.now + delta, cls := cls, seq := s.sched.seqCtr } s.sched.evq
          seqCtr := s.sched.seqCtr + 1 } }
  else .error (.refused .timestampOverflow)

/-- The event of the queue that is to run next, and the queue without it: the least by `(target, seq)`, if it is due (R134). -/
def dueEvent (q : List Event) (now : Nat) : Option (Event × List Event) :=
  match q with
  | [] => none
  | e :: rest => if e.target ≤ now then some (e, rest) else none

/-- Removes every `MIXER` and `SEQUENCER` event (R220, R240). -/
def removeOwnEvents (s : State) : State :=
  { s with sched := { s.sched with evq := s.sched.evq.filter (fun e => !(e.cls == .mixer || e.cls == .sequencer)) } }

/-! ### The mutex (R48, R84) -/

/-- `lock; body; unlock` (R84). The mutex is free between steps, so `lock` never waits; a body that stops leaves it free. -/
def withMutex (s : State) (body : State → Result State) : Result State :=
  if s.mutex then .error (.stuck .mutexHeld)
  else
    match body { s with mutex := true } with
    | .ok t => .ok { t with mutex := false }
    | .error e => .error e

/-! ### RingBuffer (R150 to R156); `n` is the number of slots -/

/-- `Available()` (R155). -/
def Ring.available (r : Ring) : Nat := r.tail - r.head

/-- The slot a cursor names (R150). -/
def Ring.slot (n : Nat) (r : Ring) (cursor : Nat) : Stereo Rat := r.data.getD (cursor % n) zeroSample

/-- `Push(x)` (R152). -/
def Ring.push (n : Nat) (r : Ring) (x : Stereo Rat) : Ring :=
  { r with data := r.data.set (r.tail % n) x, tail := r.tail + 1 }

/-- `Pop()` (R153): the oldest value and the buffer without it. -/
def Ring.pop (n : Nat) (r : Ring) : Result (Stereo Rat × Ring) :=
  if r.available = 0 then .error (.violation .rbEmpty)
  else .ok (r.slot n r.head, { r with head := r.head + 1 })

/-- `Peek(k)` (R154). -/
def Ring.peek (n : Nat) (r : Ring) (k : Nat) : Result (Stereo Rat) :=
  if r.available ≤ k then .error (.violation .rbRange) else .ok (r.slot n (r.head + k))

/-- `Reset()` (R156): slots cleared, cursors rewound. -/
def Ring.cleared (n : Nat) : Ring := { data := List.replicate n zeroSample, head := 0, tail := 0 }

/-! ### RingBlockBuffer (R166 to R172); `c` gives `N = RBB_N` and `B = RBB_B` -/

/-- `CAP = N × B`. -/
def bufCap (c : Cfg) : Nat := c.rbbN * c.rbbB

/-- `base = currentBlock × N` (R166). -/
def BlockBuffer.base (c : Cfg) (b : BlockBuffer) : Nat := b.currentBlock * c.rbbN

/-- The slot `data[i]`. -/
def BlockBuffer.slot (b : BlockBuffer) (i : Nat) : Stereo Half := b.data.getD i zeroSample16

/-- `Push(x)` (R167), wrapping as R168 says. -/
def BlockBuffer.push (c : Cfg) (b : BlockBuffer) (x : Stereo Half) : BlockBuffer :=
  { b with data := b.data.set ((b.base c + b.size) % bufCap c) x, size := (b.size + 1) % bufCap c }

/-- The block `data[base .. base+N-1]` that `PopBlock()` returns (R169). -/
def BlockBuffer.block (c : Cfg) (b : BlockBuffer) : List (Stereo Half) := (b.data.drop (b.base c)).take c.rbbN

/-- The cursors after `PopBlock()` (R169). -/
def BlockBuffer.dropBlock (c : Cfg) (b : BlockBuffer) : BlockBuffer :=
  { b with currentBlock := (b.currentBlock + 1) % c.rbbB, size := b.size - c.rbbN }

/-- `Back()` (R171). -/
def BlockBuffer.back (c : Cfg) (b : BlockBuffer) : Stereo Half :=
  if 0 < b.size then b.slot ((b.base c + b.size - 1) % bufCap c) else b.slot (b.base c)

/-- A buffer just constructed: every slot `ZERO` (R46, R217). -/
def BlockBuffer.fresh (c : Cfg) : BlockBuffer :=
  { data := List.replicate (bufCap c) zeroSample16, currentBlock := 0, size := 0 }

/-- An `RBB` operation under the mutex on a buffer that must exist (R84, R165). -/
def withBuffer (s : State) (body : State → Result State) : Result State :=
  withMutex s (fun t => if t.rbbConstructed then body t else .error (.violation .rbbAbsent))

/-- `RBB.Push(x)` (R167) with the ghost flag of R168: set on any push made at `size >= CAP - 1`. -/
def rbbPush (x : Stereo Half) (s : State) : Result State :=
  withBuffer s (fun t =>
    .ok { t with
      rbb := t.rbb.push t.cfg x
      rbbOverflow := t.rbbOverflow || decide (bufCap t.cfg ≤ t.rbb.size + 1) })

/-! ### Taking the next instruction (R22, R87, R100, R101, R105, R115) -/

/-- Puts a command of a program at index `pc` (log entry 5). The indices below `pc` keep their commands, and any
index below `pc` the program does not have is filled with `SCH.NOW`, whose word is never taken. -/
def placeCommand (s : State) (c : Command) : State :=
  { s with
    program :=
      s.program.take s.pc ++ List.replicate (s.pc - s.program.length) ⟨.e, 0x0300000000000000#64⟩ ++ c :: s.program.drop (s.pc + 1) }

/-- What the next step runs: the handler the scheduler has selected, else the command at `pc`, if it has a meaning and came in
on its own port. The state is the one the instruction runs in. DESIGN CHOICE (log entry 7): R291 leaves `pc` at a faulting command and defines
`CSR.RD 7` and `CSR.RD 8` after it, without saying how a later command is reached. Here the next step takes the command at `pc`, the one
that faulted, again and stops as halted; `CSR.RD 7` and `CSR.RD 8` run on a halted block where one of them has been put at `pc` from outside. -/
def nextInstr (s : State) : Except Refusal (Instr × State) :=
  match s.dispatch with
  | some c =>
    match decode (.event c) with
    | .ok i => .ok (i, { s with dispatch := none })
    | .error e => .error (.badEncoding e)
  | none =>
    match s.program[s.pc]? with
    | none => .error .programEnded
    | some cmd =>
      match decode (.command cmd.word) with
      | .error e => .error (.badEncoding e)
      | .ok i => if i.port = cmd.port then .ok (i, s) else .error .wrongPort

end Sys2Proof.Machine
end

