-- ==== Sys2Proof/Machine/Flags.lean ====
section
/-! DEFINITION. The control registers' fields (R27 to R33), their write masks (R262), and the two registers that are views of
the status flags and the fault record: `STATUS` (R36) and `ERR` (R37). -/

namespace Sys2Proof.Machine

/-- `MASTER[s]` (R27): bits `[MASTER_W-1:0]` right, bits `[4+MASTER_W-1:4]` left. -/
def masterField (c : Cfg) (sndctlL : Word) : Side → Nat
  | .left => sndctlL.toNat / 2 ^ 4 % 2 ^ c.masterW
  | .right => sndctlL.toNat % 2 ^ c.masterW

/-- `PSG_EN[s][c]` (R27): bit `8 + c` right, bit `12 + c` left. -/
def psgEnabled (sndctlL : Word) (s : Side) (ch : PsgCh) : Bool :=
  match s with
  | .left => sndctlL.getLsbD (12 + ch.num)
  | .right => sndctlL.getLsbD (8 + ch.num)

/-- `PSG_EN[L][c] = 1 or PSG_EN[R][c] = 1`: the channel is queried (R226). -/
def psgQueried (sndctlL : Word) (ch : PsgCh) : Bool :=
  psgEnabled sndctlL .left ch || psgEnabled sndctlL .right ch

/-- `PSG_VOL_TAB[PSG_VOL]`: `PSG_VOL` is bits 1:0 of `SNDCTL_H` (R28, R227). -/
def psgVolume (c : Cfg) (sndctlH : Word) : Nat :=
  match sndctlH.getLsbD 1, sndctlH.getLsbD 0 with
  | false, false => c.psgVolTab.c0
  | false, true => c.psgVolTab.c1
  | true, false => c.psgVolTab.c2
  | true, true => c.psgVolTab.c3

/-- `DMA_VOL_TAB[DMA_VOL[f]]`: `DMA_VOL[f]` is bit `2 + f` of `SNDCTL_H` (R28, R228). -/
def dmaVolume (c : Cfg) (sndctlH : Word) (f : DmaCh) : Nat :=
  if sndctlH.getLsbD (2 + f.num) then c.dmaVolTab.c1 else c.dmaVolTab.c0

/-- `DMA_EN[f][s]` (R28): bits 8 and 9 are channel 0 right and left, bits 12 and 13 channel 1 right and left. -/
def dmaEnabled (sndctlH : Word) (f : DmaCh) : Side → Bool
  | .right => sndctlH.getLsbD (8 + 4 * f.num)
  | .left => sndctlH.getLsbD (9 + 4 * f.num)

/-- `DMA_TMR[f]` (R28): bit 10 for channel 0, bit 14 for channel 1; the number of the timer the channel is bound to. -/
def dmaTimer (sndctlH : Word) (f : DmaCh) : Nat :=
  if sndctlH.getLsbD (10 + 4 * f.num) then 1 else 0

/-- `INTERP_SEL` (R31): bits 2:0 of `INTERP`; 7 is reserved and names no variant. -/
def interpVariant (interp : Word) : Option Variant :=
  match interp.toNat % 8 with
  | 0 => some .nearest
  | 1 => some .cosine
  | 2 => some .cubic
  | 3 => some .sinc32
  | 4 => some .sinc64
  | 5 => some .sinc128
  | 6 => some .sinc256
  | _ => none

/-- `MIXMODE.FLOAT` (R32): bit 0. -/
def floatMode (mixmode : Word) : Bool := mixmode.getLsbD 0

/-- `OUT_VOL` (R30): bits 6:0 of `OUTVOL`. -/
def outVolume (outvol : Word) : Nat := outvol.toNat % 128

/-- `BIAS_LEVEL` (R29): bits `[BIAS_W-1:0]` of `SNDBIAS`. -/
def biasLevel (c : Cfg) (sndbias : Word) : Nat := sndbias.toNat % 2 ^ c.biasW

/-- The low `n` bits set, as a control register. -/
def lowMask (n : Nat) : Word := BitVec.ofNat 32 (2 ^ n - 1)

/-- `WMASK_L = 0xFF00 OR (2^MASTER_W - 1) OR ((2^MASTER_W - 1) << 4)` (R262). -/
def wmaskL (c : Cfg) : Word := 0xFF00#32 ||| lowMask c.masterW ||| (lowMask c.masterW <<< 4)

/-- The write mask of `SNDCTL_H` (R262). -/
def wmaskH : Word := 0x770F#32

/-- `SNDBIAS` holding bias level `v` (R29). -/
def sndbiasOf (c : Cfg) (v : Nat) : Word := BitVec.ofNat 32 v &&& lowMask c.biasW

/-- What a write of `value` stores in `OUTVOL`: `clamp(sext_32(value), 0, 100)` (R30, R262). -/
def outvolOf (value : Word) : Word := BitVec.ofInt 32 (clampInt value.toInt 0 100)

/-- A flag as a number. -/
def bit (b : Bool) : Nat := if b then 1 else 0

/-- `STATUS`, index 7 (R36): bit 0 `RBB_OK`, bit 1 `DEV_OPEN`, bit 2 `CFG_ERR`, bit 3 `DEV_FAIL`. -/
def State.status (s : State) : Word :=
  BitVec.ofNat 32 (bit s.rbbConstructed + 2 * bit s.devOpen + 4 * bit s.cfgErr + 8 * bit s.devFail)

/-- `ERR`, index 8 (R37): bits 7:0 `ERR_CODE`. -/
def State.err (s : State) : Word := s.errCode.setWidth 32

end Sys2Proof.Machine
end

