-- ==== Sys2Proof/Machine/Kernel.lean ====
section
/-! DEFINITION. The resampler's taps and weights (R187, R195, R196, R199 to R206). -/

namespace Sys2Proof.Machine

/-- `TAPS(v)` (R187). -/
def taps : Variant → Nat
  | .nearest => 1
  | .cosine => 2
  | .cubic => 4
  | .sinc32 => 32
  | .sinc64 => 64
  | .sinc128 => 128
  | .sinc256 => 256

/-- `c(mu)` of R201 at the phases with an exact value, 0 and 1/2; free elsewhere (log entry 2). -/
def cosineRef (mu : Rat) : Rat :=
  if mu = 0 then 1 else if mu = 1 / 2 then 1 / 2 else Config.cosineWeight mu

/-- A reference Sinc weight (R199): free tap by tap, but the last makes the `P` weights sum to 1, which R199 says of every phase
(log entry 2). -/
def sincRef (v : Variant) (shift mu : Rat) (j : Nat) : Rat :=
  if j + 1 < taps v then Config.sincWeight v shift mu j
  else 1 - ((List.range (taps v - 1)).map (Config.sincWeight v shift mu)).sum

/-- The reference kernels: R200 Nearest, R201 Cosine, R202 Cubic, R203 to R206 Sinc. -/
def referenceKernel (v : Variant) (shift mu : Rat) (j : Nat) : Rat :=
  match v with
  | .nearest => 1
  | .cosine => if j = 0 then cosineRef mu else 1 - cosineRef mu
  | .cubic =>
    match j with
    | 0 => -(mu * mu * mu) + 2 * (mu * mu) - mu
    | 1 => mu * mu * mu - 2 * (mu * mu) + 1
    | 2 => -(mu * mu * mu) + mu * mu + mu
    | _ => mu * mu * mu - mu * mu
  | .sinc32 => sincRef .sinc32 shift mu j
  | .sinc64 => sincRef .sinc64 shift mu j
  | .sinc128 => sincRef .sinc128 shift mu j
  | .sinc256 => sincRef .sinc256 shift mu j

/-- `KERNEL(v, shift, mu, j)` (R196). -/
def kernel (sel : KernelSel) (v : Variant) (shift mu : Rat) (j : Nat) : Rat :=
  match sel with
  | .reference => referenceKernel v shift mu j
  | .other k => Config.freeKernel k v shift mu j

/-- One output sample (R190): the sum over `j` of weight `j` times `h[j]`, lane by lane; `h` is the window of R195. -/
def interpolate (weight : Nat → Rat) (h : List (Stereo Rat)) : Stereo Rat :=
  Stereo.of (fun side => ((List.range h.length).map (fun j => weight j * (h.getD j zeroSample).side side)).sum)

end Sys2Proof.Machine
end

