-- ==== Sys2Proof/Machine/Operands.lean ====
section
/-! DEFINITION. Operand assembly: how each operand field of R106 is read as a number, a sample or a selector. An operand out of the
range of R106 has no reading, and the instruction that finds none refuses it (R118). -/

namespace Sys2Proof.Machine

/-- `class = a`, 0 or 1 (R105, R106). -/
def classOperand (a : Byte) : Option EvClass :=
  if a = 0x00#8 then some .mixer else if a = 0x01#8 then some .sequencer else none

/-- `delta = sext_32(d)` (R106). -/
def deltaOperand (d : Word) : Int := d.toInt

/-- A sample of `RB.PUSH` and `RS.WRITE`: `(sext_16(d[15:0]), sext_16(d[31:16]))` as integers in `Q` (R106). -/
def sampleOperand (l r : Half) : Stereo Rat := ⟨(l.toInt : Rat), (r.toInt : Rat)⟩

/-- A DMA channel operand `f = a`, 0 or 1 (R106). -/
def dmaOperand (a : Byte) : Option DmaCh :=
  if a = 0#8 then some .ch0 else if a = 1#8 then some .ch1 else none

/-- A PSG channel operand `c = a`, 0 to 3 (R106). -/
def psgOperand (a : Byte) : Option PsgCh :=
  if a = 0#8 then some .ch0 else if a = 1#8 then some .ch1
  else if a = 2#8 then some .ch2 else if a = 3#8 then some .ch3 else none

/-- The value operand of `PSG.SET`: `sext_32(d)`, which must fit `PSG_W` signed bits (R106, R118). -/
def psgValueOperand (c : Cfg) (d : Word) : Option Int :=
  if fitsSigned c.psgW d.toInt then some d.toInt else none

/-- The open result operand of `DEV.SET`: `ok = a`, 0 or 1 (R106). -/
def okOperand (a : Byte) : Option Bool :=
  if a = 0#8 then some false else if a = 1#8 then some true else none

/-- `times = b`, 1 only (R106, R118, R256). -/
def timesIsOne (b : Half) : Bool := b == 1#16

/-- The number of samples a `CB.REQ` asks for, `len / 4`, `len` a multiple of 4 (R76, R106, R276). -/
def requestOperand (len : BitVec 24) : Option Nat :=
  if len.toNat % 4 = 0 then some (len.toNat / 4) else none

/-- `dest = zext_32(d)`, a host byte address (R72, R106). -/
def destOperand (d : Word) : Nat := d.toNat

end Sys2Proof.Machine
end

