-- ==== Sys2Proof/Machine/Resampler.lean ====
section
/-! DEFINITION. The resampler (`43_resampler.md`): `RS.Init`, `ConfigError`, `RS.Rate`, `RS.Write`, and the commands `RS.RATE` and
`RS.WRITE`. -/

namespace Sys2Proof.Machine

/-- `RS.Init(v)` (R186): the ring reset and filled with `TAPS(v) - 1` silent samples, the phase 0, `rs_shift` left alone. -/
def rsInit (v : Variant) (s : State) : State :=
  { s with
    rs := { s.rs with variant := v, phase := 0 }
    ring := (List.replicate (taps v - 1) zeroSample).foldl (Ring.push s.cfg.rbN) (Ring.cleared s.cfg.rbN) }

/-- `ConfigError()` (R189). -/
def configError (s : State) : State :=
  let t := { s with cfgErr := true }
  if s.rs.variant = s.cfg.rsDefault then t else rsInit s.cfg.rsDefault t

/-- `rs_shift <- x`. -/
def setShift (x : Rat) (s : State) : State := { s with rs := { s.rs with shift := x } }

/-- `RS.Rate(src, dst)` (R188). -/
def rsRate (src dst : Nat) (s : State) : State :=
  if src = 0 ∨ dst = 0 then setShift 1 (configError s)
  else if s.cfg.rsSupported s.rs.variant src dst then setShift ((src : Rat) / (dst : Rat)) s
  else setShift ((src : Rat) / (dst : Rat)) (configError s)

/-- How many outputs one input produces (R193): `ceil((1 - rs_phase) / rs_shift)`, none when `rs_phase >= 1`. -/
def outputCount (shift phase : Rat) : Nat := ((1 - phase) / shift).ceil.toNat

/-- The loop of R190, `while rs_phase < 1`: the outputs and the phase it ends with. The first argument bounds the turns; `none` says
that the bound was reached with the phase still below 1, which does not happen when `rs_shift` is positive (R44). -/
def rsLoop (output : Rat → Stereo Rat) (shift : Rat) : Nat → Rat → Option (List (Stereo Rat) × Rat)
  | 0, phase => if phase < 1 then none else some ([], phase)
  | k + 1, phase =>
    if phase < 1 then
      match rsLoop output shift k (phase + shift) with
      | some (ys, last) => some (output phase :: ys, last)
      | none => none
    else some ([], phase)

/-- The window `h[0 .. p-1]` of R195, `h[j] = RB.Peek(j)`; the `p` calls of `Peek` all succeed exactly when `p <= Available()`, and
otherwise the first that does not raises `RB_RANGE` (R154). -/
def window (n : Nat) (r : Ring) (p : Nat) : Result (List (Stereo Rat)) :=
  if p ≤ r.available then .ok ((List.range p).map (fun j => r.slot n (r.head + j)))
  else .error (.violation .rbRange)

/-- `RS.Write(x, sink)` (R190): the outputs in the order `sink` is given them, and the state afterwards. `Peek` is called only when an
output is due, so only then can it fault. -/
def rsWrite (x : Stereo Rat) (s : State) : Result (List (Stereo Rat) × State) :=
  let n := s.cfg.rbN
  let pushed := s.ring.push n x
  match (if s.rs.phase < 1 then window n pushed (taps s.rs.variant) else .ok []) with
  | .error e => .error e
  | .ok h =>
    let output := fun mu => interpolate (kernel s.cfg.kernel s.rs.variant s.rs.shift mu) h
    match rsLoop output s.rs.shift (outputCount s.rs.shift s.rs.phase) s.rs.phase with
    | none => .error (.stuck .endlessLoop)
    | some (ys, last) =>
      match pushed.pop n with
      | .error e => .error e
      | .ok (_, popped) => .ok (ys, { s with rs := { s.rs with phase := last - 1 }, ring := popped })

/-- `RS.RATE src, dst` (R188). It reads `rs_variant`, which has no value before the first `APU.RESET` (R62, R324). -/
def execRsRate (src : BitVec 24) (dst : Word) (s : State) : Outcome :=
  runCommand s (needing s.known.apu .resampler (.ok (rsRate src.toNat dst.toNat s)))

/-- `RS.WRITE x` (R190, R191): the outputs are the command's result and nothing is pushed to `RBB`. -/
def execRsWrite (l r : Half) (s : State) : Outcome :=
  runCommand s
    (needing s.known.apu .resampler
      (needing s.known.ring .rsRing
        (match rsWrite (sampleOperand l r) s with
        | .error e => .error e
        | .ok (ys, t) => .ok (t.result (.samples ys)))))

end Sys2Proof.Machine
end

