-- ==== Sys2Proof/Machine/Mixer.lean ====
section
/-! DEFINITION. The two event handlers (`44_apu_mixer.md`): `StepMixer` (R225 to R236) and `StepSequencer` (R222, R237). -/

namespace Sys2Proof.Machine

/-- `psg_sum[s]` (R227): the enabled channels' samples (R226). -/
def psgSum (s : State) (side : Side) : Int :=
  (PsgCh.all.map (fun c => if psgEnabled s.csr.sndctlL side c then s.ports.psgIn.get c else 0)).sum

/-- `MASTER_NUM(m)` (R6). -/
def masterNumOf (c : Cfg) (m : Nat) : Int := c.masterNum.getD m 0

/-- `psg_sum[s] × g × m[s]` (R227), before the division by `PSG_DIV`. -/
def psgScaled (s : State) (side : Side) : Int :=
  psgSum s side * (psgVolume s.cfg s.csr.sndctlH : Int) * masterNumOf s.cfg (masterField s.cfg s.csr.sndctlL side)

/-- `dma_mix[s]` (R228). -/
def dmaMix (s : State) (side : Side) : Int :=
  ([DmaCh.ch0, DmaCh.ch1].map (fun f =>
    if dmaEnabled s.csr.sndctlH f side then
      (s.dma.latch.get f).toInt * (dmaVolume s.cfg s.csr.sndctlH f : Int)
    else 0)).sum

/-- The map of the saturated value to [-1, 1] (R229). -/
def normalise (c : Cfg) (sat : Rat) : Rat := (sat - (c.normOffset : Rat)) / (c.normScale : Rat)

/-- Steps 2 to 4 on the fixed-point path (R227, R229): one truncating division, integers up to the normalisation. -/
def normFixed (s : State) (side : Side) : Rat :=
  let psgMix := tdiv (psgScaled s side) s.cfg.psgDiv
  let acc := psgMix + dmaMix s side + (biasLevel s.cfg s.csr.sndbias : Int)
  normalise s.cfg (clampInt acc s.cfg.satMin s.cfg.satMax : Rat)

/-- Steps 2 to 4 on the floating path, over exact rationals (R227, R230; log entry 6). -/
def normFloat (s : State) (side : Side) : Rat :=
  let psgMix : Rat := (psgScaled s side : Rat) / (s.cfg.psgDiv : Rat)
  let acc := psgMix + (dmaMix s side : Rat) + (biasLevel s.cfg s.csr.sndbias : Rat)
  normalise s.cfg (clampRat acc (s.cfg.satMin : Rat) (s.cfg.satMax : Rat))

/-- `norm` of the mixer step (R229, R230). -/
def mixNorm (s : State) : Stereo Rat :=
  Stereo.of (fun side => if floatMode s.csr.mixmode then normFloat s side else normFixed s side)

/-- The arithmetic of the output stage on one side (R233). -/
def toS16 (c : Cfg) (outVol : Nat) (v : Rat) : Half :=
  let y := clampRat v (-1) 1
  let z := y * (outVol : Rat) / 100
  BitVec.ofInt 16 (clampInt (truncRat (z * (c.s16Scale : Rat))) (-32768) 32767)

/-- The sample the output stage makes of `v` (R233). -/
def outputSample (s : State) (v : Stereo Rat) : Stereo Half := v.map (toS16 s.cfg (outVolume s.csr.outvol))

/-- `OutputStage(v)` (R232 to R234). -/
def outputStage (v : Stereo Rat) (s : State) : Result State := rbbPush (outputSample s v) s

/-- `OutputStage` on each of a list of samples, in order (R231). -/
def outputAll : List (Stereo Rat) → State → Result State
  | [], s => .ok s
  | v :: rest, s =>
    match outputStage v s with
    | .error e => .error e
    | .ok t => outputAll rest t

/-- Routing between step 4 and step 5 (R231). -/
def routeSample (norm : Stereo Rat) (s : State) : Result State :=
  match s.cfg.rsPath with
  | .bypass => outputStage norm s
  | .inline =>
    needing s.known.ring .rsRing
      (match rsWrite norm s with
      | .error e => .error e
      | .ok (ys, t) => outputAll ys t)

/-- The target of the `n`-th mixer event: `mix_epoch + round_half_up(n × CPS)` (R236, R238). -/
def mixTarget (c : Cfg) (epoch n : Nat) : Nat := epoch + roundHalfUp (n * c.cpsNum) c.cpsDen

/-- Step 6 (R236): the delay is clamped to 0 by the mixer itself. -/
def rearmMixer (s : State) : Result State :=
  let t := { s with mix := { s.mix with n := s.mix.n + 1 } }
  arm (mixTarget t.cfg t.mix.epoch t.mix.n - t.sched.now) .mixer t

/-- The first enabled PSG channel whose port has no value (R225). -/
def undrivenPsg (s : State) : Option PsgCh :=
  PsgCh.all.find? (fun c => psgQueried s.csr.sndctlL c && !(s.known.psgIn.get c))

/-- Refused when an element the mixer step reads has no value (R62). R225: "A model refuses the step if an enabled channel's `PSG_IN[c]` has
no value." -/
def mixerReads (s : State) (body : Result State) : Result State :=
  needing s.known.sndctlL .sndctlL
    (needing s.known.sndctlH .sndctlH
      (needing s.known.sndbias .sndbias
        (needing s.known.apu .mixTime
          (match undrivenPsg s with
          | some c => .error (.refused (.noValue (.psgIn c)))
          | none => body))))

/-- `StepMixer` (R225 to R236): without a buffer it faults before any other effect. -/
def stepMixer (s : State) : Result State :=
  if s.rbbConstructed then
    mixerReads s
      (match routeSample (mixNorm s) s with
      | .error e => .error e
      | .ok t => rearmMixer t)
  else .error (.violation .rbbAbsent)

/-- The four `PSG_TICK` events of a sequencer step, channel 0 first (R222). -/
def tickPsg (s : State) : State := { s with out := s.out ++ PsgCh.all.map .psgTick }

/-- `StepSequencer` (R222, R237): the re-arm is measured from `now`. -/
def stepSequencer (s : State) : Result State := arm s.cfg.seqCycles .sequencer (tickPsg s)

/-- `EV.MIXER`: the handler of class `0x00` (R105, R225). -/
def execEvMixer (s : State) : Outcome := runHandler s (stepMixer s)

/-- `EV.SEQ`: the handler of class `0x01` (R105, R222). -/
def execEvSeq (s : State) : Outcome := runHandler s (stepSequencer s)

end Sys2Proof.Machine
end

