-- ==== Sys2Proof/Machine/Apu.lean ====
section
/-! DEFINITION. `APU.RESET` in its six parts (R215 to R221) and `APU.OFF` (R240). -/

namespace Sys2Proof.Machine

/-- Reset, part 1: registers (R216). The elements it writes have a value from here on (R62). -/
def resetRegisters (s : State) : State :=
  { s with
    cfgErr := false
    devFail := false
    csr := { s.csr with sndctlL := 0, sndctlH := 0, sndbias := sndbiasOf s.cfg s.cfg.biasReset }
    dma := { fifo := ⟨[], []⟩, pipe := ⟨⟨0, 0⟩, ⟨0, 0⟩⟩, latch := ⟨0, 0⟩ }
    known := { s.known with sndctlL := true, sndctlH := true, sndbias := true, apu := true, ring := true } }

/-- Reset, part 2: device and buffer (R217). A failed open sets `dev_fail` and nothing stops (R294). -/
def resetDevice (s : State) : Result State :=
  let closed := { s.emit .devClose with devOpen := false }
  match withMutex closed (fun t => .ok { t with rbb := BlockBuffer.fresh t.cfg, rbbConstructed := true }) with
  | .error e => .error e
  | .ok built =>
    let opened := built.emit .devOpen
    .ok (if opened.ports.devOk then { opened with devOpen := true } else { opened with devFail := true })

/-- Reset, part 3: the resampler's variant (R218); the reserved selection 7 is a configuration error. -/
def resetVariant (s : State) : State :=
  match interpVariant s.csr.interp with
  | some v => rsInit v s
  | none => rsInit s.cfg.rsDefault { s with cfgErr := true }

/-- Reset, part 4: the resampler's rates (R219). -/
def resetRates (s : State) : State := rsRate s.cfg.srcRate s.ports.devRate.toNat s

/-- Reset, part 6: arming, the mixer event first (R221). -/
def resetArm (s : State) : Result State :=
  let t := { s with mix := { epoch := s.sched.now, n := 1 } }
  match arm (roundHalfUp t.cfg.cpsNum t.cfg.cpsDen) .mixer t with
  | .error e => .error e
  | .ok u => arm u.cfg.seqCycles .sequencer u

/-- `APU.RESET` (R215): the six parts in order; part 5 removes the old events (R220). It reads `DEV_RATE` and `DEV_OK`, which must
have been driven. -/
def execApuReset (s : State) : Outcome :=
  runCommand s
    (needing s.known.dev .devPorts
      (match resetDevice (resetRegisters s) with
      | .error e => .error e
      | .ok t => resetArm (removeOwnEvents (resetRates (resetVariant t)))))

/-- `APU.OFF` (R240). DESIGN CHOICE (log entry 21): it runs before the first `APU.RESET` too. R324's list of what is legal there does not name it,
and no rule refuses it; R240 gives it an effect without a precondition, and it reads no element without a value. -/
def execApuOff (s : State) : Outcome :=
  runCommand s
    (match withMutex { s.emit .devClose with devOpen := false } (fun t => .ok { t with rbbConstructed := false }) with
    | .error e => .error e
    | .ok t => .ok (removeOwnEvents t))

end Sys2Proof.Machine
end

