-- ==== Sys2Proof/Machine/Callback.lean ====
section
/-! DEFINITION. The audio callback `CB.REQ` (`46_callback.md`): silence, or the drain of the RingBlockBuffer into host memory. -/

namespace Sys2Proof.Machine

/-- `Store(i, (l, r))` at byte address `dest + 4i` (R74, R276). -/
def storeSample (dest i : Nat) (x : Stereo Half) (s : State) : State :=
  memWrite (dest + 4 * i + 2) 2 x.r.toNat (memWrite (dest + 4 * i) 2 x.l.toNat s)

/-- Samples stored one after another from sample `i` of the request on. -/
def storeSamples (dest : Nat) : Nat → List (Stereo Half) → State → State
  | _, [], s => s
  | i, x :: rest, s => storeSamples dest (i + 1) rest (storeSample dest i x s)

/-- `Silence()` (R277): `len` zero bytes. -/
def silence (dest : Nat) : Nat → State → State
  | 0, s => s
  | n + 1, s => silence (dest + 1) n (s.writeByte dest 0)

/-- The queued samples a partial copy reads: `data[base .. base + size - 1]` (R278 (b) and (c)). -/
def partialSamples (c : Cfg) (b : BlockBuffer) : List (Stereo Half) := (b.data.drop (b.base c)).take b.size

/-- `Drain()` (R278): `i` is the next sample to store, `r` the samples still owed. Case (a) copies a block, case (b) a partial block
that meets the request, case (c) what is left and then the pad; anything else is refused (R280). The first argument bounds the turns. -/
def drain (dest : Nat) : Nat → Nat → Nat → State → Result State
  | fuel, i, r, s =>
    if r = 0 then .ok s
    else if s.cfg.rbbN ≤ s.rbb.size ∧ s.cfg.rbbN ≤ r then
      match fuel with
      | 0 => .error (.stuck .endlessLoop)
      | k + 1 =>
        drain dest k (i + s.cfg.rbbN) (r - s.cfg.rbbN)
          (storeSamples dest i (s.rbb.block s.cfg) { s with rbb := s.rbb.dropBlock s.cfg })
    else if s.rbb.size < s.cfg.rbbN ∧ s.rbb.size ≤ r then
      let pad := s.rbb.back s.cfg
      let copied := partialSamples s.cfg s.rbb ++ List.replicate (r - s.rbb.size) pad
      .ok (storeSamples dest i copied { s with rbb := { s.rbb with size := 0 } })
    else .error (.refused .requestInsideBlock)

/-- `CB.REQ len, dest` (R275): one atomic step under the mutex. -/
def execCbReq (len : BitVec 24) (dest : Word) (s : State) : Outcome :=
  runCommand s
    (match requestOperand len with
    | none => badOperand "len"
    | some r =>
      withMutex s (fun t =>
        if t.rbbConstructed then drain (destOperand dest) r 0 r t
        else .ok (silence (destOperand dest) (4 * r) t)))

end Sys2Proof.Machine
end

