-- ==== Sys2Proof/Machine/Ports.lean ====
section
/-! DEFINITION. Timer overflow, FIFO delivery, control registers and input ports (`45_fifo_timer_ports.md`). -/

namespace Sys2Proof.Machine

/-- `Refill(f)` (R252): the oldest queued word becomes the pipe's. With an empty FIFO there is none to take. -/
def refill (f : DmaCh) (d : Dma) : Dma :=
  match d.fifo.get f with
  | [] => d
  | w :: rest => { d with fifo := d.fifo.put f rest, pipe := d.pipe.put f ⟨w, 4⟩ }

/-- `Shift(f)` (R253): the least significant byte goes to the latch, the word shifts right (R73). -/
def shiftOut (f : DmaCh) (d : Dma) : Dma :=
  let p := d.pipe.get f
  { d with
    latch := d.latch.put f (p.word.setWidth 8)
    pipe := d.pipe.put f ⟨p.word >>> 8, p.count - 1⟩ }

/-- The three tests of R250 for one channel, in their order: the request on the count before any refill (R251), the refill of an
empty pipe (R252), the shift out of a pipe that holds something (R253, R254). -/
def serveChannel (f : DmaCh) (s : State) : State :=
  let requested := if (s.dma.fifo.get f).length ≤ 3 then s.emit (.dmaReq f) else s
  let refilled := if (s.dma.pipe.get f).count = 0 then refill f s.dma else s.dma
  let shifted := if 0 < (refilled.pipe.get f).count then shiftOut f refilled else refilled
  { requested with dma := shifted }

/-- Serves channel `f` if it is bound to timer `timerId` (R250). -/
def serveIfBound (timerId : Byte) (f : DmaCh) (s : State) : State :=
  if dmaTimer s.csr.sndctlH f = timerId.toNat then serveChannel f s else s

/-- `TMR.OVF timerId, times` (R250, R256): channel 0 first, then channel 1. -/
def execTmrOvf (timerId : Byte) (times : Half) (s : State) : Outcome :=
  runCommand s
    (if timesIsOne times then
      needing s.known.apu .dmaChannels
        (needing s.known.sndctlH .sndctlH
          (.ok (serveIfBound timerId .ch1 (serveIfBound timerId .ch0 s))))
    else badOperand "times")

/-- `FIFO.WR f, word` (R258): a word written to a full FIFO is dropped. -/
def execFifoWr (f : Byte) (word : Word) (s : State) : Outcome :=
  runCommand s
    (match dmaOperand f with
    | none => badOperand "f"
    | some ch =>
      needing s.known.apu .dmaChannels
        (.ok
          (if (s.dma.fifo.get ch).length < s.cfg.fifoCap then
            { s with dma := { s.dma with fifo := s.dma.fifo.put ch (s.dma.fifo.get ch ++ [word]) } }
          else s)))

/-- The effect of a write by index (R262); 7, 8 and above are refused (R38, R118). -/
def writeCsr (index : Byte) (value : Word) (s : State) : Result State :=
  if index = 0#8 then
    .ok { s with csr := { s.csr with sndctlL := value &&& wmaskL s.cfg }, known := { s.known with sndctlL := true } }
  else if index = 1#8 then
    .ok { s with csr := { s.csr with sndctlH := value &&& wmaskH }, known := { s.known with sndctlH := true } }
  else if index = 2#8 then
    .ok { s with csr := { s.csr with sndbias := value &&& lowMask s.cfg.biasW }, known := { s.known with sndbias := true } }
  else if index = 3#8 then .ok { s with csr := { s.csr with outvol := outvolOf value } }
  else if index = 4#8 then .ok { s with csr := { s.csr with interp := value &&& 0x7#32 } }
  else if index = 5#8 then .ok { s with csr := { s.csr with mixmode := value &&& 0x1#32 } }
  else if index = 6#8 then .ok { s with csr := { s.csr with tgtrate := value } }
  else badOperand "index"

/-- `CSR.WR index, value` (R262). -/
def execCsrWr (index : Byte) (value : Word) (s : State) : Outcome := runCommand s (writeCsr index value s)

/-- The value of a control register by index (R264); above 8 is refused (R38, R118). -/
def readCsr (index : Byte) (s : State) : Result Word :=
  if index = 0#8 then needing s.known.sndctlL .sndctlL (.ok s.csr.sndctlL)
  else if index = 1#8 then needing s.known.sndctlH .sndctlH (.ok s.csr.sndctlH)
  else if index = 2#8 then needing s.known.sndbias .sndbias (.ok s.csr.sndbias)
  else if index = 3#8 then .ok s.csr.outvol
  else if index = 4#8 then .ok s.csr.interp
  else if index = 5#8 then .ok s.csr.mixmode
  else if index = 6#8 then .ok s.csr.tgtrate
  else if index = 7#8 then .ok s.status
  else if index = 8#8 then .ok s.err
  else badOperand "index"

/-- `CSR.RD index` (R264). `CSR.RD 7` and `CSR.RD 8` are the two commands a fault leaves defined (R291). -/
def execCsrRd (index : Byte) (s : State) : Outcome :=
  if s.faulted = true ∧ index ≠ 7#8 ∧ index ≠ 8#8 then .fault .halted
  else
    match readCsr index s with
    | .ok v => .next (s.result (.word v)).retire
    | .error e => e.outcome s

/-- `PSG.SET c, value` (R266). -/
def execPsgSet (c : Byte) (value : Word) (s : State) : Outcome :=
  runCommand s
    (match psgOperand c with
    | none => badOperand "c"
    | some ch =>
      match psgValueOperand s.cfg value with
      | none => badOperand "value"
      | some v =>
        .ok { s with
          ports := { s.ports with psgIn := s.ports.psgIn.put ch v }
          known := { s.known with psgIn := s.known.psgIn.put ch true } })

/-- `DEV.SET ok, rate` (R268). -/
def execDevSet (ok : Byte) (rate : Word) (s : State) : Outcome :=
  runCommand s
    (match okOperand ok with
    | none => badOperand "ok"
    | some b =>
      .ok { s with ports := { s.ports with devOk := b, devRate := rate }, known := { s.known with dev := true } })

end Sys2Proof.Machine
end

