-- ==== Sys2Proof/Machine/RingBlockBuffer.lean ====
section
/-! DEFINITION. The `RBB.*` commands (`42_ringblockbuffer.md`). All but `RBB.CPB` take the mutex and require a constructed buffer
(R165). -/

namespace Sys2Proof.Machine

/-- `RBB.PUSH x` (R167). -/
def execRbbPush (l r : Half) (s : State) : Outcome := runCommand s (rbbPush ⟨l, r⟩ s)

/-- `RBB.POPB` (R169). -/
def execRbbPopb (s : State) : Outcome :=
  runCommand s
    (withBuffer s (fun t =>
      if t.rbb.size < t.cfg.rbbN then .error (.violation .rbbUnderflow)
      else
        .ok (({ t with rbb := t.rbb.dropBlock t.cfg } : State).result (.samples16 (t.rbb.block t.cfg)))))

/-- `RBB.DATA` (R170): the slot index of the current block's base (R107). -/
def execRbbData (s : State) : Outcome :=
  runCommand s (withBuffer s (fun t => .ok (t.result (.number (t.rbb.base t.cfg)))))

/-- `RBB.BACK` (R171). -/
def execRbbBack (s : State) : Outcome :=
  runCommand s (withBuffer s (fun t => .ok (t.result (.sample16 (t.rbb.back t.cfg)))))

/-- `RBB.SIZE` (R172). -/
def execRbbSize (s : State) : Outcome :=
  runCommand s (withBuffer s (fun t => .ok (t.result (.number t.rbb.size))))

/-- `RBB.CPB` (R173): reads no state, takes no lock and raises no fault. -/
def execRbbCpb (s : State) : Outcome := runCommand s (.ok (s.result (.number s.cfg.rbbN)))

end Sys2Proof.Machine
end

