-- ==== Sys2Proof/Machine/RingBuffer.lean ====
section
/-! DEFINITION. The `RB.*` commands on `RS_RING` (`41_ringbuffer.md`). The ring has no value before `RB.RESET` or `APU.RESET` (R62);
`RB.RESET` gives it one. -/

namespace Sys2Proof.Machine

/-- `RB.PUSH x` (R152): never faults, full or not. -/
def execRbPush (l r : Half) (s : State) : Outcome :=
  runCommand s
    (needing s.known.ring .rsRing (.ok { s with ring := s.ring.push s.cfg.rbN (sampleOperand l r) }))

/-- `RB.POP` (R153). -/
def execRbPop (s : State) : Outcome :=
  runCommand s
    (needing s.known.ring .rsRing
      (match s.ring.pop s.cfg.rbN with
      | .error e => .error e
      | .ok (v, popped) => .ok (({ s with ring := popped } : State).result (.sample v))))

/-- `RB.PEEK offset` (R154). -/
def execRbPeek (offset : Half) (s : State) : Outcome :=
  runCommand s
    (needing s.known.ring .rsRing
      (match s.ring.peek s.cfg.rbN offset.toNat with
      | .error e => .error e
      | .ok v => .ok (s.result (.sample v))))

/-- `RB.AVAIL` (R155). -/
def execRbAvail (s : State) : Outcome :=
  runCommand s (needing s.known.ring .rsRing (.ok (s.result (.number s.ring.available))))

/-- `RB.RESET` (R156): reads nothing, and gives the ring a value (R62, V21). -/
def execRbReset (s : State) : Outcome :=
  runCommand s
    (.ok { s with ring := Ring.cleared s.cfg.rbN, known := { s.known with ring := true } })

end Sys2Proof.Machine
end

