-- ==== Sys2Proof/Machine/Scheduler.lean ====
section
/-! DEFINITION. The scheduler's commands (`40_scheduler.md`): `SCH.ADD`, `SCH.ADV`, `SCH.NOW`. -/

namespace Sys2Proof.Machine

/-- The delay `SCH.ADD` arms with (R132): a negative one is fatal in a `DEBUG` build and clamped to 0 in a `RELEASE` build. -/
def addDelay (b : Build) (delta : Int) : Result Nat :=
  if delta < 0 then
    match b with
    | .debug => .error (.violation .negDelay)
    | .release => .ok 0
  else .ok delta.toNat

/-- `SCH.ADD class, delta` (R132). -/
def execSchAdd (cls : Byte) (delta : Word) (s : State) : Outcome :=
  runCommand s
    (match classOperand cls with
    | none => badOperand "class"
    | some k =>
      match addDelay s.cfg.build (deltaOperand delta) with
      | .error e => .error e
      | .ok n => arm n k s)

/-- `Dispatch(class)` (R135): class `0x00` runs `StepMixer`, class `0x01` runs `StepSequencer` (R131). -/
def handler : EvClass → State → Result State
  | .mixer => stepMixer
  | .sequencer => stepSequencer

/-- The state with the queue replaced: `evq <- evq - {e}` (R134). -/
def State.withQueue (q : List Event) (s : State) : State := { s with sched := { s.sched with evq := q } }

/-- The loop of R134. The least due event is removed and its handler runs, until no event is due; a handler that faults ends
`SCH.ADV` there, with the event removed and the effects of the handlers before it standing (R134, R291, R292). The first argument
bounds the turns. -/
def runDue : Nat → State → Outcome
  | fuel, s =>
    match dueEvent s.sched.evq s.sched.now with
    | none => .next s.retire
    | some (e, rest) =>
      match fuel with
      | 0 => .fault .endlessLoop
      | k + 1 =>
        match handler e.cls (s.withQueue rest) with
        | .ok t => runDue k t
        | .error stop => stop.outcome (s.withQueue rest)

/-- A number of turns the loop of R134 cannot exceed: each turn takes a pending event away or is a late mixer step, and a mixer
step is late only while `mix_n × CPS` is not past `now`. -/
def dueBound (s : State) : Nat := s.sched.evq.length + (s.sched.now + 1) * s.cfg.cpsDen

/-- `SCH.ADV n` (R134): refused when `now` would reach `2^TS_W`. -/
def execSchAdv (n : Word) (s : State) : Outcome :=
  if s.faulted then .fault .halted
  else if s.sched.now + n.toNat < 2 ^ s.cfg.tsW then
    let t := { s with sched := { s.sched with now := s.sched.now + n.toNat } }
    runDue (dueBound t) t
  else .refused .timestampOverflow

/-- `SCH.NOW` (R133). -/
def execSchNow (s : State) : Outcome := runCommand s (.ok (s.result (.number s.sched.now)))

end Sys2Proof.Machine
end

