-- ==== Sys2Proof/Machine/Dispatch.lean ====
section
/-! DEFINITION. The dispatch of an instruction to its meaning: one arm a constructor. -/

namespace Sys2Proof.Machine

def exec (i : Instr) (s : State) : Host.Outcome State Fault Refusal :=
  match i with
  | .schAdd cls delta => Sys2Proof.Machine.execSchAdd cls delta s
  | .schAdv n => Sys2Proof.Machine.execSchAdv n s
  | .schNow => Sys2Proof.Machine.execSchNow s
  | .rbPush l r => Sys2Proof.Machine.execRbPush l r s
  | .rbPop => Sys2Proof.Machine.execRbPop s
  | .rbPeek offset => Sys2Proof.Machine.execRbPeek offset s
  | .rbAvail => Sys2Proof.Machine.execRbAvail s
  | .rbReset => Sys2Proof.Machine.execRbReset s
  | .rbbPush l r => Sys2Proof.Machine.execRbbPush l r s
  | .rbbPopb => Sys2Proof.Machine.execRbbPopb s
  | .rbbData => Sys2Proof.Machine.execRbbData s
  | .rbbBack => Sys2Proof.Machine.execRbbBack s
  | .rbbSize => Sys2Proof.Machine.execRbbSize s
  | .rbbCpb => Sys2Proof.Machine.execRbbCpb s
  | .rsRate src dst => Sys2Proof.Machine.execRsRate src dst s
  | .rsWrite l r => Sys2Proof.Machine.execRsWrite l r s
  | .apuReset => Sys2Proof.Machine.execApuReset s
  | .apuOff => Sys2Proof.Machine.execApuOff s
  | .tmrOvf timerId times => Sys2Proof.Machine.execTmrOvf timerId times s
  | .fifoWr f word => Sys2Proof.Machine.execFifoWr f word s
  | .csrWr index value => Sys2Proof.Machine.execCsrWr index value s
  | .csrRd index => Sys2Proof.Machine.execCsrRd index s
  | .psgSet c value => Sys2Proof.Machine.execPsgSet c value s
  | .devSet ok rate => Sys2Proof.Machine.execDevSet ok rate s
  | .cbReq len dest => Sys2Proof.Machine.execCbReq len dest s
  | .evMixer => Sys2Proof.Machine.execEvMixer s
  | .evSeq => Sys2Proof.Machine.execEvSeq s

end Sys2Proof.Machine
end

