-- ==== Sys2Proof/Machine/Step.lean ====
section
/-! DEFINITION. One step of the block, and the placing of an instruction where the next step takes it. -/

namespace Sys2Proof.Machine

/-- One atomic step (R22, R100): the next instruction is taken (`nextInstr`) and run. -/
def step (s : State) : Host.Outcome State Fault Refusal :=
  match nextInstr s with
  | .error r => .refused r
  | .ok (i, t) => exec i t

/-- The state whose next step runs the instruction of a table row with bits `w`: a command word is given on its port as the command
at `pc`, and a class code is selected for dispatch (log entry 5). -/
def State.withFetchWord (s : State) (nbits w : Nat) : State :=
  match tableCode nbits w with
  | .command word => { placeCommand s ⟨portOfWord word, word⟩ with dispatch := none }
  | .event c => { s with dispatch := some c }

end Sys2Proof.Machine
end

