-- ==== Sys2Proof/Safety.lean ====
section
/-! DEFINITION. What counts as a safe state and a safe run, in the terms the claims use: the invariant of the block, the contents of
its two buffers as the rules speak of them, the driving loop of R134 without a bound on its turns, and when a program has ended well. -/

namespace Sys2Proof.Machine

/-- The unread values of the ring, oldest first (R150, R154: `Peek(0)` is the oldest, `Peek(Available()-1)` the newest). -/
def Ring.unread (n : Nat) (r : Ring) : List (Stereo Rat) :=
  (List.range r.available).map (fun k => r.slot n (r.head + k))

/-- The ring has its `n` slots and its cursors are in order (R150). -/
structure Ring.Ok (n : Nat) (r : Ring) : Prop where
  slots : r.data.length = n
  cursors : r.head ≤ r.tail

/-- The queued samples of the block buffer, oldest first: the `j`-th is `data[(base + j) mod CAP]` (R166). -/
def BlockBuffer.queued (c : Cfg) (b : BlockBuffer) : List (Stereo Half) :=
  (List.range b.size).map (fun j => b.slot ((b.base c + j) % bufCap c))

/-- The ranges of R46 and R166. -/
structure BlockBuffer.Ok (c : Cfg) (b : BlockBuffer) : Prop where
  slots : b.data.length = bufCap c
  block : b.currentBlock < c.rbbB
  size : b.size < bufCap c

/-- The sample a host finds at byte address `a`, if the block has written its four bytes (R74). -/
def sampleAt (m : Memory) (a : Nat) : Option (Stereo Half) :=
  match Memory.readLE m a 2, Memory.readLE m (a + 2) 2 with
  | some l, some r => some ⟨BitVec.ofNat 16 l, BitVec.ofNat 16 r⟩
  | _, _ => none

/-- The invariant of the block: the ranges `10_state.md` gives its elements, the canonical forms of the queue and of memory, and what
holds between the flags. Every step keeps it. -/
structure Inv (s : State) : Prop where
  /-- The parameters meet R6. -/
  cfg_wf : s.cfg.wf = true
  /-- Host memory is in canonical form. -/
  mem_wf : Memory.wf s.mem
  /-- The queue is in the order of R137. -/
  queue_sorted : s.sched.evq.Pairwise (fun x y => x.before y = true)
  /-- Every insertion number is below `seq_ctr` (R25). -/
  queue_seq : ∀ e ∈ s.sched.evq, e.seq < s.sched.seqCtr
  /-- Every target is a `TS_W`-bit number (R24, R139). -/
  queue_target : ∀ e ∈ s.sched.evq, e.target < 2 ^ s.cfg.tsW
  /-- `now` is a `TS_W`-bit number (R23). -/
  now_range : s.sched.now < 2 ^ s.cfg.tsW
  /-- A FIFO holds at most `FIFO_CAP` words (R40). -/
  fifo_range : ∀ f, (s.dma.fifo.get f).length ≤ s.cfg.fifoCap
  /-- "remaining count is always 0-4" (R41, R255). -/
  pipe_range : ∀ f, (s.dma.pipe.get f).count ≤ 4
  /-- The reserved bits of the control registers read as zero (R38). -/
  sndctlL_reserved : s.csr.sndctlL &&& wmaskL s.cfg = s.csr.sndctlL
  sndctlH_reserved : s.csr.sndctlH &&& wmaskH = s.csr.sndctlH
  sndbias_range : s.csr.sndbias.toNat < 2 ^ s.cfg.biasW
  outvol_range : s.csr.outvol.toNat ≤ 100
  interp_range : s.csr.interp.toNat < 8
  mixmode_range : s.csr.mixmode.toNat < 2
  /-- A PSG port holds a number of `PSG_W` signed bits (R34). -/
  psg_range : ∀ c, fitsSigned s.cfg.psgW (s.ports.psgIn.get c) = true
  /-- `rs_shift` is positive and `rs_phase` is not negative (R44). -/
  shift_pos : 0 < s.rs.shift
  phase_nonneg : 0 ≤ s.rs.phase
  /-- The tap ring has `RB_N` slots and ordered cursors (R150). -/
  ring_ok : s.ring.Ok s.cfg.rbN
  /-- A constructed buffer is within the ranges of R46. -/
  rbb_ok : s.rbbConstructed = true → s.rbb.Ok s.cfg
  /-- The buffer exists only after an `APU.RESET` (R47). -/
  rbb_known : s.rbbConstructed = true → s.known.apu = true
  /-- `APU.RESET` gives every register of R62 a value. -/
  apu_known : s.known.apu = true →
    s.known.sndctlL = true ∧ s.known.sndctlH = true ∧ s.known.sndbias = true ∧ s.known.ring = true
  /-- The mutex is 0 between steps (R48, R84). -/
  mutex_free : s.mutex = false
  /-- `ERR_CODE` is 0 or a code of R290, and the faulted mark stands exactly when a code does (R291). -/
  err_range : s.errCode.toNat ≤ 5
  err_fault : s.faulted = true ↔ s.errCode ≠ 0
  /-- A device that failed to open is not open (R217). -/
  device : ¬(s.devOpen = true ∧ s.devFail = true)
  /-- No handler is left selected between steps. -/
  no_dispatch : s.dispatch = none

/-- The driving loop of R134 as the spec writes it, `while some e in evq has e.target <= now`, with no bound on its turns:
`AdvanceRuns s o` says that the loop begun in `s` ends with outcome `o`. -/
inductive AdvanceRuns : State → Outcome → Prop where
  /-- No event is due: the loop ends and `pc` advances. -/
  | done (s : State) (idle : ∀ e ∈ s.sched.evq, s.sched.now < e.target) : AdvanceRuns s (.next s.retire)
  /-- The least due event `e` is removed and its handler completes; the loop goes on. -/
  | turn (s t : State) (o : Outcome) (e : Event) (rest : List Event)
      (queue : s.sched.evq = e :: rest) (least : ∀ x ∈ rest, e.before x = true) (due : e.target ≤ s.sched.now)
      (runs : handler e.cls (s.withQueue rest) = .ok t) (goes : AdvanceRuns t o) : AdvanceRuns s o
  /-- The least due event `e` is removed and its handler stops; `SCH.ADV` ends there. -/
  | stop (s : State) (why : Stop) (e : Event) (rest : List Event)
      (queue : s.sched.evq = e :: rest) (least : ∀ x ∈ rest, e.before x = true) (due : e.target ≤ s.sched.now)
      (stops : handler e.cls (s.withQueue rest) = .error why) : AdvanceRuns s (why.outcome (s.withQueue rest))

/-- The three conditions of R306. -/
inductive Condition where
  | powerOn
  | running
  | tornDown
  deriving DecidableEq, Repr

/-- Which of them a state is in: "power-on (before the first `APU.RESET`), running, and torn down (after `APU.OFF`)". DESIGN CHOICE (log entry 21): a
state after an `APU.OFF` that no `APU.RESET` came before fits the first and the third, and is counted as power-on. -/
def State.condition (s : State) : Condition :=
  if s.rbbConstructed then .running else if s.known.apu then .tornDown else .powerOn

/-- A program has ended well: the command index has reached its length (R22) and the state is not faulted ("never counts a faulted
state as a final one", R291). -/
def State.final (s : State) : Bool := !s.faulted && decide (s.pc = s.program.length)

end Sys2Proof.Machine
end

