-- ==== Sys2Proof/Certificates/Slice0/Obligations.lean ====
section
/-! DEFINITION. The statements for the provers. Each says which rule of the spec it formalises; a statement speaks of every state, so
of every parameter set (log entry 1), and none rests on a value of a free constant of `Config` (log entry 2) or on the values log entry 3
names for elements without a power-on value. -/

open Sys2Proof Sys2Proof.Machine

/-! ### Power-on, the step, encodings -/

/-- The power-on state meets the invariant (derived: `10_state.md` R62, column "power-on"; the values of elements without one are
log entry 3's). -/
def Obligations.ResetMeetsInvariant : Prop := Inv State.reset

/-- What R62's column "power-on" gives a value, and that it gives the rest none (derived: R62, R306). -/
def Obligations.PowerOnState : Prop :=
  State.reset.sched = { now := 0, evq := [], seqCtr := 0 } ∧
  State.reset.csr.outvol = 100#32 ∧ State.reset.csr.interp = 1#32 ∧ State.reset.csr.mixmode = 0#32 ∧
  State.reset.csr.tgtrate = 0#32 ∧
  State.reset.rbbConstructed = false ∧ State.reset.mutex = false ∧ State.reset.devOpen = false ∧
  State.reset.cfgErr = false ∧ State.reset.devFail = false ∧ State.reset.errCode = 0#8 ∧
  State.reset.rbbOverflow = false ∧ State.reset.condition = .powerOn ∧
  State.reset.known =
    { sndctlL := false, sndctlH := false, sndbias := false, psgIn := ⟨false, false, false, false⟩, dev := false,
      apu := false, ring := false }

/-- A step runs the decoded instruction. With no handler selected it is the command at index `pc`, if its word decodes and it is on its own
port, and a program whose `pc` equals its length has ended (R22, R100, R101). A class code the scheduler has selected runs its handler, in the
state without the selection (R105, R135). Derived: log entry 5 says how the model holds the program and the selection. -/
def Obligations.StepRunsDecodedInstruction : Prop :=
  ∀ (s : State),
    (∀ (c : Command) (i : Instr), s.dispatch = none → s.program[s.pc]? = some c → decode (.command c.word) = .ok i →
      i.port = c.port → step s = exec i s) ∧
    (s.dispatch = none → s.pc = s.program.length → step s = .refused .programEnded) ∧
    (s.dispatch = some 0x00#8 → step s = exec .evMixer { s with dispatch := none }) ∧
    (s.dispatch = some 0x01#8 → step s = exec .evSeq { s with dispatch := none }) ∧
    (∀ c, s.dispatch = some c → c ≠ 0x00#8 → c ≠ 0x01#8 → step s = .refused (.badEncoding .reservedClass))

/-- The worked encodings, in both directions (derived: R121, which the spec derives from R102, R104, R106). -/
def Obligations.WorkedEncodings : Prop :=
  ∀ p ∈ ([ (.schAdd 0 10, 0x010000000000000A#64), (.schAdv 512, 0x0200000000000200#64),
           (.rbbPush 3 3, 0x2000000000030003#64), (.rbbPush (-1) 2, 0x200000000002FFFF#64),
           (.csrWr 1 0x0302, 0x4A01000000000302#64), (.tmrOvf 0 1, 0x4800000100000000#64),
           (.rsRate 32768 48000, 0x300080000000BB80#64), (.cbReq 32 0x1000, 0x5000002000001000#64),
           (.apuReset, 0x4000000000000000#64) ] : List (Instr × CommandWord)),
    decode (.command p.2) = .ok p.1 ∧ encode p.1 = .command p.2

/-- R115, R116: a word whose opcode is reserved, a word with a field its format does not use that is not zero, and a command on the wrong
port are each refused by the step. -/
def Obligations.MeaninglessWordsRefused : Prop :=
  ∀ (s : State) (c : Command), s.dispatch = none → s.program[s.pc]? = some c →
    (opField c.word ∉ [0x01#8, 0x02#8, 0x03#8, 0x10#8, 0x11#8, 0x12#8, 0x13#8, 0x14#8, 0x20#8, 0x21#8, 0x22#8, 0x23#8, 0x24#8,
        0x25#8, 0x30#8, 0x31#8, 0x40#8, 0x41#8, 0x48#8, 0x49#8, 0x4A#8, 0x4B#8, 0x4C#8, 0x4D#8, 0x50#8] →
      step s = .refused (.badEncoding .reservedOpcode)) ∧
    (∀ r ∈ opRows, opField c.word = r.op → c.word &&& r.format.mask ≠ r.op.setWidth 64 <<< 56 →
      step s = .refused (.badEncoding .unusedField)) ∧
    (∀ i, decode (.command c.word) = .ok i → c.port ≠ (if opField c.word = 0x50#8 then .h else .e) →
      step s = .refused .wrongPort)

/-- R118: a command whose operand is out of the range of R106 is refused, whatever the state of a block that is not halted. -/
def Obligations.OutOfRangeOperandsRefused : Prop :=
  ∀ (s : State) (i : Instr), s.faulted = false → i.wf s.cfg = false → ∃ operand, exec i s = .refused (.operandRange operand)

/-- A word decodes to an instruction exactly when `w AND mask = match` for the row's mask and `match = op << 56`, with the instruction's operands
taken from the fields (derived: R102 to R104, R106). -/
def Obligations.CommandOfRowByMask : Prop :=
  ∀ (w : CommandWord) (i : Instr),
    decode (.command w) = .ok i ↔
      ∃ r ∈ opRows, w &&& r.format.mask = r.op.setWidth 64 <<< 56 ∧ r.build (aField w) (bField w) (dField w) = i

/-- Decoding an instruction's encoding gives the instruction back, every operand at every value (derived: `30_encoding.md`). -/
def Obligations.DecodeOfEncode : Prop := ∀ i : Instr, decode (encode i) = .ok i

/-- Every code with a meaning is the encoding of that meaning: each word has one meaning and no bit of it is dropped (derived:
`30_encoding.md`). -/
def Obligations.EncodeOfDecode : Prop := ∀ (c : Code) (i : Instr), decode c = .ok i → encode i = c

/-! ### The scheduler -/

/-- R133: `SCH.NOW` returns `now` and changes nothing else but `pc`. -/
def Obligations.SchNowReturnsNow : Prop :=
  encode .schNow = .command 0x0300000000000000#64 ∧
  ∀ s : State, s.faulted = false →
    exec .schNow s = .next { s with out := s.out ++ [.result (.number s.sched.now)], pc := s.pc + 1 }

/-- R132: `SCH.ADD` arms one event `delta` cycles after `now`, a negative delay being a fault in a `DEBUG` build and 0 in a
`RELEASE` build; a target that would reach `2^TS_W` is refused; nothing else changes. -/
def Obligations.SchAddArmsOneEvent : Prop :=
  ∀ (s : State) (cls : Byte) (k : EvClass) (delta : Word), s.faulted = false →
    (cls = 0x00#8 ∧ k = .mixer ∨ cls = 0x01#8 ∧ k = .sequencer) →
    encode (.schAdd cls delta) = .command (packWord 0x01#8 cls 0 delta) ∧
    (delta.toInt < 0 ∧ s.cfg.build = .debug →
      exec (.schAdd cls delta) s =
        .next { s with errCode := if s.errCode = 0 then 5#8 else s.errCode, faulted := true }) ∧
    (0 ≤ delta.toInt ∨ s.cfg.build = .release →
      (s.sched.now + delta.toInt.toNat < 2 ^ s.cfg.tsW →
        ∃ q, q.Perm ({ target := s.sched.now + delta.toInt.toNat, cls := k, seq := s.sched.seqCtr } :: s.sched.evq) ∧
          exec (.schAdd cls delta) s =
            .next { s with sched := { now := s.sched.now, evq := q, seqCtr := s.sched.seqCtr + 1 }, pc := s.pc + 1 }) ∧
      (2 ^ s.cfg.tsW ≤ s.sched.now + delta.toInt.toNat →
        exec (.schAdd cls delta) s = .refused .timestampOverflow))

/-- `SCH.ADV n` advances `now` and is then the driving loop as the spec writes it, the least due event first, until no event is
due: the loop ends in every state that meets the invariant, and a handler's fault ends it with the event removed; a handler's refusal refuses the
whole command, which is log entry 13 (derived: R134, R135, R137). -/
def Obligations.SchAdvIsTheDrivingLoop : Prop :=
  ∀ (s : State) (n : Word), Inv s → s.faulted = false →
    (s.sched.now + n.toNat < 2 ^ s.cfg.tsW →
      AdvanceRuns { s with sched := { s.sched with now := s.sched.now + n.toNat } } (exec (.schAdv n) s)) ∧
    (2 ^ s.cfg.tsW ≤ s.sched.now + n.toNat → exec (.schAdv n) s = .refused .timestampOverflow)

/-- After an `SCH.ADV` that does not fault, `now` has advanced by `n` and no pending event is due; no event runs early, one whose target is
after the new `now` being still pending; with no event due the command completes with nothing else changed but `pc`; and whatever handlers it
runs, it leaves the registers, the ports, the DMA channels, host memory and the flags alone (derived: R134, R136, R222, R225). -/
def Obligations.SchAdvLeavesNothingDue : Prop :=
  (∀ (s t : State) (n : Word), Inv s → exec (.schAdv n) s = .next t → t.faulted = false →
    t.sched.now = s.sched.now + n.toNat ∧
    (∀ e ∈ t.sched.evq, t.sched.now < e.target) ∧
    (∀ e ∈ s.sched.evq, s.sched.now + n.toNat < e.target → e ∈ t.sched.evq)) ∧
  (∀ (s : State) (n : Word), s.faulted = false → s.sched.now + n.toNat < 2 ^ s.cfg.tsW →
    (∀ e ∈ s.sched.evq, s.sched.now + n.toNat < e.target) →
    exec (.schAdv n) s = .next { s with sched := { s.sched with now := s.sched.now + n.toNat }, pc := s.pc + 1 }) ∧
  (∀ (s t : State) (n : Word), exec (.schAdv n) s = .next t →
    t.csr = s.csr ∧ t.ports = s.ports ∧ t.dma = s.dma ∧ t.mem = s.mem ∧ t.known = s.known ∧ t.rs.variant = s.rs.variant ∧
    t.rs.shift = s.rs.shift ∧ t.mix.epoch = s.mix.epoch ∧ t.rbbConstructed = s.rbbConstructed ∧ t.mutex = s.mutex ∧
    t.devOpen = s.devOpen ∧ t.cfgErr = s.cfgErr ∧ t.devFail = s.devFail)

/-- `SCH.ADV n` on a running block completes without a fault, however many handlers it runs: the buffer exists, the PSG ports are driven,
the mixer is not routed through the resampler, and no target that could be armed reaches `2^TS_W` (derived: R134, R225, R236, R237). -/
def Obligations.SchAdvCompletesWhenRunning : Prop :=
  ∀ (s : State) (n : Word), Inv s → s.faulted = false → s.rbbConstructed = true → s.cfg.rsPath = .bypass →
    (∀ c, s.known.psgIn.get c = true) →
    s.sched.now + n.toNat + s.cfg.seqCycles < 2 ^ s.cfg.tsW →
    mixTarget s.cfg s.mix.epoch (s.mix.n + s.sched.evq.length + (s.sched.now + n.toNat + 1) * s.cfg.cpsDen) < 2 ^ s.cfg.tsW →
    ∃ t, exec (.schAdv n) s = .next t ∧ t.faulted = false ∧ t.pc = s.pc + 1 ∧ t.sched.now = s.sched.now + n.toNat

/-! ### The handlers -/

/-- R222: `StepSequencer` emits the four ticks, channel 0 first, and arms the next sequencer event `SEQ_CYCLES` after `now`; nothing else
changes. -/
def Obligations.SequencerTicksAndRearms : Prop :=
  ∀ s : State, s.faulted = false → s.sched.now + s.cfg.seqCycles < 2 ^ s.cfg.tsW →
    ∃ q, q.Perm ({ target := s.sched.now + s.cfg.seqCycles, cls := .sequencer, seq := s.sched.seqCtr } :: s.sched.evq) ∧
      exec .evSeq s =
        .next { s with
          out := s.out ++ [.psgTick .ch0, .psgTick .ch1, .psgTick .ch2, .psgTick .ch3]
          sched := { now := s.sched.now, evq := q, seqCtr := s.sched.seqCtr + 1 } }

/-- `StepMixer` with `RS_PATH = BYPASS` completes: it pushes the one sample the output stage makes of the normalised mix, counts the step,
and arms the next mixer event at `mix_epoch + round_half_up(mix_n × CPS)`, or at `now` if that is past; nothing else changes
(derived: R225, R231, R234, R236; the arithmetic is `MixerFixedPath` and `OutputStageArithmetic`). -/
def Obligations.MixerPushesOneSample : Prop :=
  ∀ s : State, s.faulted = false → s.rbbConstructed = true → s.mutex = false → s.cfg.rsPath = .bypass →
    s.known.sndctlL = true → s.known.sndctlH = true → s.known.sndbias = true → s.known.apu = true →
    (∀ c, psgQueried s.csr.sndctlL c = true → s.known.psgIn.get c = true) →
    max s.sched.now (s.mix.epoch + (2 * ((s.mix.n + 1) * s.cfg.cpsNum) + s.cfg.cpsDen) / (2 * s.cfg.cpsDen)) < 2 ^ s.cfg.tsW →
    ∃ q, q.Perm
        ({ target := max s.sched.now
              (s.mix.epoch + (2 * ((s.mix.n + 1) * s.cfg.cpsNum) + s.cfg.cpsDen) / (2 * s.cfg.cpsDen)),
           cls := .mixer, seq := s.sched.seqCtr } :: s.sched.evq) ∧
      exec .evMixer s =
        .next { s with
          rbb :=
            { data := s.rbb.data.set ((s.rbb.currentBlock * s.cfg.rbbN + s.rbb.size) % (s.cfg.rbbN * s.cfg.rbbB))
                ⟨toS16 s.cfg (outVolume s.csr.outvol) (mixNorm s).l, toS16 s.cfg (outVolume s.csr.outvol) (mixNorm s).r⟩,
              currentBlock := s.rbb.currentBlock,
              size := (s.rbb.size + 1) % (s.cfg.rbbN * s.cfg.rbbB) }
          rbbOverflow := s.rbbOverflow || decide (s.cfg.rbbN * s.cfg.rbbB ≤ s.rbb.size + 1)
          mix := { epoch := s.mix.epoch, n := s.mix.n + 1 }
          sched := { now := s.sched.now, evq := q, seqCtr := s.sched.seqCtr + 1 } }

/-- `StepMixer` with `RS_PATH = INLINE`: the normalised mix goes into the resampler as R190 says. If an output is due and the window is short the
step raises `RB_RANGE` and changes nothing else (log entry 18). Otherwise it completes: each output goes through the output stage and is
pushed, however full the buffer is, with the ghost flag as R168 says; the step is counted and re-armed; nothing else changes. With room left
the ghost flag stays and the queue gains exactly those samples (derived: R168, R190, R193, R225, R231, R236). -/
def Obligations.InlineMixerPushesResampledSamples : Prop :=
  ∀ s : State, Inv s → s.faulted = false → s.rbbConstructed = true → s.cfg.rsPath = .inline →
    (∀ c, psgQueried s.csr.sndctlL c = true → s.known.psgIn.get c = true) →
    (s.ring.available + 1 < taps s.rs.variant → s.rs.phase < 1 →
      exec .evMixer s = .next { s with errCode := if s.errCode = 0 then 2#8 else s.errCode, faulted := true }) ∧
    (taps s.rs.variant ≤ s.ring.available + 1 ∨ 1 ≤ s.rs.phase →
      max s.sched.now (mixTarget s.cfg s.mix.epoch (s.mix.n + 1)) < 2 ^ s.cfg.tsW →
      ∃ (count : Nat) (q : List Event),
        let filled : Ring :=
          { data := s.ring.data.set (s.ring.tail % s.cfg.rbN) (mixNorm s), head := s.ring.head, tail := s.ring.tail + 1 }
        let h := (filled.unread s.cfg.rbN).take (taps s.rs.variant)
        let xs : List (Stereo Half) := (List.range count).map (fun (k : Nat) =>
          let y := interpolate (kernel s.cfg.kernel s.rs.variant s.rs.shift (s.rs.phase + (k : Rat) * s.rs.shift)) h
          ⟨toS16 s.cfg (outVolume s.csr.outvol) y.l, toS16 s.cfg (outVolume s.csr.outvol) y.r⟩)
        let pushed : BlockBuffer × Bool := xs.foldl
          (fun p x => (p.1.push s.cfg x, p.2 || decide (s.cfg.rbbN * s.cfg.rbbB ≤ p.1.size + 1))) (s.rbb, s.rbbOverflow)
        (∀ k : Nat, k < count ↔ s.rs.phase + (k : Rat) * s.rs.shift < 1) ∧
        exec .evMixer s =
          .next { s with
            rs := { s.rs with phase := s.rs.phase + (count : Rat) * s.rs.shift - 1 }
            ring := { filled with head := s.ring.head + 1 }
            rbb := pushed.1
            rbbOverflow := pushed.2
            mix := { epoch := s.mix.epoch, n := s.mix.n + 1 }
            sched := { now := s.sched.now, evq := q, seqCtr := s.sched.seqCtr + 1 } } ∧
        (s.rbb.size + count < s.cfg.rbbN * s.cfg.rbbB →
          pushed.2 = s.rbbOverflow ∧ pushed.1.queued s.cfg = s.rbb.queued s.cfg ++ xs) ∧
        q.Perm
          ({ target := max s.sched.now (mixTarget s.cfg s.mix.epoch (s.mix.n + 1)), cls := .mixer, seq := s.sched.seqCtr } ::
            s.sched.evq))

/-- Without a buffer `StepMixer` raises `RBB_ABSENT` before any other effect; and with one, an enabled channel whose port has no
value makes the step refused (derived: R225). -/
def Obligations.MixerNeedsBufferAndPorts : Prop :=
  ∀ s : State, s.faulted = false →
    (s.rbbConstructed = false →
      exec .evMixer s = .next { s with errCode := if s.errCode = 0 then 3#8 else s.errCode, faulted := true }) ∧
    (Inv s → s.rbbConstructed = true → (∃ c, psgQueried s.csr.sndctlL c = true ∧ s.known.psgIn.get c = false) →
      ∃ c, s.known.psgIn.get c = false ∧ exec .evMixer s = .refused (.noValue (.psgIn c)))

/-- The fixed-point path on each side, from the fields of R27 to R29 (derived: R227 with `FLOAT = 0`, R228, R229). -/
def Obligations.MixerFixedPath : Prop :=
  ∀ (s : State), s.csr.mixmode.getLsbD 0 = false →
    let p := s.ports.psgIn
    let g : Int :=
      if s.csr.sndctlH.getLsbD 1 then
        (if s.csr.sndctlH.getLsbD 0 then s.cfg.psgVolTab.c3 else s.cfg.psgVolTab.c2)
      else (if s.csr.sndctlH.getLsbD 0 then s.cfg.psgVolTab.c1 else s.cfg.psgVolTab.c0)
    let v : Bool → Int := fun b => if b then s.cfg.dmaVolTab.c1 else s.cfg.dmaVolTab.c0
    let d0 : Int := s.dma.latch.c0.toInt * v (s.csr.sndctlH.getLsbD 2)
    let d1 : Int := s.dma.latch.c1.toInt * v (s.csr.sndctlH.getLsbD 3)
    let pick : Nat → Int → Int := fun k x => if s.csr.sndctlL.getLsbD k then x else 0
    let mixed : Int → Int → Int → Rat := fun sum m dma =>
      let acc := (sum * g * m).tdiv s.cfg.psgDiv + dma + ((s.csr.sndbias.toNat % 2 ^ s.cfg.biasW : Nat) : Int)
      let sat := if acc < s.cfg.satMin then s.cfg.satMin else if s.cfg.satMax < acc then s.cfg.satMax else acc
      ((sat : Rat) - (s.cfg.normOffset : Rat)) / (s.cfg.normScale : Rat)
    (mixNorm s).l =
      mixed (pick 12 p.c0 + pick 13 p.c1 + pick 14 p.c2 + pick 15 p.c3)
        (s.cfg.masterNum.getD (s.csr.sndctlL.toNat / 16 % 2 ^ s.cfg.masterW) 0)
        ((if s.csr.sndctlH.getLsbD 9 then d0 else 0) + (if s.csr.sndctlH.getLsbD 13 then d1 else 0)) ∧
    (mixNorm s).r =
      mixed (pick 8 p.c0 + pick 9 p.c1 + pick 10 p.c2 + pick 11 p.c3)
        (s.cfg.masterNum.getD (s.csr.sndctlL.toNat % 2 ^ s.cfg.masterW) 0)
        ((if s.csr.sndctlH.getLsbD 8 then d0 else 0) + (if s.csr.sndctlH.getLsbD 12 then d1 else 0))

/-- The floating path on each side, `MIXMODE.FLOAT = 1`: the formulas of the fixed one with the exact quotient in place of the truncated one and
the saturation applied to the rational; and it differs from the fixed path only where the scaled PSG sum is not a multiple of `PSG_DIV`
(derived: R32, R227, R230, read over exact rationals, log entry 6). -/
def Obligations.FloatPathEqualsFixedPathOnMultiples : Prop :=
  (∀ s : State, s.csr.mixmode.getLsbD 0 = true →
    let p := s.ports.psgIn
    let g : Int :=
      if s.csr.sndctlH.getLsbD 1 then
        (if s.csr.sndctlH.getLsbD 0 then s.cfg.psgVolTab.c3 else s.cfg.psgVolTab.c2)
      else (if s.csr.sndctlH.getLsbD 0 then s.cfg.psgVolTab.c1 else s.cfg.psgVolTab.c0)
    let v : Bool → Int := fun b => if b then s.cfg.dmaVolTab.c1 else s.cfg.dmaVolTab.c0
    let d0 : Int := s.dma.latch.c0.toInt * v (s.csr.sndctlH.getLsbD 2)
    let d1 : Int := s.dma.latch.c1.toInt * v (s.csr.sndctlH.getLsbD 3)
    let pick : Nat → Int → Int := fun k x => if s.csr.sndctlL.getLsbD k then x else 0
    let mixed : Int → Int → Int → Rat := fun sum m dma =>
      let acc : Rat :=
        ((sum * g * m : Int) : Rat) / (s.cfg.psgDiv : Rat) + (dma : Rat) + ((s.csr.sndbias.toNat % 2 ^ s.cfg.biasW : Nat) : Rat)
      let sat : Rat :=
        if acc < (s.cfg.satMin : Rat) then (s.cfg.satMin : Rat) else if (s.cfg.satMax : Rat) < acc then (s.cfg.satMax : Rat) else acc
      (sat - (s.cfg.normOffset : Rat)) / (s.cfg.normScale : Rat)
    (mixNorm s).l =
      mixed (pick 12 p.c0 + pick 13 p.c1 + pick 14 p.c2 + pick 15 p.c3)
        (s.cfg.masterNum.getD (s.csr.sndctlL.toNat / 16 % 2 ^ s.cfg.masterW) 0)
        ((if s.csr.sndctlH.getLsbD 9 then d0 else 0) + (if s.csr.sndctlH.getLsbD 13 then d1 else 0)) ∧
    (mixNorm s).r =
      mixed (pick 8 p.c0 + pick 9 p.c1 + pick 10 p.c2 + pick 11 p.c3)
        (s.cfg.masterNum.getD (s.csr.sndctlL.toNat % 2 ^ s.cfg.masterW) 0)
        ((if s.csr.sndctlH.getLsbD 8 then d0 else 0) + (if s.csr.sndctlH.getLsbD 12 then d1 else 0))) ∧
  (∀ (s : State) (side : Side), 0 < s.cfg.psgDiv → (s.cfg.psgDiv : Int) ∣ psgScaled s side → normFloat s side = normFixed s side)

/-- The output stage's arithmetic on one side, as a number: no 16-bit wrap, and within `S16_SCALE` of 0 at volumes up to 100 (derived: R233). -/
def Obligations.OutputStageArithmetic : Prop :=
  ∀ (c : Cfg) (vol : Nat) (v : Rat),
    (toS16 c vol v).toInt =
      clampInt (truncRat (clampRat v (-1) 1 * (vol : Rat) / 100 * (c.s16Scale : Rat))) (-32768) 32767 ∧
    (vol ≤ 100 → c.s16Scale ≤ 32767 →
      -(c.s16Scale : Int) ≤ (toS16 c vol v).toInt ∧ (toS16 c vol v).toInt ≤ (c.s16Scale : Int))

/-- The volume and bias scenario, in every state with these registers under REF: the output stage makes `(1023, 1023)` of the mix (derived:
R239, which the spec derives from R227, R229, R233). -/
def Obligations.VolumeAndBiasScenario : Prop :=
  ∀ s : State, s.cfg = Config.ref → s.csr.mixmode.getLsbD 0 = false → s.csr.sndctlL = 0x1177#32 → s.csr.sndctlH = 0x0002#32 →
    s.csr.sndbias = 512#32 → s.csr.outvol = 100#32 → s.ports.psgIn.c0 = 16 →
    (∀ side, psgScaled s side = 448) ∧ (∀ side, normFixed s side = 1 / 32) ∧
    outputSample s (mixNorm s) = ⟨1023#16, 1023#16⟩

/-- The ranges of the mixer under REF, in every state that meets the invariant (derived: R235, which the spec derives from R227 to R229). -/
def Obligations.MixerRangesUnderRef : Prop :=
  ∀ (s : State) (side : Side), s.cfg = Config.ref → Inv s →
    (psgSum s side).natAbs ≤ 512 ∧ (psgScaled s side).natAbs ≤ 14336 ∧ (tdiv (psgScaled s side) s.cfg.psgDiv).natAbs ≤ 512 ∧
    (dmaMix s side).natAbs ≤ 1024 ∧ biasLevel s.cfg s.csr.sndbias ≤ 1023 ∧
    -1536 ≤ tdiv (psgScaled s side) s.cfg.psgDiv + dmaMix s side + (biasLevel s.cfg s.csr.sndbias : Int) ∧
    tdiv (psgScaled s side) s.cfg.psgDiv + dmaMix s side + (biasLevel s.cfg s.csr.sndbias : Int) ≤ 2559

/-- The `n`-th mixer target is never more than half a cycle from `mix_epoch + n × CPS`, for every `n`: no drift accumulates (derived:
R236, R238). -/
def Obligations.MixerTargetsDoNotDrift : Prop :=
  ∀ (c : Cfg) (epoch n : Nat), 0 < c.cpsDen →
    2 * (n * c.cpsNum) ≤ 2 * c.cpsDen * (mixTarget c epoch n - epoch) + c.cpsDen ∧
    2 * c.cpsDen * (mixTarget c epoch n - epoch) ≤ 2 * (n * c.cpsNum) + c.cpsDen

/-! ### Reset and teardown of the APU -/

/-- `APU.RESET` completes once the device ports have a value and no timestamp would overflow, and leaves the sound registers, FIFOs, pipes and
latches cleared and the bias level at `BIAS_RESET` (derived: R215, R216, R62). -/
def Obligations.ApuResetClearsRegisters : Prop :=
  ∀ s : State, s.faulted = false → s.known.dev = true → s.mutex = false →
    s.cfg.biasReset < 2 ^ s.cfg.biasW → s.cfg.biasW ≤ 16 →
    s.sched.now + roundHalfUp s.cfg.cpsNum s.cfg.cpsDen < 2 ^ s.cfg.tsW → s.sched.now + s.cfg.seqCycles < 2 ^ s.cfg.tsW →
    ∃ t, exec .apuReset s = .next t ∧ t.faulted = false ∧ t.pc = s.pc + 1 ∧
      t.csr.sndctlL = 0 ∧ t.csr.sndctlH = 0 ∧ t.csr.sndbias.toNat = s.cfg.biasReset ∧
      t.dma = { fifo := ⟨[], []⟩, pipe := ⟨⟨0, 0⟩, ⟨0, 0⟩⟩, latch := ⟨0, 0⟩ } ∧
      t.known = { s.known with sndctlL := true, sndctlH := true, sndbias := true, apu := true, ring := true }

/-- R217: the device is closed and reopened and a new, silent, empty buffer is built; `DEV_OK` decides `dev_open` and `dev_fail`. -/
def Obligations.ApuResetBuildsBuffer : Prop :=
  ∀ s t : State, exec .apuReset s = .next t → s.faulted = false →
    t.out = s.out ++ [.devClose, .devOpen] ∧ t.rbbConstructed = true ∧
    t.rbb = { data := List.replicate (s.cfg.rbbN * s.cfg.rbbB) ⟨0, 0⟩, currentBlock := 0, size := 0 } ∧
    t.devOpen = s.ports.devOk ∧ t.devFail = !s.ports.devOk ∧ t.mutex = false

/-- R218, R219: the variant is the one `INTERP_SEL` selects, or `RS_DEFAULT` on a configuration error, which `cfg_err` reports; the shift is
`SRC_RATE / DEV_RATE`, or 1 for a zero rate; the phase is 0 and the window holds `TAPS - 1` silent samples. -/
def Obligations.ApuResetConfiguresResampler : Prop :=
  ∀ s t : State, exec .apuReset s = .next t → s.faulted = false → s.cfg.wf = true →
    let selected := (interpVariant s.csr.interp).getD s.cfg.rsDefault
    let good := decide (s.ports.devRate ≠ 0) && s.cfg.rsSupported selected s.cfg.srcRate s.ports.devRate.toNat
    t.rs.variant = (if good then selected else s.cfg.rsDefault) ∧
    t.cfgErr = (decide (interpVariant s.csr.interp = none) || !good) ∧
    t.rs.shift = (if s.ports.devRate = 0 then 1 else (s.cfg.srcRate : Rat) / (s.ports.devRate.toNat : Rat)) ∧
    t.rs.phase = 0 ∧ t.ring.unread s.cfg.rbN = List.replicate (taps t.rs.variant - 1) ⟨0, 0⟩

/-- The old events are gone, the mixer's epoch is `now`, one mixer event and one sequencer event are armed, the mixer's
first; and what R321 lists as not reset keeps its value (beside it, what no command but its own writes: parameters, program, host memory)
(derived: R216, R220, R221, R321). -/
def Obligations.ApuResetArmsBothEventsAndKeepsTheRest : Prop :=
  ∀ s t : State, exec .apuReset s = .next t → s.faulted = false →
    t.sched.now = s.sched.now ∧ t.sched.seqCtr = s.sched.seqCtr + 2 ∧ t.mix = { epoch := s.sched.now, n := 1 } ∧
    t.sched.evq.Perm
      [ { target := s.sched.now + (2 * s.cfg.cpsNum + s.cfg.cpsDen) / (2 * s.cfg.cpsDen), cls := .mixer,
          seq := s.sched.seqCtr },
        { target := s.sched.now + s.cfg.seqCycles, cls := .sequencer, seq := s.sched.seqCtr + 1 } ] ∧
    t.csr.outvol = s.csr.outvol ∧ t.csr.interp = s.csr.interp ∧ t.csr.mixmode = s.csr.mixmode ∧
    t.csr.tgtrate = s.csr.tgtrate ∧ t.ports = s.ports ∧ t.errCode = s.errCode ∧ t.rbbOverflow = s.rbbOverflow ∧
    t.cfg = s.cfg ∧ t.program = s.program ∧ t.mem = s.mem ∧ t.dispatch = s.dispatch

/-- `APU.OFF` closes the device, un-constructs the buffer and removes the block's events; every other element keeps its value. That it
does so before the first `APU.RESET` too is the model's choice, log entry 21 (derived: R240). -/
def Obligations.ApuOffTearsDown : Prop :=
  encode .apuOff = .command 0x4100000000000000#64 ∧
  ∀ s : State, s.faulted = false → s.mutex = false →
    exec .apuOff s =
      .next { s with
        out := s.out ++ [.devClose]
        devOpen := false
        rbbConstructed := false
        sched := { s.sched with evq := [] }
        pc := s.pc + 1 }

/-! ### DMA channels, registers, ports -/

/-- R251 to R254: a timer overflow completes and serves exactly the channels bound to its timer, channel 0 first: the request by the count
before any refill, the refill of an empty pipe, the shift of the least significant byte into the latch, and a latch that keeps its value when
pipe and FIFO are empty. -/
def Obligations.TimerOverflowServesBoundChannels : Prop :=
  ∀ (s : State) (timerId : Byte), s.faulted = false → s.known.apu = true → s.known.sndctlH = true →
    encode (.tmrOvf timerId 1) = .command (packWord 0x48#8 timerId 1 0) ∧
    ∃ t,
      exec (.tmrOvf timerId 1) s =
        .next { s with
          dma := t
          out := s.out
            ++ (if dmaTimer s.csr.sndctlH .ch0 = timerId.toNat ∧ s.dma.fifo.c0.length ≤ 3 then [.dmaReq .ch0] else [])
            ++ (if dmaTimer s.csr.sndctlH .ch1 = timerId.toNat ∧ s.dma.fifo.c1.length ≤ 3 then [.dmaReq .ch1] else [])
          pc := s.pc + 1 } ∧
      ∀ f, if dmaTimer s.csr.sndctlH f = timerId.toNat then
          (0 < (s.dma.pipe.get f).count →
            t.fifo.get f = s.dma.fifo.get f ∧ t.latch.get f = (s.dma.pipe.get f).word.setWidth 8 ∧
            t.pipe.get f = ⟨(s.dma.pipe.get f).word >>> 8, (s.dma.pipe.get f).count - 1⟩) ∧
          (∀ w rest, (s.dma.pipe.get f).count = 0 → s.dma.fifo.get f = w :: rest →
            t.fifo.get f = rest ∧ t.latch.get f = w.setWidth 8 ∧ t.pipe.get f = ⟨w >>> 8, 3⟩) ∧
          ((s.dma.pipe.get f).count = 0 → s.dma.fifo.get f = [] →
            t.fifo.get f = [] ∧ t.latch.get f = s.dma.latch.get f ∧ t.pipe.get f = s.dma.pipe.get f)
        else
          t.fifo.get f = s.dma.fifo.get f ∧ t.latch.get f = s.dma.latch.get f ∧ t.pipe.get f = s.dma.pipe.get f

/-- The pipe-latch scenario, for any four words: one refill and the four bytes of the first word in overflows 1 to 4, no request at the first
and one at each of the others, and a second refill at the fifth (derived: R257, which the spec derives from R250 to R253). -/
def Obligations.PipeLatchScenario : Prop :=
  ∀ (s : State) (w1 w2 w3 w4 : Word), s.faulted = false → s.known.apu = true → s.known.sndctlH = true →
    s.csr.sndctlH.getLsbD 10 = false → s.csr.sndctlH.getLsbD 14 = true →
    s.dma.fifo.c0 = [w1, w2, w3, w4] → s.dma.pipe.c0.count = 0 →
    ∃ t1 t2 t3 t4 t5,
      exec (.tmrOvf 0 1) s = .next t1 ∧ exec (.tmrOvf 0 1) t1 = .next t2 ∧ exec (.tmrOvf 0 1) t2 = .next t3 ∧
      exec (.tmrOvf 0 1) t3 = .next t4 ∧ exec (.tmrOvf 0 1) t4 = .next t5 ∧
      t1.dma.latch.c0 = w1.extractLsb' 0 8 ∧ t2.dma.latch.c0 = w1.extractLsb' 8 8 ∧
      t3.dma.latch.c0 = w1.extractLsb' 16 8 ∧ t4.dma.latch.c0 = w1.extractLsb' 24 8 ∧
      t5.dma.latch.c0 = w2.extractLsb' 0 8 ∧
      t1.dma.pipe.c0.count = 3 ∧ t2.dma.pipe.c0.count = 2 ∧ t3.dma.pipe.c0.count = 1 ∧ t4.dma.pipe.c0.count = 0 ∧
      t5.dma.pipe.c0.count = 3 ∧
      t1.dma.fifo.c0 = [w2, w3, w4] ∧ t2.dma.fifo.c0 = [w2, w3, w4] ∧ t3.dma.fifo.c0 = [w2, w3, w4] ∧
      t4.dma.fifo.c0 = [w2, w3, w4] ∧ t5.dma.fifo.c0 = [w3, w4] ∧
      t1.out = s.out ∧ t2.out = s.out ++ [.dmaReq .ch0] ∧ t3.out = t2.out ++ [.dmaReq .ch0] ∧
      t4.out = t3.out ++ [.dmaReq .ch0] ∧ t5.out = t4.out ++ [.dmaReq .ch0]

/-- R258: a word is appended to its FIFO if there is room and dropped if not; nothing else changes. Before `APU.RESET` the command is
refused. -/
def Obligations.FifoWriteAppendsOrDrops : Prop :=
  ∀ (s : State) (w : Word), s.faulted = false →
    encode (.fifoWr 0 w) = .command (packWord 0x49#8 0 0 w) ∧ encode (.fifoWr 1 w) = .command (packWord 0x49#8 1 0 w) ∧
    (s.known.apu = true →
      exec (.fifoWr 0 w) s =
        .next { s with
          dma := { s.dma with fifo := { s.dma.fifo with
            c0 := if s.dma.fifo.c0.length < s.cfg.fifoCap then s.dma.fifo.c0 ++ [w] else s.dma.fifo.c0 } }
          pc := s.pc + 1 } ∧
      exec (.fifoWr 1 w) s =
        .next { s with
          dma := { s.dma with fifo := { s.dma.fifo with
            c1 := if s.dma.fifo.c1.length < s.cfg.fifoCap then s.dma.fifo.c1 ++ [w] else s.dma.fifo.c1 } }
          pc := s.pc + 1 }) ∧
    (s.known.apu = false →
      exec (.fifoWr 0 w) s = .refused (.noValue .dmaChannels) ∧ exec (.fifoWr 1 w) s = .refused (.noValue .dmaChannels))

/-- R262: the effect of a control register write by index; every index of R262's table completes or is refused, and no other element
changes. -/
def Obligations.CsrWriteByIndex : Prop :=
  ∀ (s : State) (index : Byte) (value : Word), s.faulted = false →
    encode (.csrWr index value) = .command (packWord 0x4A#8 index 0 value) ∧
    (index.toNat ≤ 6 →
      ∃ csr known, exec (.csrWr index value) s = .next { s with csr := csr, known := known, pc := s.pc + 1 } ∧
        csr.sndctlL =
          (if index = 0 then
            value &&& (0xFF00#32 ||| BitVec.ofNat 32 (2 ^ s.cfg.masterW - 1) ||| BitVec.ofNat 32 (2 ^ s.cfg.masterW - 1) <<< 4)
          else s.csr.sndctlL) ∧
        csr.sndctlH = (if index = 1 then value &&& 0x770F#32 else s.csr.sndctlH) ∧
        csr.sndbias = (if index = 2 then value &&& BitVec.ofNat 32 (2 ^ s.cfg.biasW - 1) else s.csr.sndbias) ∧
        csr.outvol.toInt = (if index = 3 then max 0 (min 100 value.toInt) else s.csr.outvol.toInt) ∧
        csr.interp = (if index = 4 then value &&& 0x7#32 else s.csr.interp) ∧
        csr.mixmode = (if index = 5 then value &&& 0x1#32 else s.csr.mixmode) ∧
        csr.tgtrate = (if index = 6 then value else s.csr.tgtrate) ∧
        known =
          { s.known with
            sndctlL := s.known.sndctlL || decide (index = 0)
            sndctlH := s.known.sndctlH || decide (index = 1)
            sndbias := s.known.sndbias || decide (index = 2) }) ∧
    (7 ≤ index.toNat → exec (.csrWr index value) s = .refused (.operandRange "index"))

/-- R264: a control register read returns the register and changes nothing but the trace and `pc`; a register without a value and an
index above 8 are refused. -/
def Obligations.CsrReadReturnsRegister : Prop :=
  ∀ (s : State), s.faulted = false →
    let reads : Byte → Word → Prop := fun index v =>
      exec (.csrRd index) s = .next { s with out := s.out ++ [.result (.word v)], pc := s.pc + 1 }
    (∀ index, encode (.csrRd index) = .command (packWord 0x4B#8 index 0 0)) ∧
    (s.known.sndctlL = true → reads 0 s.csr.sndctlL) ∧ (s.known.sndctlH = true → reads 1 s.csr.sndctlH) ∧
    (s.known.sndbias = true → reads 2 s.csr.sndbias) ∧
    reads 3 s.csr.outvol ∧ reads 4 s.csr.interp ∧ reads 5 s.csr.mixmode ∧ reads 6 s.csr.tgtrate ∧
    reads 7 s.status ∧ reads 8 s.err ∧
    (s.known.sndctlL = false → exec (.csrRd 0) s = .refused (.noValue .sndctlL)) ∧
    (s.known.sndctlH = false → exec (.csrRd 1) s = .refused (.noValue .sndctlH)) ∧
    (s.known.sndbias = false → exec (.csrRd 2) s = .refused (.noValue .sndbias)) ∧
    (∀ index : Byte, 9 ≤ index.toNat → exec (.csrRd index) s = .refused (.operandRange "index"))

/-- The bits of the two read-only registers (derived: R36, R37). -/
def Obligations.StatusAndErrBits : Prop :=
  ∀ (s : State) (k : Nat),
    s.status.getLsbD k =
      (decide (k = 0) && s.rbbConstructed || decide (k = 1) && s.devOpen || decide (k = 2) && s.cfgErr ||
        decide (k = 3) && s.devFail) ∧
    s.err.getLsbD k = (decide (k < 8) && s.errCode.getLsbD k)

/-- `PSG.SET` drives one port and `DEV.SET` fixes the device's two answers; neither changes anything else (derived: R266, R268). -/
def Obligations.PortCommandsDriveTheirPorts : Prop :=
  (∀ (s : State) (c : Byte) (ch : PsgCh) (value : Word), s.faulted = false → c.toNat = ch.num →
    -(2 ^ (s.cfg.psgW - 1) : Int) ≤ value.toInt → value.toInt < (2 ^ (s.cfg.psgW - 1) : Int) →
    encode (.psgSet c value) = .command (packWord 0x4C#8 c 0 value) ∧
    ∃ psgIn driven,
      exec (.psgSet c value) s =
        .next { s with ports := { s.ports with psgIn := psgIn }, known := { s.known with psgIn := driven }, pc := s.pc + 1 } ∧
      ∀ k, psgIn.get k = (if k = ch then value.toInt else s.ports.psgIn.get k) ∧
        driven.get k = (decide (k = ch) || s.known.psgIn.get k)) ∧
  (∀ (s : State) (rate : Word) (ok : Bool), s.faulted = false →
    let a : Byte := if ok then 1 else 0
    encode (.devSet a rate) = .command (packWord 0x4D#8 a 0 rate) ∧
    exec (.devSet a rate) s =
      .next { s with
        ports := { s.ports with devOk := ok, devRate := rate }
        known := { s.known with dev := true }
        pc := s.pc + 1 })

/-! ### RingBuffer -/

/-- R152, R155, R156: push, available and reset complete and do to the ring what their pseudocode says; push never faults, full or
not. -/
def Obligations.RingPushAvailReset : Prop :=
  ∀ (s : State) (l r : Half), s.faulted = false →
    encode (.rbPush l r) = .command (packWord 0x10#8 0 0 (r ++ l)) ∧ encode .rbAvail = .command 0x1300000000000000#64 ∧
    encode .rbReset = .command 0x1400000000000000#64 ∧
    (s.known.ring = true →
      exec (.rbPush l r) s =
        .next { s with
          ring :=
            { data := s.ring.data.set (s.ring.tail % s.cfg.rbN) ⟨(l.toInt : Rat), (r.toInt : Rat)⟩,
              head := s.ring.head, tail := s.ring.tail + 1 }
          pc := s.pc + 1 } ∧
      exec .rbAvail s =
        .next { s with out := s.out ++ [.result (.number (s.ring.tail - s.ring.head))], pc := s.pc + 1 }) ∧
    exec .rbReset s =
      .next { s with
        ring := { data := List.replicate s.cfg.rbN ⟨0, 0⟩, head := 0, tail := 0 }
        known := { s.known with ring := true }
        pc := s.pc + 1 }

/-- R153, R154: pop returns and removes the oldest unread value, peek returns the value at an offset and removes nothing; an empty pop and
an offset not below `Available()` raise `RB_EMPTY` and `RB_RANGE`. -/
def Obligations.RingPopPeek : Prop :=
  ∀ (s : State) (offset : Half), s.faulted = false → s.known.ring = true →
    encode .rbPop = .command 0x1100000000000000#64 ∧ encode (.rbPeek offset) = .command (packWord 0x12#8 0 offset 0) ∧
    (∀ v, (s.ring.unread s.cfg.rbN)[0]? = some v →
      exec .rbPop s =
        .next { s with
          ring := { s.ring with head := s.ring.head + 1 }
          out := s.out ++ [.result (.sample v)]
          pc := s.pc + 1 }) ∧
    (s.ring.unread s.cfg.rbN = [] →
      exec .rbPop s = .next { s with errCode := if s.errCode = 0 then 1#8 else s.errCode, faulted := true }) ∧
    (∀ v, (s.ring.unread s.cfg.rbN)[offset.toNat]? = some v →
      exec (.rbPeek offset) s = .next { s with out := s.out ++ [.result (.sample v)], pc := s.pc + 1 }) ∧
    (s.ring.tail - s.ring.head ≤ offset.toNat →
      exec (.rbPeek offset) s = .next { s with errCode := if s.errCode = 0 then 2#8 else s.errCode, faulted := true })

/-- Within capacity the ring is a queue: a push appends to the unread values, a pop takes the first of them, and neither disturbs
the others. A push onto a full ring makes `Available()` exceed `N`, and the next pop returns the value just pushed (derived: R157, R158, which
the spec derives from R150, R152, R153). -/
def Obligations.RingIsAQueue : Prop :=
  ∀ (n : Nat) (r : Ring), r.Ok n →
    (∀ x, r.available < n → (r.push n x).Ok n ∧ (r.push n x).unread n = r.unread n ++ [x]) ∧
    (∀ v rest, r.unread n = v :: rest → ∃ r', r.pop n = .ok (v, r') ∧ r'.Ok n ∧ r'.unread n = rest) ∧
    (∀ x, 0 < n → r.available = n → (r.push n x).available = n + 1 ∧ ∃ r', (r.push n x).pop n = .ok (x, r'))

/-! ### RingBlockBuffer -/

/-- R168: a push writes the next slot and advances `size` modulo the capacity, setting the ghost flag when made at
`size >= CAP - 1`; it never fails for want of room. -/
def Obligations.BlockPushAdvancesModuloCapacity : Prop :=
  ∀ (s : State) (l r : Half), s.faulted = false → s.mutex = false → s.rbbConstructed = true →
    encode (.rbbPush l r) = .command (packWord 0x20#8 0 0 (r ++ l)) ∧
    exec (.rbbPush l r) s =
      .next { s with
        rbb :=
          { data := s.rbb.data.set ((s.rbb.currentBlock * s.cfg.rbbN + s.rbb.size) % (s.cfg.rbbN * s.cfg.rbbB)) ⟨l, r⟩,
            currentBlock := s.rbb.currentBlock,
            size := (s.rbb.size + 1) % (s.cfg.rbbN * s.cfg.rbbB) }
        rbbOverflow := s.rbbOverflow || decide (s.cfg.rbbN * s.cfg.rbbB ≤ s.rbb.size + 1)
        pc := s.pc + 1 }

/-- With `size >= N` a pop of a block returns the `N` oldest queued samples and `size` decreases by exactly `N`; with fewer it
raises `RBB_UNDERFLOW` and moves no cursor (derived: R169, R174). -/
def Obligations.PopBlockReturnsOldestBlock : Prop :=
  encode .rbbPopb = .command 0x2100000000000000#64 ∧
  ∀ (s : State), s.faulted = false → s.mutex = false → s.rbbConstructed = true →
    (s.rbb.Ok s.cfg → s.cfg.rbbN ≤ s.rbb.size →
      ((s.rbb.queued s.cfg).take s.cfg.rbbN).length = s.cfg.rbbN ∧
      exec .rbbPopb s =
        .next { s with
          rbb :=
            { data := s.rbb.data, currentBlock := (s.rbb.currentBlock + 1) % s.cfg.rbbB,
              size := s.rbb.size - s.cfg.rbbN }
          out := s.out ++ [.result (.samples16 ((s.rbb.queued s.cfg).take s.cfg.rbbN))]
          pc := s.pc + 1 }) ∧
    (s.rbb.size < s.cfg.rbbN →
      exec .rbbPopb s = .next { s with errCode := if s.errCode = 0 then 4#8 else s.errCode, faulted := true })

/-- The four reads of the buffer complete, return what their pseudocode says, and change nothing but the trace and `pc`;
`RBB.CPB` needs no buffer (derived: R170 to R173). -/
def Obligations.BlockBufferReads : Prop :=
  ∀ (s : State), s.faulted = false →
    let reads : Instr → Value → Prop := fun i v =>
      exec i s = .next { s with out := s.out ++ [.result v], pc := s.pc + 1 }
    encode .rbbData = .command 0x2200000000000000#64 ∧ encode .rbbBack = .command 0x2300000000000000#64 ∧
    encode .rbbSize = .command 0x2400000000000000#64 ∧ encode .rbbCpb = .command 0x2500000000000000#64 ∧
    reads .rbbCpb (.number s.cfg.rbbN) ∧
    (s.mutex = false → s.rbbConstructed = true →
      reads .rbbData (.number (s.rbb.currentBlock * s.cfg.rbbN)) ∧
      reads .rbbSize (.number s.rbb.size) ∧
      (∀ x, (s.rbb.queued s.cfg).getLast? = some x → reads .rbbBack (.sample16 x)) ∧
      (s.rbb.size = 0 → reads .rbbBack (.sample16 (s.rbb.data.getD (s.rbb.currentBlock * s.cfg.rbbN) ⟨0, 0⟩))))

/-- Within capacity the block buffer is a queue: a push appends, and `Back()` is then the sample just pushed; a block taken is the first
`N` queued samples and the rest stay queued in order (derived: R166, R167, R169, R171). -/
def Obligations.BlockBufferIsAQueue : Prop :=
  ∀ (c : Cfg) (b : BlockBuffer), b.Ok c →
    (∀ x, b.size + 1 < bufCap c →
      (b.push c x).Ok c ∧ (b.push c x).queued c = b.queued c ++ [x] ∧ (b.push c x).back c = x) ∧
    (c.rbbN ≤ b.size →
      (b.dropBlock c).Ok c ∧ b.queued c = b.block c ++ (b.dropBlock c).queued c ∧ (b.block c).length = c.rbbN)

/-- On a buffer that does not exist, every `RBB.*` command but `RBB.CPB` raises `RBB_ABSENT` (derived: R165, R290). -/
def Obligations.BlockBufferAbsent : Prop :=
  ∀ (s : State) (l r : Half), s.faulted = false → s.mutex = false → s.rbbConstructed = false →
    ∀ i ∈ [Instr.rbbPush l r, .rbbPopb, .rbbData, .rbbBack, .rbbSize],
      exec i s = .next { s with errCode := if s.errCode = 0 then 3#8 else s.errCode, faulted := true }

/-! ### The resampler -/

/-- R188, R189: `RS.RATE` sets the shift and touches nothing else on a supported pair of rates; on a zero rate or an unsupported pair it
reports a configuration error and falls back to `RS_DEFAULT`, re-initialising the window only if the variant changes. -/
def Obligations.RateSetsShiftOrFallsBack : Prop :=
  ∀ (s : State) (src : BitVec 24) (dst : Word), s.faulted = false → s.known.apu = true →
    encode (.rsRate src dst) = .command (packWord 0x30#8 (src.extractLsb' 16 8) (src.extractLsb' 0 16) dst) ∧
    (src ≠ 0 → dst ≠ 0 → s.cfg.rsSupported s.rs.variant src.toNat dst.toNat = true →
      exec (.rsRate src dst) s =
        .next { s with rs := { s.rs with shift := (src.toNat : Rat) / (dst.toNat : Rat) }, pc := s.pc + 1 }) ∧
    (src = 0 ∨ dst = 0 ∨ s.cfg.rsSupported s.rs.variant src.toNat dst.toNat = false →
      ∃ phase ring,
        exec (.rsRate src dst) s =
          .next { s with
            cfgErr := true
            rs :=
              { variant := s.cfg.rsDefault,
                shift := if src = 0 ∨ dst = 0 then 1 else (src.toNat : Rat) / (dst.toNat : Rat), phase := phase }
            ring := ring
            pc := s.pc + 1 } ∧
        (s.rs.variant = s.cfg.rsDefault → phase = s.rs.phase ∧ ring = s.ring) ∧
        (s.rs.variant ≠ s.cfg.rsDefault → 256 ≤ s.cfg.rbN →
          phase = 0 ∧ ring.unread s.cfg.rbN = List.replicate (taps s.cfg.rsDefault - 1) ⟨0, 0⟩))

/-- `RS.WRITE` pushes its sample and returns one output for each `k` with `rs_phase + k × rs_shift < 1`, each the weighted sum of the
window at that phase; then it takes 1 from the phase and pops one sample. It completes unless an output is due and the window is short, where
`Peek` raises `RB_RANGE` and nothing is kept, the pushed sample included (log entry 18). The phase stays below `max(1, rs_shift)` and, the ring
not overflowing, the unread samples are the window's (derived: R190, R192, R193). -/
def Obligations.WriteProducesOutputsByPhase : Prop :=
  ∀ (s : State) (l r : Half), Inv s → s.faulted = false → s.known.apu = true →
    encode (.rsWrite l r) = .command (packWord 0x31#8 0 0 (r ++ l)) ∧
    (s.ring.available + 1 < taps s.rs.variant → s.rs.phase < 1 →
      exec (.rsWrite l r) s = .next { s with errCode := if s.errCode = 0 then 2#8 else s.errCode, faulted := true }) ∧
    (taps s.rs.variant ≤ s.ring.available + 1 ∨ 1 ≤ s.rs.phase →
      ∃ count : Nat,
        let x : Stereo Rat := ⟨(l.toInt : Rat), (r.toInt : Rat)⟩
        let pushed : Ring :=
          { data := s.ring.data.set (s.ring.tail % s.cfg.rbN) x, head := s.ring.head, tail := s.ring.tail + 1 }
        let h := (pushed.unread s.cfg.rbN).take (taps s.rs.variant)
        (∀ k : Nat, k < count ↔ s.rs.phase + (k : Rat) * s.rs.shift < 1) ∧
        exec (.rsWrite l r) s =
          .next { s with
            rs := { s.rs with phase := s.rs.phase + (count : Rat) * s.rs.shift - 1 }
            ring := { pushed with head := s.ring.head + 1 }
            out := s.out ++ [.result (.samples ((List.range count).map (fun (k : Nat) =>
              interpolate (kernel s.cfg.kernel s.rs.variant s.rs.shift (s.rs.phase + (k : Rat) * s.rs.shift)) h)))]
            pc := s.pc + 1 } ∧
        (s.ring.available < s.cfg.rbN → pushed.unread s.cfg.rbN = s.ring.unread s.cfg.rbN ++ [x]) ∧
        0 ≤ s.rs.phase + (count : Rat) * s.rs.shift - 1 ∧
        (s.rs.phase < max 1 s.rs.shift → s.rs.phase + (count : Rat) * s.rs.shift - 1 < max 1 s.rs.shift))

/-- The reference kernels where they have exact values (derived: R200, R201, R202). -/
def Obligations.ReferenceKernelValues : Prop :=
  ∀ (shift mu : Rat),
    (∀ h0, interpolate (referenceKernel .nearest shift mu) [h0] = h0) ∧
    (∀ h0 h1, interpolate (referenceKernel .cosine shift 0) [h0, h1] = h0 ∧
      interpolate (referenceKernel .cosine shift (1 / 2)) [h0, h1] = ⟨(h0.l + h1.l) / 2, (h0.r + h1.r) / 2⟩) ∧
    (∀ h0 h1 h2 h3 : Stereo Rat,
      let lane : Rat → Rat → Rat → Rat → Rat := fun a b c d =>
        (d - c - a + b) * mu ^ 3 + (a - b - (d - c - a + b)) * mu ^ 2 + (c - a) * mu + b
      interpolate (referenceKernel .cubic shift mu) [h0, h1, h2, h3] =
        ⟨lane h0.l h1.l h2.l h3.l, lane h0.r h1.r h2.r h3.r⟩)

/-- The reference kernels' weights sum to 1 at every phase, whatever the free Cosine and Sinc weights are; and with weights that sum
to 1 a window filled with one sample gives that sample back (derived: R207; that the Sinc weights sum to 1 is read from R199, log entry 2). -/
def Obligations.KernelsPreserveConstants : Prop :=
  (∀ (v : Variant) (shift mu : Rat), ((List.range (taps v)).map (referenceKernel v shift mu)).sum = 1) ∧
  (∀ (weight : Nat → Rat) (p : Nat) (x : Stereo Rat),
    ((List.range p).map weight).sum = 1 → interpolate weight (List.replicate p x) = x)

/-! ### The callback -/

/-- R277: without a buffer `CB.REQ` writes `len` zero bytes at `dest` and touches nothing else but the trace and `pc`. -/
def Obligations.CallbackSilence : Prop :=
  ∀ (s : State) (len : BitVec 24) (dest : Word), s.faulted = false → s.mutex = false → s.rbbConstructed = false →
    len.toNat % 4 = 0 →
    ∃ mem out, exec (.cbReq len dest) s = .next { s with mem := mem, out := out, pc := s.pc + 1 } ∧
      ∀ a, Memory.read mem a =
        if dest.toNat ≤ a ∧ a < dest.toNat + len.toNat then some 0#8 else Memory.read s.mem a

/-- Every request that R280 does not refuse, one for whole blocks or for no fewer samples than are queued, completes: sample `i` of the request
is the `i`-th queued sample while there is one, what is left of the queue is the rest, in order, and it is empty if the request took
everything (derived: R278, R280, R283). -/
def Obligations.CallbackDeliversQueueInOrder : Prop :=
  ∀ (s : State) (len : BitVec 24) (dest : Word), Inv s → s.faulted = false → s.rbbConstructed = true → len.toNat % 4 = 0 →
    (len.toNat / 4 % s.cfg.rbbN = 0 ∨ s.rbb.size ≤ len.toNat / 4) →
    ∃ mem out rbb, exec (.cbReq len dest) s = .next { s with mem := mem, out := out, rbb := rbb, pc := s.pc + 1 } ∧
      (∀ i x, i < len.toNat / 4 → (s.rbb.queued s.cfg)[i]? = some x → sampleAt mem (dest.toNat + 4 * i) = some x) ∧
      rbb.queued s.cfg = (s.rbb.queued s.cfg).drop (len.toNat / 4) ∧ rbb.Ok s.cfg

/-- Every request that R280 does not refuse: the block index advances by the whole blocks taken, `size` falls by what was queued and asked for,
the slots stay, and every sample of the request is stored, the queued ones first and `Back()` as it stands after the whole blocks in the
place of each that is missing. `Back()` is there the newest queued sample if part of a block was left, else the base sample of the block
that has become current (derived: R171, R278 to R280). -/
def Obligations.CallbackPadsUnderrun : Prop :=
  ∀ (s : State) (len : BitVec 24) (dest : Word), Inv s → s.faulted = false → s.rbbConstructed = true → len.toNat % 4 = 0 →
    (len.toNat / 4 % s.cfg.rbbN = 0 ∨ s.rbb.size ≤ len.toNat / 4) →
    let block := (s.rbb.currentBlock + min s.rbb.size (len.toNat / 4) / s.cfg.rbbN) % s.cfg.rbbB
    let base := s.rbb.data.getD (block * s.cfg.rbbN) ⟨0, 0⟩
    let pad := if s.rbb.size % s.cfg.rbbN = 0 then base else (s.rbb.queued s.cfg).getLastD base
    ∃ mem out,
      exec (.cbReq len dest) s =
        .next { s with
          mem := mem
          out := out
          rbb := { data := s.rbb.data, currentBlock := block, size := s.rbb.size - len.toNat / 4 }
          pc := s.pc + 1 } ∧
      ∀ i, i < len.toNat / 4 → sampleAt mem (dest.toNat + 4 * i) = some ((s.rbb.queued s.cfg).getD i pad)

/-- When a `CB.REQ` completes, the bytes it has written, as the trace shows them, are those of `dest .. dest + len - 1`, each once and in order
of address; each of them is found in host memory afterwards and no other byte of host memory has changed; and of the block's state it
has changed `currentBlock` and `size` alone, with the trace and `pc` (derived: R60, R275, R83; log entry 15 for the bytes in the trace). -/
def Obligations.CallbackWritesExactlyItsBuffer : Prop :=
  ∀ (s t : State) (len : BitVec 24) (dest : Word), Inv s → exec (.cbReq len dest) s = .next t →
    (∃ bytes : List Byte, bytes.length = len.toNat ∧
      t.out = s.out ++ (List.range len.toNat).map (fun k => .memByte (dest.toNat + k) (bytes.getD k 0)) ∧
      ∀ k, k < len.toNat → Memory.read t.mem (dest.toNat + k) = some (bytes.getD k 0)) ∧
    (∀ a, a < dest.toNat ∨ dest.toNat + len.toNat ≤ a → Memory.read t.mem a = Memory.read s.mem a) ∧
    t = { s with
      mem := t.mem, out := t.out, pc := s.pc + 1,
      rbb := { s.rbb with currentBlock := t.rbb.currentBlock, size := t.rbb.size } }

/-- A request that ends inside a block with samples left over is refused (derived: R280). -/
def Obligations.CallbackInsideBlockRefused : Prop :=
  ∀ (s : State) (len : BitVec 24) (dest : Word), Inv s → s.faulted = false → s.rbbConstructed = true → len.toNat % 4 = 0 →
    len.toNat / 4 % s.cfg.rbbN ≠ 0 → len.toNat / 4 < s.rbb.size →
    exec (.cbReq len dest) s = .refused .requestInsideBlock

/-! ### The whole machine -/

/-- On a block halted by a fault the model stops at every instruction but `CSR.RD 8`, which returns the code, and `CSR.RD 7` (derived: R291, which
defines no behaviour of the others; that the model stops there under the name `halted` is log entry 7). -/
def Obligations.HaltedAfterFault : Prop :=
  ∀ (s : State) (i : Instr), s.faulted = true →
    (i ≠ .csrRd 7#8 → i ≠ .csrRd 8#8 → exec i s = .fault .halted) ∧
    exec (.csrRd 8#8) s = .next { s with out := s.out ++ [.result (.word (s.errCode.setWidth 32))], pc := s.pc + 1 } ∧
    exec (.csrRd 7#8) s = .next { s with out := s.out ++ [.result (.word s.status)], pc := s.pc + 1 }

/-- Before the first `APU.RESET` the commands that read state it gives a value are refused, each by an element it lacks; which one,
where several are missing, is log entry 3 (derived: R62, R322, R324). -/
def Obligations.RefusedBeforeFirstReset : Prop :=
  ∀ (s : State) (timerId : Byte) (word dst : Word) (src : BitVec 24) (l r : Half), s.faulted = false → s.known.apu = false →
    exec (.tmrOvf timerId 1) s = .refused (.noValue .dmaChannels) ∧
    exec (.fifoWr 0 word) s = .refused (.noValue .dmaChannels) ∧ exec (.fifoWr 1 word) s = .refused (.noValue .dmaChannels) ∧
    exec (.rsRate src dst) s = .refused (.noValue .resampler) ∧ exec (.rsWrite l r) s = .refused (.noValue .resampler) ∧
    (s.known.dev = false → exec .apuReset s = .refused (.noValue .devPorts)) ∧
    (s.known.ring = false →
      exec (.rbPush l r) s = .refused (.noValue .rsRing) ∧ exec .rbPop s = .refused (.noValue .rsRing) ∧
      exec .rbAvail s = .refused (.noValue .rsRing) ∧ ∀ k, exec (.rbPeek k) s = .refused (.noValue .rsRing))

/-- `now` is advanced by `SCH.ADV` and by nothing else, and the variant changes only in `APU.RESET` and in the fallback of `RS.RATE` (derived:
R23, R302, R194). -/
def Obligations.NowAndVariantMoveOnlyWhereNamed : Prop :=
  ∀ (s t : State) (i : Instr), exec i s = .next t →
    (∀ n, i = .schAdv n → t.sched.now = s.sched.now + n.toNat) ∧
    ((∀ n, i ≠ .schAdv n) → t.sched.now = s.sched.now) ∧
    (i ≠ .apuReset → (∀ src dst, i ≠ .rsRate src dst) → t.rs.variant = s.rs.variant)

/-- `ERR_CODE` is sticky: the first fault's code stays (R37), the faulted mark is never cleared (R291), and the ghost `rbb_overflow` is never
cleared (R50) (derived). -/
def Obligations.FaultRecordIsSticky : Prop :=
  ∀ (s t : State) (i : Instr), exec i s = .next t →
    (s.errCode ≠ 0 → t.errCode = s.errCode) ∧ (s.faulted = true → t.faulted = true) ∧
    (s.rbbOverflow = true → t.rbbOverflow = true)

/-- Host memory is written by `CB.REQ` alone, the parameters, the program and the selected handler by nothing, and the trace only grows
(derived: R60, R61, R70, R83). -/
def Obligations.OnlyTheCallbackWritesMemory : Prop :=
  ∀ (s t : State) (i : Instr), exec i s = .next t →
    ((∀ len dest, i ≠ .cbReq len dest) → t.mem = s.mem) ∧ t.cfg = s.cfg ∧ t.program = s.program ∧ t.dispatch = s.dispatch ∧
    s.out <+: t.out

/-- Every step keeps the invariant (derived: the ranges and canonical forms of `10_state.md`). -/
def Obligations.StepKeepsInvariant : Prop := ∀ s t : State, Inv s → step s = .next t → Inv t

/-- In a state that meets the invariant and is not faulted, no instruction ends in a stuck state: no loop is endless and no agent waits for
the mutex (derived: R84, R134, R190, R278). -/
def Obligations.NothingGetsStuck : Prop := ∀ (s : State) (i : Instr) (f : Fault), Inv s → s.faulted = false → exec i s ≠ .fault f
end

