-- ==== Sys2Proof/Laws/State.lean ====
section
/-! SUPPORT. What each named update of the state does to each field, true by unfolding: with these no later proof opens a record
update. -/

namespace Sys2Proof.Machine

/-! ### `State.raise` -/

@[simp] theorem State.raise_cfg (v : Violation) (s : State) : (s.raise v).cfg = s.cfg := rfl
@[simp] theorem State.raise_sched (v : Violation) (s : State) : (s.raise v).sched = s.sched := rfl
@[simp] theorem State.raise_csr (v : Violation) (s : State) : (s.raise v).csr = s.csr := rfl
@[simp] theorem State.raise_ports (v : Violation) (s : State) : (s.raise v).ports = s.ports := rfl
@[simp] theorem State.raise_dma (v : Violation) (s : State) : (s.raise v).dma = s.dma := rfl
@[simp] theorem State.raise_mix (v : Violation) (s : State) : (s.raise v).mix = s.mix := rfl
@[simp] theorem State.raise_rs (v : Violation) (s : State) : (s.raise v).rs = s.rs := rfl
@[simp] theorem State.raise_ring (v : Violation) (s : State) : (s.raise v).ring = s.ring := rfl
@[simp] theorem State.raise_rbb (v : Violation) (s : State) : (s.raise v).rbb = s.rbb := rfl
@[simp] theorem State.raise_rbbConstructed (v : Violation) (s : State) : (s.raise v).rbbConstructed = s.rbbConstructed := rfl
@[simp] theorem State.raise_mutex (v : Violation) (s : State) : (s.raise v).mutex = s.mutex := rfl
@[simp] theorem State.raise_devOpen (v : Violation) (s : State) : (s.raise v).devOpen = s.devOpen := rfl
@[simp] theorem State.raise_cfgErr (v : Violation) (s : State) : (s.raise v).cfgErr = s.cfgErr := rfl
@[simp] theorem State.raise_devFail (v : Violation) (s : State) : (s.raise v).devFail = s.devFail := rfl
@[simp] theorem State.raise_errCode (v : Violation) (s : State) : (s.raise v).errCode = if s.errCode = 0 then v.code else s.errCode := rfl
@[simp] theorem State.raise_rbbOverflow (v : Violation) (s : State) : (s.raise v).rbbOverflow = s.rbbOverflow := rfl
@[simp] theorem State.raise_faulted (v : Violation) (s : State) : (s.raise v).faulted = true := rfl
@[simp] theorem State.raise_known (v : Violation) (s : State) : (s.raise v).known = s.known := rfl
@[simp] theorem State.raise_mem (v : Violation) (s : State) : (s.raise v).mem = s.mem := rfl
@[simp] theorem State.raise_out (v : Violation) (s : State) : (s.raise v).out = s.out := rfl
@[simp] theorem State.raise_program (v : Violation) (s : State) : (s.raise v).program = s.program := rfl
@[simp] theorem State.raise_pc (v : Violation) (s : State) : (s.raise v).pc = s.pc := rfl
@[simp] theorem State.raise_dispatch (v : Violation) (s : State) : (s.raise v).dispatch = s.dispatch := rfl

/-! ### `State.retire` -/

@[simp] theorem State.retire_cfg (s : State) : s.retire.cfg = s.cfg := rfl
@[simp] theorem State.retire_sched (s : State) : s.retire.sched = s.sched := rfl
@[simp] theorem State.retire_csr (s : State) : s.retire.csr = s.csr := rfl
@[simp] theorem State.retire_ports (s : State) : s.retire.ports = s.ports := rfl
@[simp] theorem State.retire_dma (s : State) : s.retire.dma = s.dma := rfl
@[simp] theorem State.retire_mix (s : State) : s.retire.mix = s.mix := rfl
@[simp] theorem State.retire_rs (s : State) : s.retire.rs = s.rs := rfl
@[simp] theorem State.retire_ring (s : State) : s.retire.ring = s.ring := rfl
@[simp] theorem State.retire_rbb (s : State) : s.retire.rbb = s.rbb := rfl
@[simp] theorem State.retire_rbbConstructed (s : State) : s.retire.rbbConstructed = s.rbbConstructed := rfl
@[simp] theorem State.retire_mutex (s : State) : s.retire.mutex = s.mutex := rfl
@[simp] theorem State.retire_devOpen (s : State) : s.retire.devOpen = s.devOpen := rfl
@[simp] theorem State.retire_cfgErr (s : State) : s.retire.cfgErr = s.cfgErr := rfl
@[simp] theorem State.retire_devFail (s : State) : s.retire.devFail = s.devFail := rfl
@[simp] theorem State.retire_errCode (s : State) : s.retire.errCode = s.errCode := rfl
@[simp] theorem State.retire_rbbOverflow (s : State) : s.retire.rbbOverflow = s.rbbOverflow := rfl
@[simp] theorem State.retire_faulted (s : State) : s.retire.faulted = s.faulted := rfl
@[simp] theorem State.retire_known (s : State) : s.retire.known = s.known := rfl
@[simp] theorem State.retire_mem (s : State) : s.retire.mem = s.mem := rfl
@[simp] theorem State.retire_out (s : State) : s.retire.out = s.out := rfl
@[simp] theorem State.retire_program (s : State) : s.retire.program = s.program := rfl
@[simp] theorem State.retire_pc (s : State) : s.retire.pc = s.pc + 1 := rfl
@[simp] theorem State.retire_dispatch (s : State) : s.retire.dispatch = s.dispatch := rfl

/-! ### `State.emit` -/

@[simp] theorem State.emit_cfg (e : OutEvent) (s : State) : (s.emit e).cfg = s.cfg := rfl
@[simp] theorem State.emit_sched (e : OutEvent) (s : State) : (s.emit e).sched = s.sched := rfl
@[simp] theorem State.emit_csr (e : OutEvent) (s : State) : (s.emit e).csr = s.csr := rfl
@[simp] theorem State.emit_ports (e : OutEvent) (s : State) : (s.emit e).ports = s.ports := rfl
@[simp] theorem State.emit_dma (e : OutEvent) (s : State) : (s.emit e).dma = s.dma := rfl
@[simp] theorem State.emit_mix (e : OutEvent) (s : State) : (s.emit e).mix = s.mix := rfl
@[simp] theorem State.emit_rs (e : OutEvent) (s : State) : (s.emit e).rs = s.rs := rfl
@[simp] theorem State.emit_ring (e : OutEvent) (s : State) : (s.emit e).ring = s.ring := rfl
@[simp] theorem State.emit_rbb (e : OutEvent) (s : State) : (s.emit e).rbb = s.rbb := rfl
@[simp] theorem State.emit_rbbConstructed (e : OutEvent) (s : State) : (s.emit e).rbbConstructed = s.rbbConstructed := rfl
@[simp] theorem State.emit_mutex (e : OutEvent) (s : State) : (s.emit e).mutex = s.mutex := rfl
@[simp] theorem State.emit_devOpen (e : OutEvent) (s : State) : (s.emit e).devOpen = s.devOpen := rfl
@[simp] theorem State.emit_cfgErr (e : OutEvent) (s : State) : (s.emit e).cfgErr = s.cfgErr := rfl
@[simp] theorem State.emit_devFail (e : OutEvent) (s : State) : (s.emit e).devFail = s.devFail := rfl
@[simp] theorem State.emit_errCode (e : OutEvent) (s : State) : (s.emit e).errCode = s.errCode := rfl
@[simp] theorem State.emit_rbbOverflow (e : OutEvent) (s : State) : (s.emit e).rbbOverflow = s.rbbOverflow := rfl
@[simp] theorem State.emit_faulted (e : OutEvent) (s : State) : (s.emit e).faulted = s.faulted := rfl
@[simp] theorem State.emit_known (e : OutEvent) (s : State) : (s.emit e).known = s.known := rfl
@[simp] theorem State.emit_mem (e : OutEvent) (s : State) : (s.emit e).mem = s.mem := rfl
@[simp] theorem State.emit_out (e : OutEvent) (s : State) : (s.emit e).out = s.out ++ [e] := rfl
@[simp] theorem State.emit_program (e : OutEvent) (s : State) : (s.emit e).program = s.program := rfl
@[simp] theorem State.emit_pc (e : OutEvent) (s : State) : (s.emit e).pc = s.pc := rfl
@[simp] theorem State.emit_dispatch (e : OutEvent) (s : State) : (s.emit e).dispatch = s.dispatch := rfl

/-! ### `State.result` -/

@[simp] theorem State.result_cfg (v : Value) (s : State) : (s.result v).cfg = s.cfg := rfl
@[simp] theorem State.result_sched (v : Value) (s : State) : (s.result v).sched = s.sched := rfl
@[simp] theorem State.result_csr (v : Value) (s : State) : (s.result v).csr = s.csr := rfl
@[simp] theorem State.result_ports (v : Value) (s : State) : (s.result v).ports = s.ports := rfl
@[simp] theorem State.result_dma (v : Value) (s : State) : (s.result v).dma = s.dma := rfl
@[simp] theorem State.result_mix (v : Value) (s : State) : (s.result v).mix = s.mix := rfl
@[simp] theorem State.result_rs (v : Value) (s : State) : (s.result v).rs = s.rs := rfl
@[simp] theorem State.result_ring (v : Value) (s : State) : (s.result v).ring = s.ring := rfl
@[simp] theorem State.result_rbb (v : Value) (s : State) : (s.result v).rbb = s.rbb := rfl
@[simp] theorem State.result_rbbConstructed (v : Value) (s : State) : (s.result v).rbbConstructed = s.rbbConstructed := rfl
@[simp] theorem State.result_mutex (v : Value) (s : State) : (s.result v).mutex = s.mutex := rfl
@[simp] theorem State.result_devOpen (v : Value) (s : State) : (s.result v).devOpen = s.devOpen := rfl
@[simp] theorem State.result_cfgErr (v : Value) (s : State) : (s.result v).cfgErr = s.cfgErr := rfl
@[simp] theorem State.result_devFail (v : Value) (s : State) : (s.result v).devFail = s.devFail := rfl
@[simp] theorem State.result_errCode (v : Value) (s : State) : (s.result v).errCode = s.errCode := rfl
@[simp] theorem State.result_rbbOverflow (v : Value) (s : State) : (s.result v).rbbOverflow = s.rbbOverflow := rfl
@[simp] theorem State.result_faulted (v : Value) (s : State) : (s.result v).faulted = s.faulted := rfl
@[simp] theorem State.result_known (v : Value) (s : State) : (s.result v).known = s.known := rfl
@[simp] theorem State.result_mem (v : Value) (s : State) : (s.result v).mem = s.mem := rfl
@[simp] theorem State.result_out (v : Value) (s : State) : (s.result v).out = s.out ++ [.result v] := rfl
@[simp] theorem State.result_program (v : Value) (s : State) : (s.result v).program = s.program := rfl
@[simp] theorem State.result_pc (v : Value) (s : State) : (s.result v).pc = s.pc := rfl
@[simp] theorem State.result_dispatch (v : Value) (s : State) : (s.result v).dispatch = s.dispatch := rfl

/-! ### `State.writeByte` -/

@[simp] theorem State.writeByte_cfg (a : Nat) (b : Byte) (s : State) : (s.writeByte a b).cfg = s.cfg := rfl
@[simp] theorem State.writeByte_sched (a : Nat) (b : Byte) (s : State) : (s.writeByte a b).sched = s.sched := rfl
@[simp] theorem State.writeByte_csr (a : Nat) (b : Byte) (s : State) : (s.writeByte a b).csr = s.csr := rfl
@[simp] theorem State.writeByte_ports (a : Nat) (b : Byte) (s : State) : (s.writeByte a b).ports = s.ports := rfl
@[simp] theorem State.writeByte_dma (a : Nat) (b : Byte) (s : State) : (s.writeByte a b).dma = s.dma := rfl
@[simp] theorem State.writeByte_mix (a : Nat) (b : Byte) (s : State) : (s.writeByte a b).mix = s.mix := rfl
@[simp] theorem State.writeByte_rs (a : Nat) (b : Byte) (s : State) : (s.writeByte a b).rs = s.rs := rfl
@[simp] theorem State.writeByte_ring (a : Nat) (b : Byte) (s : State) : (s.writeByte a b).ring = s.ring := rfl
@[simp] theorem State.writeByte_rbb (a : Nat) (b : Byte) (s : State) : (s.writeByte a b).rbb = s.rbb := rfl
@[simp] theorem State.writeByte_rbbConstructed (a : Nat) (b : Byte) (s : State) : (s.writeByte a b).rbbConstructed = s.rbbConstructed := rfl
@[simp] theorem State.writeByte_mutex (a : Nat) (b : Byte) (s : State) : (s.writeByte a b).mutex = s.mutex := rfl
@[simp] theorem State.writeByte_devOpen (a : Nat) (b : Byte) (s : State) : (s.writeByte a b).devOpen = s.devOpen := rfl
@[simp] theorem State.writeByte_cfgErr (a : Nat) (b : Byte) (s : State) : (s.writeByte a b).cfgErr = s.cfgErr := rfl
@[simp] theorem State.writeByte_devFail (a : Nat) (b : Byte) (s : State) : (s.writeByte a b).devFail = s.devFail := rfl
@[simp] theorem State.writeByte_errCode (a : Nat) (b : Byte) (s : State) : (s.writeByte a b).errCode = s.errCode := rfl
@[simp] theorem State.writeByte_rbbOverflow (a : Nat) (b : Byte) (s : State) : (s.writeByte a b).rbbOverflow = s.rbbOverflow := rfl
@[simp] theorem State.writeByte_faulted (a : Nat) (b : Byte) (s : State) : (s.writeByte a b).faulted = s.faulted := rfl
@[simp] theorem State.writeByte_known (a : Nat) (b : Byte) (s : State) : (s.writeByte a b).known = s.known := rfl
@[simp] theorem State.writeByte_mem (a : Nat) (b : Byte) (s : State) : (s.writeByte a b).mem = Memory.write s.mem a b := rfl
@[simp] theorem State.writeByte_out (a : Nat) (b : Byte) (s : State) : (s.writeByte a b).out = s.out ++ [.memByte a b] := rfl
@[simp] theorem State.writeByte_program (a : Nat) (b : Byte) (s : State) : (s.writeByte a b).program = s.program := rfl
@[simp] theorem State.writeByte_pc (a : Nat) (b : Byte) (s : State) : (s.writeByte a b).pc = s.pc := rfl
@[simp] theorem State.writeByte_dispatch (a : Nat) (b : Byte) (s : State) : (s.writeByte a b).dispatch = s.dispatch := rfl

/-! ### `State.withQueue` -/

@[simp] theorem State.withQueue_cfg (q : List Event) (s : State) : (s.withQueue q).cfg = s.cfg := rfl
@[simp] theorem State.withQueue_sched (q : List Event) (s : State) : (s.withQueue q).sched = { s.sched with evq := q } := rfl
@[simp] theorem State.withQueue_csr (q : List Event) (s : State) : (s.withQueue q).csr = s.csr := rfl
@[simp] theorem State.withQueue_ports (q : List Event) (s : State) : (s.withQueue q).ports = s.ports := rfl
@[simp] theorem State.withQueue_dma (q : List Event) (s : State) : (s.withQueue q).dma = s.dma := rfl
@[simp] theorem State.withQueue_mix (q : List Event) (s : State) : (s.withQueue q).mix = s.mix := rfl
@[simp] theorem State.withQueue_rs (q : List Event) (s : State) : (s.withQueue q).rs = s.rs := rfl
@[simp] theorem State.withQueue_ring (q : List Event) (s : State) : (s.withQueue q).ring = s.ring := rfl
@[simp] theorem State.withQueue_rbb (q : List Event) (s : State) : (s.withQueue q).rbb = s.rbb := rfl
@[simp] theorem State.withQueue_rbbConstructed (q : List Event) (s : State) : (s.withQueue q).rbbConstructed = s.rbbConstructed := rfl
@[simp] theorem State.withQueue_mutex (q : List Event) (s : State) : (s.withQueue q).mutex = s.mutex := rfl
@[simp] theorem State.withQueue_devOpen (q : List Event) (s : State) : (s.withQueue q).devOpen = s.devOpen := rfl
@[simp] theorem State.withQueue_cfgErr (q : List Event) (s : State) : (s.withQueue q).cfgErr = s.cfgErr := rfl
@[simp] theorem State.withQueue_devFail (q : List Event) (s : State) : (s.withQueue q).devFail = s.devFail := rfl
@[simp] theorem State.withQueue_errCode (q : List Event) (s : State) : (s.withQueue q).errCode = s.errCode := rfl
@[simp] theorem State.withQueue_rbbOverflow (q : List Event) (s : State) : (s.withQueue q).rbbOverflow = s.rbbOverflow := rfl
@[simp] theorem State.withQueue_faulted (q : List Event) (s : State) : (s.withQueue q).faulted = s.faulted := rfl
@[simp] theorem State.withQueue_known (q : List Event) (s : State) : (s.withQueue q).known = s.known := rfl
@[simp] theorem State.withQueue_mem (q : List Event) (s : State) : (s.withQueue q).mem = s.mem := rfl
@[simp] theorem State.withQueue_out (q : List Event) (s : State) : (s.withQueue q).out = s.out := rfl
@[simp] theorem State.withQueue_program (q : List Event) (s : State) : (s.withQueue q).program = s.program := rfl
@[simp] theorem State.withQueue_pc (q : List Event) (s : State) : (s.withQueue q).pc = s.pc := rfl
@[simp] theorem State.withQueue_dispatch (q : List Event) (s : State) : (s.withQueue q).dispatch = s.dispatch := rfl

/-! ### `setShift` -/

@[simp] theorem setShift_cfg (x : Rat) (s : State) : (setShift x s).cfg = s.cfg := rfl
@[simp] theorem setShift_sched (x : Rat) (s : State) : (setShift x s).sched = s.sched := rfl
@[simp] theorem setShift_csr (x : Rat) (s : State) : (setShift x s).csr = s.csr := rfl
@[simp] theorem setShift_ports (x : Rat) (s : State) : (setShift x s).ports = s.ports := rfl
@[simp] theorem setShift_dma (x : Rat) (s : State) : (setShift x s).dma = s.dma := rfl
@[simp] theorem setShift_mix (x : Rat) (s : State) : (setShift x s).mix = s.mix := rfl
@[simp] theorem setShift_rs (x : Rat) (s : State) : (setShift x s).rs = { s.rs with shift := x } := rfl
@[simp] theorem setShift_ring (x : Rat) (s : State) : (setShift x s).ring = s.ring := rfl
@[simp] theorem setShift_rbb (x : Rat) (s : State) : (setShift x s).rbb = s.rbb := rfl
@[simp] theorem setShift_rbbConstructed (x : Rat) (s : State) : (setShift x s).rbbConstructed = s.rbbConstructed := rfl
@[simp] theorem setShift_mutex (x : Rat) (s : State) : (setShift x s).mutex = s.mutex := rfl
@[simp] theorem setShift_devOpen (x : Rat) (s : State) : (setShift x s).devOpen = s.devOpen := rfl
@[simp] theorem setShift_cfgErr (x : Rat) (s : State) : (setShift x s).cfgErr = s.cfgErr := rfl
@[simp] theorem setShift_devFail (x : Rat) (s : State) : (setShift x s).devFail = s.devFail := rfl
@[simp] theorem setShift_errCode (x : Rat) (s : State) : (setShift x s).errCode = s.errCode := rfl
@[simp] theorem setShift_rbbOverflow (x : Rat) (s : State) : (setShift x s).rbbOverflow = s.rbbOverflow := rfl
@[simp] theorem setShift_faulted (x : Rat) (s : State) : (setShift x s).faulted = s.faulted := rfl
@[simp] theorem setShift_known (x : Rat) (s : State) : (setShift x s).known = s.known := rfl
@[simp] theorem setShift_mem (x : Rat) (s : State) : (setShift x s).mem = s.mem := rfl
@[simp] theorem setShift_out (x : Rat) (s : State) : (setShift x s).out = s.out := rfl
@[simp] theorem setShift_program (x : Rat) (s : State) : (setShift x s).program = s.program := rfl
@[simp] theorem setShift_pc (x : Rat) (s : State) : (setShift x s).pc = s.pc := rfl
@[simp] theorem setShift_dispatch (x : Rat) (s : State) : (setShift x s).dispatch = s.dispatch := rfl

/-! ### `rsInit` -/

@[simp] theorem rsInit_cfg (v : Variant) (s : State) : (rsInit v s).cfg = s.cfg := rfl
@[simp] theorem rsInit_sched (v : Variant) (s : State) : (rsInit v s).sched = s.sched := rfl
@[simp] theorem rsInit_csr (v : Variant) (s : State) : (rsInit v s).csr = s.csr := rfl
@[simp] theorem rsInit_ports (v : Variant) (s : State) : (rsInit v s).ports = s.ports := rfl
@[simp] theorem rsInit_dma (v : Variant) (s : State) : (rsInit v s).dma = s.dma := rfl
@[simp] theorem rsInit_mix (v : Variant) (s : State) : (rsInit v s).mix = s.mix := rfl
@[simp] theorem rsInit_rs (v : Variant) (s : State) : (rsInit v s).rs = { s.rs with variant := v, phase := 0 } := rfl
@[simp] theorem rsInit_ring (v : Variant) (s : State) : (rsInit v s).ring = (List.replicate (taps v - 1) zeroSample).foldl (Ring.push s.cfg.rbN) (Ring.cleared s.cfg.rbN) := rfl
@[simp] theorem rsInit_rbb (v : Variant) (s : State) : (rsInit v s).rbb = s.rbb := rfl
@[simp] theorem rsInit_rbbConstructed (v : Variant) (s : State) : (rsInit v s).rbbConstructed = s.rbbConstructed := rfl
@[simp] theorem rsInit_mutex (v : Variant) (s : State) : (rsInit v s).mutex = s.mutex := rfl
@[simp] theorem rsInit_devOpen (v : Variant) (s : State) : (rsInit v s).devOpen = s.devOpen := rfl
@[simp] theorem rsInit_cfgErr (v : Variant) (s : State) : (rsInit v s).cfgErr = s.cfgErr := rfl
@[simp] theorem rsInit_devFail (v : Variant) (s : State) : (rsInit v s).devFail = s.devFail := rfl
@[simp] theorem rsInit_errCode (v : Variant) (s : State) : (rsInit v s).errCode = s.errCode := rfl
@[simp] theorem rsInit_rbbOverflow (v : Variant) (s : State) : (rsInit v s).rbbOverflow = s.rbbOverflow := rfl
@[simp] theorem rsInit_faulted (v : Variant) (s : State) : (rsInit v s).faulted = s.faulted := rfl
@[simp] theorem rsInit_known (v : Variant) (s : State) : (rsInit v s).known = s.known := rfl
@[simp] theorem rsInit_mem (v : Variant) (s : State) : (rsInit v s).mem = s.mem := rfl
@[simp] theorem rsInit_out (v : Variant) (s : State) : (rsInit v s).out = s.out := rfl
@[simp] theorem rsInit_program (v : Variant) (s : State) : (rsInit v s).program = s.program := rfl
@[simp] theorem rsInit_pc (v : Variant) (s : State) : (rsInit v s).pc = s.pc := rfl
@[simp] theorem rsInit_dispatch (v : Variant) (s : State) : (rsInit v s).dispatch = s.dispatch := rfl

/-! ### `removeOwnEvents` -/

@[simp] theorem removeOwnEvents_cfg (s : State) : (removeOwnEvents s).cfg = s.cfg := rfl
@[simp] theorem removeOwnEvents_sched (s : State) : (removeOwnEvents s).sched = { s.sched with evq := s.sched.evq.filter (fun e => !(e.cls == .mixer || e.cls == .sequencer)) } := rfl
@[simp] theorem removeOwnEvents_csr (s : State) : (removeOwnEvents s).csr = s.csr := rfl
@[simp] theorem removeOwnEvents_ports (s : State) : (removeOwnEvents s).ports = s.ports := rfl
@[simp] theorem removeOwnEvents_dma (s : State) : (removeOwnEvents s).dma = s.dma := rfl
@[simp] theorem removeOwnEvents_mix (s : State) : (removeOwnEvents s).mix = s.mix := rfl
@[simp] theorem removeOwnEvents_rs (s : State) : (removeOwnEvents s).rs = s.rs := rfl
@[simp] theorem removeOwnEvents_ring (s : State) : (removeOwnEvents s).ring = s.ring := rfl
@[simp] theorem removeOwnEvents_rbb (s : State) : (removeOwnEvents s).rbb = s.rbb := rfl
@[simp] theorem removeOwnEvents_rbbConstructed (s : State) : (removeOwnEvents s).rbbConstructed = s.rbbConstructed := rfl
@[simp] theorem removeOwnEvents_mutex (s : State) : (removeOwnEvents s).mutex = s.mutex := rfl
@[simp] theorem removeOwnEvents_devOpen (s : State) : (removeOwnEvents s).devOpen = s.devOpen := rfl
@[simp] theorem removeOwnEvents_cfgErr (s : State) : (removeOwnEvents s).cfgErr = s.cfgErr := rfl
@[simp] theorem removeOwnEvents_devFail (s : State) : (removeOwnEvents s).devFail = s.devFail := rfl
@[simp] theorem removeOwnEvents_errCode (s : State) : (removeOwnEvents s).errCode = s.errCode := rfl
@[simp] theorem removeOwnEvents_rbbOverflow (s : State) : (removeOwnEvents s).rbbOverflow = s.rbbOverflow := rfl
@[simp] theorem removeOwnEvents_faulted (s : State) : (removeOwnEvents s).faulted = s.faulted := rfl
@[simp] theorem removeOwnEvents_known (s : State) : (removeOwnEvents s).known = s.known := rfl
@[simp] theorem removeOwnEvents_mem (s : State) : (removeOwnEvents s).mem = s.mem := rfl
@[simp] theorem removeOwnEvents_out (s : State) : (removeOwnEvents s).out = s.out := rfl
@[simp] theorem removeOwnEvents_program (s : State) : (removeOwnEvents s).program = s.program := rfl
@[simp] theorem removeOwnEvents_pc (s : State) : (removeOwnEvents s).pc = s.pc := rfl
@[simp] theorem removeOwnEvents_dispatch (s : State) : (removeOwnEvents s).dispatch = s.dispatch := rfl

/-! ### `tickPsg` -/

@[simp] theorem tickPsg_cfg (s : State) : (tickPsg s).cfg = s.cfg := rfl
@[simp] theorem tickPsg_sched (s : State) : (tickPsg s).sched = s.sched := rfl
@[simp] theorem tickPsg_csr (s : State) : (tickPsg s).csr = s.csr := rfl
@[simp] theorem tickPsg_ports (s : State) : (tickPsg s).ports = s.ports := rfl
@[simp] theorem tickPsg_dma (s : State) : (tickPsg s).dma = s.dma := rfl
@[simp] theorem tickPsg_mix (s : State) : (tickPsg s).mix = s.mix := rfl
@[simp] theorem tickPsg_rs (s : State) : (tickPsg s).rs = s.rs := rfl
@[simp] theorem tickPsg_ring (s : State) : (tickPsg s).ring = s.ring := rfl
@[simp] theorem tickPsg_rbb (s : State) : (tickPsg s).rbb = s.rbb := rfl
@[simp] theorem tickPsg_rbbConstructed (s : State) : (tickPsg s).rbbConstructed = s.rbbConstructed := rfl
@[simp] theorem tickPsg_mutex (s : State) : (tickPsg s).mutex = s.mutex := rfl
@[simp] theorem tickPsg_devOpen (s : State) : (tickPsg s).devOpen = s.devOpen := rfl
@[simp] theorem tickPsg_cfgErr (s : State) : (tickPsg s).cfgErr = s.cfgErr := rfl
@[simp] theorem tickPsg_devFail (s : State) : (tickPsg s).devFail = s.devFail := rfl
@[simp] theorem tickPsg_errCode (s : State) : (tickPsg s).errCode = s.errCode := rfl
@[simp] theorem tickPsg_rbbOverflow (s : State) : (tickPsg s).rbbOverflow = s.rbbOverflow := rfl
@[simp] theorem tickPsg_faulted (s : State) : (tickPsg s).faulted = s.faulted := rfl
@[simp] theorem tickPsg_known (s : State) : (tickPsg s).known = s.known := rfl
@[simp] theorem tickPsg_mem (s : State) : (tickPsg s).mem = s.mem := rfl
@[simp] theorem tickPsg_out (s : State) : (tickPsg s).out = s.out ++ [.psgTick .ch0, .psgTick .ch1, .psgTick .ch2, .psgTick .ch3] := rfl
@[simp] theorem tickPsg_program (s : State) : (tickPsg s).program = s.program := rfl
@[simp] theorem tickPsg_pc (s : State) : (tickPsg s).pc = s.pc := rfl
@[simp] theorem tickPsg_dispatch (s : State) : (tickPsg s).dispatch = s.dispatch := rfl

/-! ### `resetRegisters` -/

@[simp] theorem resetRegisters_cfg (s : State) : (resetRegisters s).cfg = s.cfg := rfl
@[simp] theorem resetRegisters_sched (s : State) : (resetRegisters s).sched = s.sched := rfl
@[simp] theorem resetRegisters_csr (s : State) : (resetRegisters s).csr = { s.csr with sndctlL := 0, sndctlH := 0, sndbias := sndbiasOf s.cfg s.cfg.biasReset } := rfl
@[simp] theorem resetRegisters_ports (s : State) : (resetRegisters s).ports = s.ports := rfl
@[simp] theorem resetRegisters_dma (s : State) : (resetRegisters s).dma = { fifo := ⟨[], []⟩, pipe := ⟨⟨0, 0⟩, ⟨0, 0⟩⟩, latch := ⟨0, 0⟩ } := rfl
@[simp] theorem resetRegisters_mix (s : State) : (resetRegisters s).mix = s.mix := rfl
@[simp] theorem resetRegisters_rs (s : State) : (resetRegisters s).rs = s.rs := rfl
@[simp] theorem resetRegisters_ring (s : State) : (resetRegisters s).ring = s.ring := rfl
@[simp] theorem resetRegisters_rbb (s : State) : (resetRegisters s).rbb = s.rbb := rfl
@[simp] theorem resetRegisters_rbbConstructed (s : State) : (resetRegisters s).rbbConstructed = s.rbbConstructed := rfl
@[simp] theorem resetRegisters_mutex (s : State) : (resetRegisters s).mutex = s.mutex := rfl
@[simp] theorem resetRegisters_devOpen (s : State) : (resetRegisters s).devOpen = s.devOpen := rfl
@[simp] theorem resetRegisters_cfgErr (s : State) : (resetRegisters s).cfgErr = false := rfl
@[simp] theorem resetRegisters_devFail (s : State) : (resetRegisters s).devFail = false := rfl
@[simp] theorem resetRegisters_errCode (s : State) : (resetRegisters s).errCode = s.errCode := rfl
@[simp] theorem resetRegisters_rbbOverflow (s : State) : (resetRegisters s).rbbOverflow = s.rbbOverflow := rfl
@[simp] theorem resetRegisters_faulted (s : State) : (resetRegisters s).faulted = s.faulted := rfl
@[simp] theorem resetRegisters_known (s : State) : (resetRegisters s).known = { s.known with sndctlL := true, sndctlH := true, sndbias := true, apu := true, ring := true } := rfl
@[simp] theorem resetRegisters_mem (s : State) : (resetRegisters s).mem = s.mem := rfl
@[simp] theorem resetRegisters_out (s : State) : (resetRegisters s).out = s.out := rfl
@[simp] theorem resetRegisters_program (s : State) : (resetRegisters s).program = s.program := rfl
@[simp] theorem resetRegisters_pc (s : State) : (resetRegisters s).pc = s.pc := rfl
@[simp] theorem resetRegisters_dispatch (s : State) : (resetRegisters s).dispatch = s.dispatch := rfl

/-! ### `placeCommand` -/

@[simp] theorem placeCommand_cfg (s : State) (c : Command) : (placeCommand s c).cfg = s.cfg := rfl
@[simp] theorem placeCommand_sched (s : State) (c : Command) : (placeCommand s c).sched = s.sched := rfl
@[simp] theorem placeCommand_csr (s : State) (c : Command) : (placeCommand s c).csr = s.csr := rfl
@[simp] theorem placeCommand_ports (s : State) (c : Command) : (placeCommand s c).ports = s.ports := rfl
@[simp] theorem placeCommand_dma (s : State) (c : Command) : (placeCommand s c).dma = s.dma := rfl
@[simp] theorem placeCommand_mix (s : State) (c : Command) : (placeCommand s c).mix = s.mix := rfl
@[simp] theorem placeCommand_rs (s : State) (c : Command) : (placeCommand s c).rs = s.rs := rfl
@[simp] theorem placeCommand_ring (s : State) (c : Command) : (placeCommand s c).ring = s.ring := rfl
@[simp] theorem placeCommand_rbb (s : State) (c : Command) : (placeCommand s c).rbb = s.rbb := rfl
@[simp] theorem placeCommand_rbbConstructed (s : State) (c : Command) : (placeCommand s c).rbbConstructed = s.rbbConstructed := rfl
@[simp] theorem placeCommand_mutex (s : State) (c : Command) : (placeCommand s c).mutex = s.mutex := rfl
@[simp] theorem placeCommand_devOpen (s : State) (c : Command) : (placeCommand s c).devOpen = s.devOpen := rfl
@[simp] theorem placeCommand_cfgErr (s : State) (c : Command) : (placeCommand s c).cfgErr = s.cfgErr := rfl
@[simp] theorem placeCommand_devFail (s : State) (c : Command) : (placeCommand s c).devFail = s.devFail := rfl
@[simp] theorem placeCommand_errCode (s : State) (c : Command) : (placeCommand s c).errCode = s.errCode := rfl
@[simp] theorem placeCommand_rbbOverflow (s : State) (c : Command) : (placeCommand s c).rbbOverflow = s.rbbOverflow := rfl
@[simp] theorem placeCommand_faulted (s : State) (c : Command) : (placeCommand s c).faulted = s.faulted := rfl
@[simp] theorem placeCommand_known (s : State) (c : Command) : (placeCommand s c).known = s.known := rfl
@[simp] theorem placeCommand_mem (s : State) (c : Command) : (placeCommand s c).mem = s.mem := rfl
@[simp] theorem placeCommand_out (s : State) (c : Command) : (placeCommand s c).out = s.out := rfl
@[simp] theorem placeCommand_program (s : State) (c : Command) : (placeCommand s c).program = s.program.take s.pc ++ List.replicate (s.pc - s.program.length) ⟨.e, 0x0300000000000000#64⟩ ++ c :: s.program.drop (s.pc + 1) := rfl
@[simp] theorem placeCommand_pc (s : State) (c : Command) : (placeCommand s c).pc = s.pc := rfl
@[simp] theorem placeCommand_dispatch (s : State) (c : Command) : (placeCommand s c).dispatch = s.dispatch := rfl

end Sys2Proof.Machine

namespace Sys2Proof

/-! ### Pairs and quadruples -/

@[simp] theorem Pair.get_put {α : Type} (p : Pair α) (f g : DmaCh) (v : α) :
    (p.put f v).get g = if g = f then v else p.get g := by
  cases f <;> cases g <;> rfl

@[simp] theorem Quad.get_put {α : Type} (q : Quad α) (c d : PsgCh) (v : α) :
    (q.put c v).get d = if d = c then v else q.get d := by
  cases c <;> cases d <;> rfl

@[simp] theorem Stereo.of_l {α : Type} (f : Side → α) : (Stereo.of f).l = f .left := rfl
@[simp] theorem Stereo.of_r {α : Type} (f : Side → α) : (Stereo.of f).r = f .right := rfl

end Sys2Proof
end

