-- ==== Sys2Proof/Laws/Queue.lean ====
section
/-! SUPPORT. The event queue and `Arm` (R24, R137, R139): an insertion adds one event and keeps the order, and the head of an ordered queue
is the least event. -/

namespace Sys2Proof.Machine

/-- The order of R137 is transitive. -/
theorem Event.before_trans {x y z : Event} (h : x.before y = true) (h' : y.before z = true) : x.before z = true := by
  simp only [Event.before, Bool.or_eq_true, Bool.and_eq_true, decide_eq_true_eq] at *
  omega

/-- Two events with different insertion numbers are ordered one way or the other. -/
theorem Event.before_total {x y : Event} (hne : x.seq ≠ y.seq) (h : x.before y ≠ true) : y.before x = true := by
  simp only [Event.before, ne_eq, Bool.or_eq_true, Bool.and_eq_true, decide_eq_true_eq] at *
  omega

/-- No event is before itself. -/
theorem Event.before_irrefl (x : Event) : x.before x = false := by simp [Event.before]

/-- An earlier event has no later target. -/
theorem Event.target_le_of_before {x y : Event} (h : x.before y = true) : x.target ≤ y.target := by
  simp only [Event.before, Bool.or_eq_true, Bool.and_eq_true, decide_eq_true_eq] at h
  omega

/-- The order of R137 on a queue. -/
abbrev Queue.Sorted (q : List Event) : Prop := q.Pairwise (fun x y => x.before y = true)

/-- An insertion adds one event. -/
theorem insertEvent_perm (e : Event) (q : List Event) : (insertEvent e q).Perm (e :: q) := by
  induction q with
  | nil => exact .refl _
  | cons x rest ih =>
    simp only [insertEvent]
    split
    · exact .refl _
    · exact (ih.cons x).trans (.swap e x rest)

/-- What an insertion holds. -/
@[simp] theorem mem_insertEvent {e x : Event} {q : List Event} : x ∈ insertEvent e q ↔ x = e ∨ x ∈ q := by
  rw [(insertEvent_perm e q).mem_iff, List.mem_cons]

@[simp] theorem length_insertEvent (e : Event) (q : List Event) : (insertEvent e q).length = q.length + 1 := by
  simpa using (insertEvent_perm e q).length_eq

/-- An insertion under a fresh number keeps the order. -/
theorem insertEvent_sorted {e : Event} {q : List Event} (hq : Queue.Sorted q) (hs : ∀ x ∈ q, x.seq ≠ e.seq) :
    Queue.Sorted (insertEvent e q) := by
  induction q with
  | nil => simp [insertEvent, Queue.Sorted]
  | cons x rest ih =>
    have hc := List.pairwise_cons.1 hq
    simp only [insertEvent]
    split
    · rename_i hb
      refine List.pairwise_cons.2 ⟨?_, hq⟩
      intro y hy
      rcases List.mem_cons.1 hy with rfl | hy
      · exact hb
      · exact Event.before_trans hb (hc.1 y hy)
    · rename_i hb
      refine List.pairwise_cons.2 ⟨?_, ih hc.2 (fun y hy => hs y (List.mem_cons_of_mem _ hy))⟩
      intro y hy
      rcases mem_insertEvent.1 hy with rfl | hy
      · exact Event.before_total (fun h => hs x (by simp) h.symm) hb
      · exact hc.1 y hy

/-- `Arm` in full: the state with one more event, or the refusal of R139. -/
theorem arm_eq (delta : Nat) (cls : EvClass) (s : State) :
    arm delta cls s =
      if s.sched.now + delta < 2 ^ s.cfg.tsW then
        .ok { s with
          sched :=
            { now := s.sched.now,
              evq := insertEvent { target := s.sched.now + delta, cls := cls, seq := s.sched.seqCtr } s.sched.evq,
              seqCtr := s.sched.seqCtr + 1 } }
      else .error (.refused .timestampOverflow) := rfl

/-- No event of an ordered queue is due exactly when its head is not. -/
theorem dueEvent_none {q : List Event} {now : Nat} (hq : Queue.Sorted q) :
    dueEvent q now = none ↔ ∀ e ∈ q, now < e.target := by
  cases q with
  | nil => simp [dueEvent]
  | cons e rest =>
    have hc := List.pairwise_cons.1 hq
    simp only [dueEvent]
    constructor
    · intro h x hx
      split at h
      · cases h
      · rcases List.mem_cons.1 hx with rfl | hx
        · omega
        · have := Event.target_le_of_before (hc.1 x hx)
          omega
    · intro h
      have := h e (by simp)
      rw [if_neg (by omega)]

/-- The due event is the head of the queue, and its target is not past `now`. -/
theorem dueEvent_some {q rest : List Event} {now : Nat} {e : Event} :
    dueEvent q now = some (e, rest) ↔ q = e :: rest ∧ e.target ≤ now := by
  cases q with
  | nil => simp [dueEvent]
  | cons x xs =>
    simp only [dueEvent]
    split
    · constructor
      · intro h; cases h; exact ⟨rfl, ‹_›⟩
      · rintro ⟨h, -⟩; cases h; rfl
    · constructor
      · intro h; cases h
      · rintro ⟨h, hd⟩; cases h; omega

end Sys2Proof.Machine
end

