-- ==== Sys2Proof/Laws/Ops.lean ====
section
/-! SUPPORT. What each shared operation can do: completing and stopping, the mutex, the buffer that must exist, and the two
buffers' elementary facts. -/

namespace Sys2Proof.Machine

/-! ### Commands and handlers -/

/-- A command that completes on a block that is not halted. -/
theorem runCommand_ok {s t : State} (hf : s.faulted = false) : runCommand s (.ok t) = .next t.retire := by
  simp [runCommand, hf]

/-- A command that stops on a block that is not halted. -/
theorem runCommand_error {s : State} {e : Stop} (hf : s.faulted = false) : runCommand s (.error e) = e.outcome s := by
  simp [runCommand, hf]

/-- A handler that completes on a block that is not halted. -/
theorem runHandler_ok {s t : State} (hf : s.faulted = false) : runHandler s (.ok t) = .next t := by
  simp [runHandler, hf]

/-- A handler that stops on a block that is not halted. -/
theorem runHandler_error {s : State} {e : Stop} (hf : s.faulted = false) : runHandler s (.error e) = e.outcome s := by
  simp [runHandler, hf]

/-- On a halted block a command has no behaviour (R291). -/
theorem runCommand_halted {s : State} {body : Result State} (hf : s.faulted = true) :
    runCommand s body = .fault .halted := by
  simp [runCommand, hf]

/-- On a halted block a handler has no behaviour (R291). -/
theorem runHandler_halted {s : State} {body : Result State} (hf : s.faulted = true) :
    runHandler s body = .fault .halted := by
  simp [runHandler, hf]

/-- A stop answers a next state only by raising a fault. -/
theorem Stop.outcome_next {e : Stop} {s t : State} (h : e.outcome s = .next t) : ∃ v, e = .violation v ∧ t = s.raise v := by
  cases e with
  | violation v => cases h; exact ⟨v, rfl, rfl⟩
  | refused r => cases h
  | stuck f => cases h

/-- All a command can do when it answers a next state: complete, or raise a fault. -/
theorem runCommand_next {s t : State} {body : Result State} (h : runCommand s body = .next t) :
    s.faulted = false ∧ ((∃ u, body = .ok u ∧ t = u.retire) ∨ ∃ v, body = .error (.violation v) ∧ t = s.raise v) := by
  unfold runCommand at h
  split at h
  · cases h
  · refine ⟨by simp_all, ?_⟩
    split at h
    · cases h; exact .inl ⟨_, rfl, rfl⟩
    · obtain ⟨v, rfl, rfl⟩ := Stop.outcome_next h
      exact .inr ⟨v, rfl, rfl⟩

/-- All a handler can do when it answers a next state. -/
theorem runHandler_next {s t : State} {body : Result State} (h : runHandler s body = .next t) :
    s.faulted = false ∧ ((body = .ok t) ∨ ∃ v, body = .error (.violation v) ∧ t = s.raise v) := by
  unfold runHandler at h
  split at h
  · cases h
  · refine ⟨by simp_all, ?_⟩
    split at h
    · cases h; exact .inl rfl
    · obtain ⟨v, rfl, rfl⟩ := Stop.outcome_next h
      exact .inr ⟨v, rfl, rfl⟩

/-! ### Elements that may have no value -/

/-- An element with a value is read. -/
theorem needing_true {α : Type} {has : Bool} {what : Element} {body : Result α} (h : has = true) :
    needing has what body = body := by
  simp [needing, h]

/-- An element without one refuses the operation. -/
theorem needing_false {α : Type} {has : Bool} {what : Element} {body : Result α} (h : has = false) :
    needing has what body = .error (.refused (.noValue what)) := by
  simp [needing, h]

/-- An operation that completed had its element. -/
theorem needing_ok {α : Type} {has : Bool} {what : Element} {body : Result α} {x : α} (h : needing has what body = .ok x) :
    has = true ∧ body = .ok x := by
  unfold needing at h
  split at h
  · exact ⟨‹_›, h⟩
  · cases h

/-- An operation that faulted had its element. -/
theorem needing_violation {α : Type} {has : Bool} {what : Element} {body : Result α} {v : Violation}
    (h : needing has what body = .error (.violation v)) : has = true ∧ body = .error (.violation v) := by
  unfold needing at h
  split at h
  · exact ⟨‹_›, h⟩
  · cases h

/-! ### The mutex and the buffer -/

/-- A state whose mutex is free, with the mutex set and then freed, is the state. -/
theorem mutex_roundtrip {s : State} (h : s.mutex = false) : ({ { s with mutex := true } with mutex := false } : State) = s := by
  cases s; simp_all

/-- An operation under a free mutex. -/
theorem withMutex_eq {s : State} {body : State → Result State} (hm : s.mutex = false) :
    withMutex s body =
      match body { s with mutex := true } with
      | .ok t => .ok { t with mutex := false }
      | .error e => .error e := by
  cases hb : body { s with mutex := true } <;> simp [withMutex, hm, hb]

/-- A completed operation under the mutex found it free and left it free. -/
theorem withMutex_ok {s t : State} {body : State → Result State} (h : withMutex s body = .ok t) :
    s.mutex = false ∧ ∃ u, body { s with mutex := true } = .ok u ∧ t = { u with mutex := false } := by
  unfold withMutex at h
  split at h
  · cases h
  · refine ⟨by simp_all, ?_⟩
    split at h
    · cases h; exact ⟨_, ‹_›, rfl⟩
    · cases h

/-- An operation under the mutex faults only in its body. -/
theorem withMutex_violation {s : State} {v : Violation} {body : State → Result State}
    (h : withMutex s body = .error (.violation v)) :
    s.mutex = false ∧ body { s with mutex := true } = .error (.violation v) := by
  unfold withMutex at h
  split at h
  · cases h
  · refine ⟨by simp_all, ?_⟩
    split at h
    · cases h
    · cases h; assumption

/-- A completed operation on the buffer found it constructed. -/
theorem withBuffer_ok {s t : State} {body : State → Result State} (h : withBuffer s body = .ok t) :
    s.mutex = false ∧ s.rbbConstructed = true ∧ ∃ u, body { s with mutex := true } = .ok u ∧ t = { u with mutex := false } := by
  obtain ⟨hm, u, hu, rfl⟩ := withMutex_ok h
  simp only at hu
  split at hu
  · exact ⟨hm, ‹_›, u, hu, rfl⟩
  · cases hu

/-- An operation on the buffer, when the buffer exists and the mutex is free. -/
theorem withBuffer_eq {s : State} {body : State → Result State} (hm : s.mutex = false) (hc : s.rbbConstructed = true) :
    withBuffer s body =
      match body { s with mutex := true } with
      | .ok t => .ok { t with mutex := false }
      | .error e => .error e := by
  rw [withBuffer, withMutex_eq hm]
  simp only
  rw [if_pos hc]

/-- An operation on a buffer that does not exist raises `RBB_ABSENT` (R165). -/
theorem withBuffer_absent {s : State} {body : State → Result State} (hm : s.mutex = false) (hc : s.rbbConstructed = false) :
    withBuffer s body = .error (.violation .rbbAbsent) := by
  rw [withBuffer, withMutex_eq hm]
  simp only
  rw [if_neg (by simp [hc])]

/-- `RBB.Push` in full (R167, R168). -/
theorem rbbPush_eq {s : State} (x : Stereo Half) (hm : s.mutex = false) (hc : s.rbbConstructed = true) :
    rbbPush x s =
      .ok { s with
        rbb := s.rbb.push s.cfg x
        rbbOverflow := s.rbbOverflow || decide (bufCap s.cfg ≤ s.rbb.size + 1) } := by
  cases s
  simp_all [rbbPush, withBuffer, withMutex]

/-- All `RBB.Push` can do when it completes. -/
theorem rbbPush_ok {s t : State} {x : Stereo Half} (h : rbbPush x s = .ok t) :
    s.mutex = false ∧ s.rbbConstructed = true ∧
      t = { s with
        rbb := s.rbb.push s.cfg x
        rbbOverflow := s.rbbOverflow || decide (bufCap s.cfg ≤ s.rbb.size + 1) } := by
  obtain ⟨hm, hc, -⟩ := withBuffer_ok h
  rw [rbbPush_eq x hm hc] at h
  cases h
  exact ⟨hm, hc, rfl⟩

/-! ### Clamping -/

/-- A clamped integer is in the range. -/
theorem clampInt_range {x lo hi : Int} (h : lo ≤ hi) : lo ≤ clampInt x lo hi ∧ clampInt x lo hi ≤ hi := by
  unfold clampInt; split <;> (try split) <;> omega

/-- A clamped rational is in the range. -/
theorem clampRat_range {x lo hi : Rat} (h : lo ≤ hi) : lo ≤ clampRat x lo hi ∧ clampRat x lo hi ≤ hi := by
  unfold clampRat
  split
  · exact ⟨Rat.le_refl, h⟩
  · split
    · exact ⟨h, Rat.le_refl⟩
    · constructor <;> simp_all

end Sys2Proof.Machine
end

