-- ==== Sys2Proof/Laws/Buffers.lean ====
section
/-! SUPPORT. The two buffers: the ring as the list of its unread values, the block buffer as the list of its queued samples, and what
each operation does to those lists. -/

namespace Sys2Proof.Machine

/-! ### RingBuffer -/

@[simp] theorem Ring.length_unread (n : Nat) (r : Ring) : (r.unread n).length = r.available := by simp [Ring.unread]

/-- The unread value at an offset. -/
theorem Ring.getElem?_unread (n : Nat) (r : Ring) (k : Nat) :
    (r.unread n)[k]? = if k < r.available then some (r.slot n (r.head + k)) else none := by
  unfold Ring.unread
  split
  · rename_i h
    rw [List.getElem?_map, List.getElem?_range h]; rfl
  · rename_i h
    exact List.getElem?_eq_none (by simpa using h)

/-- A push onto a ring keeps its shape. -/
theorem Ring.push_ok {n : Nat} {r : Ring} (x : Stereo Rat) (h : r.Ok n) : (r.push n x).Ok n :=
  ⟨by simpa [Ring.push] using h.slots, Nat.le_succ_of_le h.cursors⟩

/-- A cleared ring has its shape. -/
theorem Ring.cleared_ok (n : Nat) : (Ring.cleared n).Ok n := ⟨by simp [Ring.cleared], Nat.le_refl _⟩

/-- A pop keeps the shape. -/
theorem Ring.pop_ok {n : Nat} {r r' : Ring} {v : Stereo Rat} (h : r.Ok n) (hp : r.pop n = .ok (v, r')) : r'.Ok n := by
  unfold Ring.pop at hp
  split at hp
  · cases hp
  · cases hp
    have := h.cursors
    refine ⟨h.slots, ?_⟩
    simp only [Ring.available] at *
    omega

/-- A push adds one to what is available. -/
theorem Ring.available_push {n : Nat} {r : Ring} (x : Stereo Rat) (h : r.head ≤ r.tail) :
    (r.push n x).available = r.available + 1 := by
  simp only [Ring.push, Ring.available]; omega

/-- The slot a cursor names after a push: the pushed value at the write cursor, what was there elsewhere. -/
theorem Ring.slot_push {n : Nat} {r : Ring} (x : Stereo Rat) (c : Nat) (hn : 0 < n) (h : r.data.length = n) :
    (r.push n x).slot n c = if c % n = r.tail % n then x else r.slot n c := by
  have hb : r.tail % n < r.data.length := by rw [h]; exact Nat.mod_lt _ hn
  unfold Ring.slot Ring.push
  simp only [List.getD_eq_getElem?_getD, List.getElem?_set]
  by_cases he : c % n = r.tail % n
  · simp [he, hb]
  · simp [he, Ne.symm he]

/-- Within capacity a push appends to the unread values (R157). -/
theorem Ring.unread_push {n : Nat} {r : Ring} (x : Stereo Rat) (h : r.Ok n) (hlt : r.available < n) :
    (r.push n x).unread n = r.unread n ++ [x] := by
  have hc := h.cursors
  have hn : 0 < n := by omega
  unfold Ring.unread
  rw [Ring.available_push x hc, List.range_succ, List.map_append]
  congr 1
  · apply List.map_congr_left
    intro k hk
    have hk' : k < r.available := by simpa using hk
    rw [Ring.slot_push _ _ hn h.slots, if_neg]
    · rfl
    · intro he
      have hle : r.head + k ≤ r.tail := by simp only [Ring.available] at hk'; omega
      have hd : n ∣ r.tail - (r.head + k) := (Nat.modEq_iff_dvd' hle).1 he
      have h0 := Nat.le_of_dvd (by simp only [Ring.available] at hk'; omega) hd
      simp only [Ring.available] at hlt
      omega
  · have : r.head + r.available = r.tail := by simp only [Ring.available]; omega
    simp [Ring.slot_push _ _ hn h.slots, show (r.push n x).head = r.head from rfl, this]

/-- A pop of a ring with unread values takes the first of them. -/
theorem Ring.pop_unread {n : Nat} {r : Ring} {v : Stereo Rat} {rest : List (Stereo Rat)} (h : r.unread n = v :: rest) :
    r.pop n = .ok (v, { r with head := r.head + 1 }) ∧
      ({ r with head := r.head + 1 } : Ring).unread n = rest := by
  have hl : r.available = rest.length + 1 := by simpa [h] using (Ring.length_unread n r).symm
  have h0 : r.slot n r.head = v := by
    have := Ring.getElem?_unread n r 0
    rw [h, if_pos (by omega)] at this
    simpa using this.symm
  constructor
  · simp [Ring.pop, h0, hl]
  · have ha : ({ r with head := r.head + 1 } : Ring).available = rest.length := by
      simp only [Ring.available] at *; omega
    apply List.ext_getElem?
    intro k
    have := Ring.getElem?_unread n r (k + 1)
    rw [h] at this
    rw [Ring.getElem?_unread, ha]
    simp only [List.getElem?_cons_succ] at this
    rw [this, hl]
    simp only [Ring.slot, Nat.add_lt_add_iff_right, show r.head + 1 + k = r.head + (k + 1) by omega]

/-- A ring cleared and filled with silent samples, within its capacity, holds just those. -/
theorem Ring.unread_silent {n p : Nat} (h : p ≤ n) :
    let r := (List.replicate p zeroSample).foldl (Ring.push n) (Ring.cleared n)
    r.Ok n ∧ r.available = p ∧ r.unread n = List.replicate p zeroSample := by
  induction p with
  | zero => exact ⟨Ring.cleared_ok n, rfl, rfl⟩
  | succ p ih =>
    obtain ⟨h1, h2, h3⟩ := ih (by omega)
    simp only [List.replicate_succ', List.foldl_append, List.foldl_cons, List.foldl_nil]
    exact ⟨Ring.push_ok _ h1, by rw [Ring.available_push _ h1.cursors, h2],
      by rw [Ring.unread_push _ h1 (by omega), h3]⟩

/-- The same without a capacity: the shape is kept. -/
theorem Ring.silent_ok (n p : Nat) : ((List.replicate p zeroSample).foldl (Ring.push n) (Ring.cleared n)).Ok n := by
  induction p with
  | zero => exact Ring.cleared_ok n
  | succ p ih =>
    simp only [List.replicate_succ', List.foldl_append, List.foldl_cons, List.foldl_nil]
    exact Ring.push_ok _ ih

/-! ### RingBlockBuffer -/

@[simp] theorem BlockBuffer.length_queued (c : Cfg) (b : BlockBuffer) : (b.queued c).length = b.size := by
  simp [BlockBuffer.queued]

/-- The queued sample at an index. -/
theorem BlockBuffer.getElem?_queued (c : Cfg) (b : BlockBuffer) (j : Nat) :
    (b.queued c)[j]? = if j < b.size then some (b.slot ((b.base c + j) % bufCap c)) else none := by
  unfold BlockBuffer.queued
  split
  · rename_i h
    rw [List.getElem?_map, List.getElem?_range h]; rfl
  · rename_i h
    exact List.getElem?_eq_none (by simpa using h)

/-- A buffer just constructed has its shape. -/
theorem BlockBuffer.fresh_ok {c : Cfg} (hn : 0 < c.rbbN) (hb : 0 < c.rbbB) : (BlockBuffer.fresh c).Ok c :=
  ⟨by simp [BlockBuffer.fresh], hb, Nat.mul_pos hn hb⟩

/-- A push keeps the shape. -/
theorem BlockBuffer.push_ok {c : Cfg} {b : BlockBuffer} (x : Stereo Half) (h : b.Ok c) : (b.push c x).Ok c :=
  ⟨by simpa [BlockBuffer.push] using h.slots, h.block, Nat.mod_lt _ (by have := h.size; omega)⟩

/-- Dropping a block keeps the shape. -/
theorem BlockBuffer.dropBlock_ok {c : Cfg} {b : BlockBuffer} (h : b.Ok c) : (b.dropBlock c).Ok c := by
  have := h.block
  have := h.size
  exact ⟨h.slots, Nat.mod_lt _ (by omega), by simp only [BlockBuffer.dropBlock]; omega⟩

/-- A slot of the pushed buffer. -/
theorem BlockBuffer.slot_push {c : Cfg} {b : BlockBuffer} (x : Stereo Half) (i : Nat) (h : b.Ok c) :
    (b.push c x).slot i = if i = (b.base c + b.size) % bufCap c then x else b.slot i := by
  have hb : (b.base c + b.size) % bufCap c < b.data.length := by
    rw [h.slots]; exact Nat.mod_lt _ (by have := h.size; omega)
  unfold BlockBuffer.slot BlockBuffer.push
  simp only [List.getD_eq_getElem?_getD, List.getElem?_set]
  by_cases he : i = (b.base c + b.size) % bufCap c
  · simp [he, hb]
  · simp [he, Ne.symm he]

/-- Two indices less than a capacity apart name different slots. -/
theorem mod_ne_of_lt {a b n : Nat} (h : a < b) (h' : b < a + n) : a % n ≠ b % n := by
  intro he
  have hd : n ∣ b - a := (Nat.modEq_iff_dvd' (Nat.le_of_lt h)).1 he
  have := Nat.le_of_dvd (by omega) hd
  omega

/-- Within capacity a push appends to the queued samples. -/
theorem BlockBuffer.queued_push {c : Cfg} {b : BlockBuffer} (x : Stereo Half) (h : b.Ok c) (hlt : b.size + 1 < bufCap c) :
    (b.push c x).queued c = b.queued c ++ [x] := by
  have hs : (b.push c x).size = b.size + 1 := by simp [BlockBuffer.push, Nat.mod_eq_of_lt hlt]
  unfold BlockBuffer.queued
  rw [hs, List.range_succ, List.map_append]
  congr 1
  · apply List.map_congr_left
    intro k hk
    have hk' : k < b.size := by simpa using hk
    rw [BlockBuffer.slot_push x _ h, if_neg]
    · rfl
    · exact mod_ne_of_lt (by show b.base c + k < _; omega) (by show b.base c + b.size < b.base c + k + _; omega)
  · simp [BlockBuffer.slot_push x _ h, show (b.push c x).base c = b.base c from rfl]

/-- A block is whole: `N` samples. -/
theorem BlockBuffer.length_block {c : Cfg} {b : BlockBuffer} (h : b.Ok c) : (b.block c).length = c.rbbN := by
  have hb := h.block
  have : (b.currentBlock + 1) * c.rbbN ≤ c.rbbB * c.rbbN := Nat.mul_le_mul_right _ hb
  simp only [BlockBuffer.block, List.length_take, List.length_drop, h.slots, bufCap, BlockBuffer.base]
  rw [Nat.mul_comm c.rbbN c.rbbB]
  rw [Nat.add_mul, Nat.one_mul] at this
  omega

/-- The slots of the current block do not wrap. -/
theorem BlockBuffer.base_add_lt {c : Cfg} {b : BlockBuffer} (h : b.Ok c) {j : Nat} (hj : j < c.rbbN) :
    b.base c + j < bufCap c := by
  have hb := h.block
  have : (b.currentBlock + 1) * c.rbbN ≤ c.rbbB * c.rbbN := Nat.mul_le_mul_right _ hb
  simp only [bufCap, BlockBuffer.base]
  rw [Nat.mul_comm c.rbbN c.rbbB]
  rw [Nat.add_mul, Nat.one_mul] at this
  omega

/-- The sample of a block at an index. -/
theorem BlockBuffer.getElem?_block {c : Cfg} {b : BlockBuffer} (h : b.Ok c) (j : Nat) :
    (b.block c)[j]? = if j < c.rbbN then some (b.slot ((b.base c + j) % bufCap c)) else none := by
  split
  · rename_i hj
    have hlt := BlockBuffer.base_add_lt h hj
    rw [Nat.mod_eq_of_lt hlt]
    unfold BlockBuffer.block BlockBuffer.slot
    rw [List.getElem?_take_of_lt hj, List.getElem?_drop, List.getD_eq_getElem?_getD,
      List.getElem?_eq_getElem (by rw [h.slots]; exact hlt)]
    rfl
  · rename_i hj
    exact List.getElem?_eq_none (by rw [BlockBuffer.length_block h]; omega)

/-- The base after a block is dropped. -/
theorem BlockBuffer.base_dropBlock {c : Cfg} {b : BlockBuffer} (h : b.Ok c) (k : Nat) :
    ((b.dropBlock c).base c + k) % bufCap c = (b.base c + (c.rbbN + k)) % bufCap c := by
  have hb := h.block
  simp only [BlockBuffer.base, BlockBuffer.dropBlock]
  by_cases hw : b.currentBlock + 1 < c.rbbB
  · rw [Nat.mod_eq_of_lt hw, Nat.add_mul, Nat.one_mul, Nat.add_assoc]
  · have he : b.currentBlock + 1 = c.rbbB := by omega
    rw [he, Nat.mod_self, Nat.zero_mul, Nat.zero_add]
    have : b.currentBlock * c.rbbN + (c.rbbN + k) = bufCap c + k := by
      have : (b.currentBlock + 1) * c.rbbN = c.rbbB * c.rbbN := by rw [he]
      rw [Nat.add_mul, Nat.one_mul] at this
      simp only [bufCap]
      rw [Nat.mul_comm c.rbbN c.rbbB]
      omega
    rw [this, Nat.add_mod_left]

/-- With a block queued, the queue is the block and then what stays queued. -/
theorem BlockBuffer.queued_dropBlock {c : Cfg} {b : BlockBuffer} (h : b.Ok c) (hn : c.rbbN ≤ b.size) :
    b.queued c = b.block c ++ (b.dropBlock c).queued c := by
  apply List.ext_getElem?
  intro j
  rw [BlockBuffer.getElem?_queued, List.getElem?_append, BlockBuffer.length_block h, BlockBuffer.getElem?_block h,
    BlockBuffer.getElem?_queued, BlockBuffer.base_dropBlock h]
  have hs : (b.dropBlock c).size = b.size - c.rbbN := rfl
  rw [hs]
  by_cases hj : j < c.rbbN
  · rw [if_pos hj, if_pos hj, if_pos (by omega)]
  · rw [if_neg hj, show c.rbbN + (j - c.rbbN) = j by omega]
    by_cases hj' : j < b.size
    · rw [if_pos hj', if_pos (by omega)]; rfl
    · rw [if_neg hj', if_neg (by omega)]

/-- With samples queued, `Back()` is the last of them. -/
theorem BlockBuffer.back_eq {c : Cfg} {b : BlockBuffer} (h : 0 < b.size) :
    (b.queued c).getLast? = some (b.back c) := by
  rw [List.getLast?_eq_getElem?, BlockBuffer.length_queued, BlockBuffer.getElem?_queued, if_pos (by omega),
    BlockBuffer.back, if_pos h, show b.base c + (b.size - 1) = b.base c + b.size - 1 by omega]

/-- With less than a block queued the queue does not wrap: it is what a partial copy reads. -/
theorem BlockBuffer.partial_eq {c : Cfg} {b : BlockBuffer} (h : b.Ok c) (hn : b.size < c.rbbN) :
    (b.data.drop (b.base c)).take b.size = b.queued c := by
  apply List.ext_getElem?
  intro j
  rw [BlockBuffer.getElem?_queued]
  split
  · rename_i hj
    have hlt := BlockBuffer.base_add_lt h (show j < c.rbbN by omega)
    rw [List.getElem?_take_of_lt hj, List.getElem?_drop, Nat.mod_eq_of_lt hlt, BlockBuffer.slot, List.getD_eq_getElem?_getD,
      List.getElem?_eq_getElem (by rw [h.slots]; exact hlt)]
    rfl
  · rename_i hj
    exact List.getElem?_eq_none (by simp; omega)

end Sys2Proof.Machine
end

