-- ==== Sys2Proof/Laws/Resampler.lean ====
section
/-! SUPPORT. The resampler: the loop of R190 as a list of phases, how many outputs there are (R193), the window, what `RS.Write`,
`RS.Rate` and `RS.Init` do, and that the weights of a reference kernel sum to 1. -/

namespace Sys2Proof.Machine

/-! ### The loop of R190 -/

/-- With a positive shift, the output due at turn `k` is due exactly for the `k` below `outputCount` (R193). -/
theorem lt_outputCount {shift phase : Rat} (hs : 0 < shift) (k : Nat) :
    k < outputCount shift phase ↔ phase + (k : Rat) * shift < 1 := by
  unfold outputCount
  rw [Int.lt_toNat]
  have h1 : ((k : Int) < Rat.ceil ((1 - phase) / shift)) ↔ ((k : Int) : Rat) < (1 - phase) / shift := by
    rw [← not_le, ← not_le, Rat.ceil_le_iff]
  rw [h1, lt_div_iff₀ hs]
  constructor <;> intro h <;> push_cast at * <;> linarith

/-- The loop in full: as many turns as there are outputs, each at its phase, and the phase left behind. -/
theorem rsLoop_eq (output : Rat → Stereo Rat) {shift : Rat} (fuel : Nat) (phase : Rat)
    (hc : ∀ k : Nat, k < fuel ↔ phase + (k : Rat) * shift < 1) :
    rsLoop output shift fuel phase =
      some ((List.range fuel).map (fun (k : Nat) => output (phase + (k : Rat) * shift)), phase + (fuel : Rat) * shift) := by
  induction fuel generalizing phase with
  | zero =>
    have : ¬ phase < 1 := by have := hc 0; simpa using this
    simp [rsLoop, this]
  | succ n ih =>
    have h0 : phase < 1 := by have := hc 0; simpa using this
    have ih' := ih (phase + shift) (fun k => by
      have := hc (k + 1)
      push_cast at this
      rw [show phase + shift + (k : Rat) * shift = phase + ((k : Rat) + 1) * shift by ring, ← this]
      omega)
    rw [rsLoop, if_pos h0, ih', List.range_succ_eq_map, List.map_cons, List.map_map]
    simp only [Option.some.injEq, Prod.mk.injEq, List.cons.injEq]
    refine ⟨⟨by simp, ?_⟩, by push_cast; ring⟩
    apply List.map_congr_left
    intro k _
    simp only [Function.comp_apply]
    congr 1
    push_cast
    ring

/-- The phase after a write: not negative, and below `max 1 shift` if it was before (R192). -/
theorem phase_after {shift phase : Rat} {n : Nat} (hc : ∀ k : Nat, k < n ↔ phase + (k : Rat) * shift < 1) :
    0 ≤ phase + (n : Rat) * shift - 1 ∧
      (phase < max 1 shift → phase + (n : Rat) * shift - 1 < max 1 shift) := by
  have h1 := (not_congr (hc n)).1 (by omega)
  constructor
  · linarith
  · intro hp
    cases n with
    | zero => simp only [Nat.cast_zero, zero_mul, add_zero]; linarith
    | succ m =>
      have h2 := (hc m).1 (by omega)
      have h3 := le_max_right 1 shift
      push_cast
      linarith [show phase + ((m : Rat) + 1) * shift = phase + (m : Rat) * shift + shift by ring]

/-! ### The window and `RS.Write` -/

/-- A window that is there is the first of the unread values. -/
theorem window_eq {n p : Nat} {r : Ring} (h : p ≤ r.available) : window n r p = .ok ((r.unread n).take p) := by
  rw [window, if_pos h]
  congr 1
  unfold Ring.unread
  rw [← List.map_take, List.take_range, Nat.min_eq_left h]

/-- A window that is not there raises `RB_RANGE` (R154). -/
theorem window_short {n p : Nat} {r : Ring} (h : r.available < p) : window n r p = .error (.violation .rbRange) := by
  rw [window, if_neg (by omega)]

/-- `RS.Write` in full, when no output is due or the window is there (R190). -/
theorem rsWrite_eq {x : Stereo Rat} {s : State} (hs : 0 < s.rs.shift) (hr : s.ring.head ≤ s.ring.tail)
    (hw : taps s.rs.variant ≤ s.ring.available + 1 ∨ 1 ≤ s.rs.phase) :
    let pushed := s.ring.push s.cfg.rbN x
    let h := (pushed.unread s.cfg.rbN).take (taps s.rs.variant)
    let count := outputCount s.rs.shift s.rs.phase
    rsWrite x s =
      .ok ((List.range count).map (fun (k : Nat) =>
          interpolate (kernel s.cfg.kernel s.rs.variant s.rs.shift (s.rs.phase + (k : Rat) * s.rs.shift)) h),
        { s with
          rs := { s.rs with phase := s.rs.phase + (count : Rat) * s.rs.shift - 1 }
          ring := { pushed with head := s.ring.head + 1 } }) := by
  intro pushed h count
  have ha : pushed.available = s.ring.available + 1 := Ring.available_push x hr
  have hp : pushed.pop s.cfg.rbN = .ok (pushed.slot s.cfg.rbN pushed.head, { pushed with head := s.ring.head + 1 }) := by
    rw [Ring.pop, if_neg (by omega)]; rfl
  have hl := fun output => rsLoop_eq output (outputCount s.rs.shift s.rs.phase) s.rs.phase (fun k => lt_outputCount hs k)
  unfold rsWrite
  by_cases h1 : s.rs.phase < 1
  · have hw' : taps s.rs.variant ≤ pushed.available := by
      rcases hw with hw | hw
      · omega
      · exact absurd h1 (not_lt.2 hw)
    simp only [if_pos h1]
    rw [window_eq (n := s.cfg.rbN) hw']
    simp only [hl]
    rw [hp]
  · have h0 : outputCount s.rs.shift s.rs.phase = 0 := by
      have := (not_congr (lt_outputCount hs (phase := s.rs.phase) 0)).2 (by simpa using h1)
      omega
    simp only [if_neg h1, hl]
    rw [hp]
    simp [count, h0]

/-- `RS.Write` with an output due and a short window (R190, R154). -/
theorem rsWrite_short {x : Stereo Rat} {s : State} (hr : s.ring.head ≤ s.ring.tail)
    (hw : s.ring.available + 1 < taps s.rs.variant) (hp : s.rs.phase < 1) : rsWrite x s = .error (.violation .rbRange) := by
  have ha : (s.ring.push s.cfg.rbN x).available = s.ring.available + 1 := Ring.available_push x hr
  simp only [rsWrite, if_pos hp]
  rw [window_short (by omega)]

/-- All `RS.Write` can do with a positive shift and cursors in order: complete, or find its window short. -/
theorem rsWrite_all (x : Stereo Rat) {s : State} (hs : 0 < s.rs.shift) (hr : s.ring.Ok s.cfg.rbN) :
    rsWrite x s = .error (.violation .rbRange) ∨
    ∃ ys phase ring, rsWrite x s = .ok (ys, { s with rs := { s.rs with phase := phase }, ring := ring }) ∧
      ys.length = outputCount s.rs.shift s.rs.phase ∧ 0 ≤ phase ∧ ring.Ok s.cfg.rbN ∧
      ring.available = s.ring.available := by
  by_cases hw : taps s.rs.variant ≤ s.ring.available + 1 ∨ 1 ≤ s.rs.phase
  · refine .inr ⟨_, _, _, rsWrite_eq hs hr.cursors hw, by simp,
      (phase_after (fun k => lt_outputCount hs k)).1, ?_, ?_⟩
    · have := hr.cursors
      exact ⟨(Ring.push_ok x hr).slots, by simp only [Ring.push]; omega⟩
    · have := hr.cursors
      simp only [Ring.push, Ring.available]; omega
  · have h1 := fun h => hw (.inl h)
    have h2 := fun h => hw (.inr h)
    exact .inl (rsWrite_short hr.cursors (by omega) (not_le.1 h2))

/-! ### `RS.Init`, `ConfigError`, `RS.Rate` -/

/-- All a configuration error does (R189). -/
theorem configError_eq (s : State) :
    configError s =
      { s with
        cfgErr := true
        rs := if s.rs.variant = s.cfg.rsDefault then s.rs else { s.rs with variant := s.cfg.rsDefault, phase := 0 }
        ring := if s.rs.variant = s.cfg.rsDefault then s.ring else (rsInit s.cfg.rsDefault s).ring } := by
  unfold configError
  split
  · simp_all
  · rfl

/-- `RS.Rate` changes the resampler, its ring and `cfg_err` alone, and leaves the shift positive and the ring in shape. -/
theorem rsRate_frame (src dst : Nat) (s : State) :
    ∃ e rs ring, rsRate src dst s = { s with cfgErr := e, rs := rs, ring := ring } ∧
      (0 < rs.shift) ∧ (0 ≤ s.rs.phase → 0 ≤ rs.phase) ∧ (s.ring.Ok s.cfg.rbN → ring.Ok s.cfg.rbN) := by
  have pos : ¬(src = 0 ∨ dst = 0) → (0 : Rat) < (src : Rat) / (dst : Rat) := by
    intro h
    have h1 : (0 : Rat) < (src : Rat) := by exact_mod_cast (by omega : 0 < src)
    have h2 : (0 : Rat) < (dst : Rat) := by exact_mod_cast (by omega : 0 < dst)
    exact div_pos h1 h2
  unfold rsRate
  split
  · refine ⟨_, _, _, by rw [configError_eq]; rfl, ?_, ?_, ?_⟩
    · split <;> norm_num
    · intro h; split <;> simp_all
    · intro h; split
      · exact h
      · exact Ring.silent_ok _ _
  · split
    · exact ⟨_, _, _, rfl, pos ‹_›, id, id⟩
    · refine ⟨_, _, _, by rw [configError_eq]; rfl, ?_, ?_, ?_⟩
      · split <;> exact pos ‹_›
      · intro h; split <;> simp_all
      · intro h; split
        · exact h
        · exact Ring.silent_ok _ _

/-! ### Weights -/

/-- The taps of every variant: from 1 to 256. -/
theorem taps_range (v : Variant) : 1 ≤ taps v ∧ taps v ≤ 256 := by cases v <;> decide

/-- A weighted sum of equal samples is the sum of the weights times the sample. -/
theorem sum_mul_const (weight : Nat → Rat) (p : Nat) (a : Rat) :
    ((List.range p).map (fun j => weight j * a)).sum = ((List.range p).map weight).sum * a := by
  induction p with
  | zero => simp
  | succ p ih => simp only [List.range_succ, List.map_append, List.sum_append, ih]; simp; ring

/-- The reference Sinc weights sum to 1 (R199). -/
theorem sincRef_sum (v : Variant) (shift mu : Rat) : ((List.range (taps v)).map (sincRef v shift mu)).sum = 1 := by
  obtain ⟨p, hp⟩ : ∃ p, taps v = p + 1 := ⟨taps v - 1, by have := (taps_range v).1; omega⟩
  have hl : (List.range p).map (sincRef v shift mu) = (List.range p).map (Config.sincWeight v shift mu) := by
    apply List.map_congr_left
    intro j hj
    have : j < p := by simpa using hj
    rw [sincRef, if_pos (by omega)]
  have hlast : sincRef v shift mu p = 1 - ((List.range p).map (Config.sincWeight v shift mu)).sum := by
    rw [sincRef, if_neg (by omega), hp, Nat.add_sub_cancel]
  rw [hp, List.range_succ, List.map_append, List.sum_append, hl, List.map_singleton, List.sum_singleton, hlast]
  ring

end Sys2Proof.Machine
end

