-- ==== Sys2Proof/Laws/Apu.lean ====
section
/-! SUPPORT. The parts of `APU.RESET` and `APU.OFF` in full. -/

namespace Sys2Proof.Machine

/-- No event of this block's classes is left when they are removed: there are no others (R24). -/
@[simp] theorem removeOwnEvents_empty (s : State) :
    s.sched.evq.filter (fun e => !(e.cls == .mixer || e.cls == .sequencer)) = [] := by
  rw [List.filter_eq_nil_iff]
  intro e _
  cases e.cls <;> decide

/-- Part 2 in full (R217). -/
theorem resetDevice_eq {s : State} (hm : s.mutex = false) :
    resetDevice s =
      .ok { s with
        out := s.out ++ [.devClose, .devOpen]
        rbb := BlockBuffer.fresh s.cfg
        rbbConstructed := true
        devOpen := s.ports.devOk
        devFail := s.devFail || !s.ports.devOk } := by
  simp only [resetDevice]
  rw [withMutex_eq (s := ({ s.emit .devClose with devOpen := false } : State)) hm]
  simp only [State.emit]
  by_cases hd : s.ports.devOk = true <;> simp [hm, hd]

/-- Parts 3 and 4: the resampler (R218, R219) as `RS.Init` followed by `RS.Rate`. -/
theorem resetVariant_eq (s : State) :
    resetVariant s =
      rsInit ((interpVariant s.csr.interp).getD s.cfg.rsDefault)
        { s with cfgErr := s.cfgErr || decide (interpVariant s.csr.interp = none) } := by
  unfold resetVariant
  cases h : interpVariant s.csr.interp with
  | none => simp
  | some v => simp

/-- Part 6 (R221) on an empty queue. -/
theorem resetArm_eq {s : State} (hq : s.sched.evq = []) :
    resetArm s =
      if s.sched.now + roundHalfUp s.cfg.cpsNum s.cfg.cpsDen < 2 ^ s.cfg.tsW ∧ s.sched.now + s.cfg.seqCycles < 2 ^ s.cfg.tsW then
        .ok { s with
          mix := { epoch := s.sched.now, n := 1 }
          sched :=
            { now := s.sched.now,
              evq :=
                insertEvent { target := s.sched.now + s.cfg.seqCycles, cls := .sequencer, seq := s.sched.seqCtr + 1 }
                  [{ target := s.sched.now + roundHalfUp s.cfg.cpsNum s.cfg.cpsDen, cls := .mixer, seq := s.sched.seqCtr }],
              seqCtr := s.sched.seqCtr + 2 } }
      else .error (.refused .timestampOverflow) := by
  unfold resetArm
  simp only [arm_eq]
  by_cases h1 : s.sched.now + roundHalfUp s.cfg.cpsNum s.cfg.cpsDen < 2 ^ s.cfg.tsW
  · by_cases h2 : s.sched.now + s.cfg.seqCycles < 2 ^ s.cfg.tsW
    · simp [h1, h2, hq, insertEvent]
    · simp [h1, h2]
  · simp [h1]

/-- The resampler, its ring and `cfg_err` after parts 3 and 4, from a state whose `cfg_err` is clear. -/
theorem resetRates_frame (s : State) :
    ∃ e rs ring, resetRates (resetVariant s) = { s with cfgErr := e, rs := rs, ring := ring } ∧
      0 < rs.shift ∧ 0 ≤ rs.phase ∧ ring.Ok s.cfg.rbN := by
  rw [resetVariant_eq]
  obtain ⟨e, rs, ring, h, h1, h2, h3⟩ :=
    rsRate_frame s.cfg.srcRate s.ports.devRate.toNat
      (rsInit ((interpVariant s.csr.interp).getD s.cfg.rsDefault)
        { s with cfgErr := s.cfgErr || decide (interpVariant s.csr.interp = none) })
  exact ⟨e, rs, ring, h, h1, h2 (by simp), h3 (Ring.silent_ok _ _)⟩

/-- The state after parts 1 and 2 (R216, R217). -/
def afterDevice (s : State) : State :=
  { resetRegisters s with
    out := s.out ++ [.devClose, .devOpen]
    rbb := BlockBuffer.fresh s.cfg
    rbbConstructed := true
    devOpen := s.ports.devOk
    devFail := !s.ports.devOk }

/-- `APU.RESET` in full: it completes exactly when the two targets fit (R139, R215). -/
theorem execApuReset_eq {s : State} (hf : s.faulted = false) (hm : s.mutex = false) (hd : s.known.dev = true) :
    ∃ e rs ring, resetRates (resetVariant (afterDevice s)) = { afterDevice s with cfgErr := e, rs := rs, ring := ring } ∧
      0 < rs.shift ∧ 0 ≤ rs.phase ∧ ring.Ok s.cfg.rbN ∧
      execApuReset s =
        if s.sched.now + roundHalfUp s.cfg.cpsNum s.cfg.cpsDen < 2 ^ s.cfg.tsW ∧ s.sched.now + s.cfg.seqCycles < 2 ^ s.cfg.tsW then
          .next { afterDevice s with
            cfgErr := e
            rs := rs
            ring := ring
            mix := { epoch := s.sched.now, n := 1 }
            sched :=
              { now := s.sched.now,
                evq :=
                  insertEvent { target := s.sched.now + s.cfg.seqCycles, cls := .sequencer, seq := s.sched.seqCtr + 1 }
                    [{ target := s.sched.now + roundHalfUp s.cfg.cpsNum s.cfg.cpsDen, cls := .mixer, seq := s.sched.seqCtr }],
                seqCtr := s.sched.seqCtr + 2 }
            pc := s.pc + 1 }
        else .refused .timestampOverflow := by
  obtain ⟨e, rs, ring, h, h1, h2, h3⟩ := resetRates_frame (afterDevice s)
  refine ⟨e, rs, ring, h, h1, h2, h3, ?_⟩
  have hdev : resetDevice (resetRegisters s) = .ok (afterDevice s) := by
    rw [resetDevice_eq (by exact hm)]
    simp [afterDevice]
  unfold execApuReset
  rw [needing_true hd, hdev]
  simp only
  rw [h, resetArm_eq (removeOwnEvents_empty _)]
  by_cases hfit : s.sched.now + roundHalfUp s.cfg.cpsNum s.cfg.cpsDen < 2 ^ s.cfg.tsW ∧
      s.sched.now + s.cfg.seqCycles < 2 ^ s.cfg.tsW
  · rw [if_pos hfit, if_pos (by exact hfit), runCommand_ok hf]
    rfl
  · rw [if_neg hfit, if_neg (by exact hfit), runCommand_error hf]
    rfl

/-- `APU.RESET` reads the device ports (R215). -/
theorem execApuReset_undriven {s : State} (hf : s.faulted = false) (hd : s.known.dev = false) :
    execApuReset s = .refused (.noValue .devPorts) := by
  unfold execApuReset
  rw [needing_false hd, runCommand_error hf]
  rfl

/-- An `APU.RESET` that answers a next state: the mutex was free, the ports were driven and the two targets fit. -/
theorem execApuReset_next {s t : State} (h : execApuReset s = .next t) :
    s.faulted = false ∧ s.mutex = false ∧ s.known.dev = true ∧
      s.sched.now + roundHalfUp s.cfg.cpsNum s.cfg.cpsDen < 2 ^ s.cfg.tsW ∧ s.sched.now + s.cfg.seqCycles < 2 ^ s.cfg.tsW := by
  have hf := (runCommand_next h).1
  refine ⟨hf, ?_⟩
  cases hd : s.known.dev with
  | false => rw [execApuReset_undriven hf hd] at h; cases h
  | true =>
    cases hm : s.mutex with
    | true =>
      have : resetDevice (resetRegisters s) = .error (.stuck .mutexHeld) := by
        simp [resetDevice, withMutex, hm]
      rw [execApuReset, needing_true hd, this, runCommand_error hf] at h
      cases h
    | false =>
      obtain ⟨e, rs, ring, -, -, -, -, he⟩ := execApuReset_eq hf hm hd
      rw [he] at h
      split at h
      · exact ⟨rfl, rfl, ‹_›⟩
      · cases h

end Sys2Proof.Machine
end

