-- ==== Sys2Proof/Laws/Memory.lean ====
section
/-! SUPPORT. Host memory: reads after writes, the canonical form, and what each of the callback's ways of writing does. -/

namespace Sys2Proof.Machine

/-! ### One byte -/

/-- A read after a write. -/
theorem Memory.read_write (m : Memory) (a b : Nat) (v : Byte) :
    Memory.read (Memory.write m a v) b = if a = b then some v else Memory.read m b := by
  induction m with
  | nil => simp [Memory.write, Memory.read]
  | cons x rest ih =>
    obtain ⟨k, w⟩ := x
    simp only [Memory.write]
    split
    · simp only [Memory.read]
    · split
      · subst_vars
        simp only [Memory.read]
        split <;> simp_all
      · simp only [Memory.read, ih]
        split <;> split <;> simp_all

/-- A written address is listed; every other listed address was listed before. -/
theorem Memory.mem_write {m : Memory} {a : Nat} {v : Byte} {x : Host.Cell} (h : x ∈ Memory.write m a v) :
    x = (a, v) ∨ x ∈ m := by
  induction m with
  | nil => simpa [Memory.write] using h
  | cons y rest ih =>
    obtain ⟨k, w⟩ := y
    simp only [Memory.write] at h
    split at h
    · simpa using h
    · split at h
      · rcases List.mem_cons.1 h with h | h
        · exact .inl h
        · exact .inr (List.mem_cons_of_mem _ h)
      · rcases List.mem_cons.1 h with h | h
        · exact .inr (by simp [h])
        · rcases ih h with h | h
          · exact .inl h
          · exact .inr (List.mem_cons_of_mem _ h)

/-- A write keeps the canonical form. -/
theorem Memory.write_wf {m : Memory} (a : Nat) (v : Byte) (h : Memory.wf m) : Memory.wf (Memory.write m a v) := by
  induction m with
  | nil => simp [Memory.write, Memory.wf]
  | cons y rest ih =>
    obtain ⟨k, w⟩ := y
    have hr := List.pairwise_cons.1 h
    simp only [Memory.write]
    split
    · rename_i hlt
      refine List.pairwise_cons.2 ⟨?_, h⟩
      intro x hx
      rcases List.mem_cons.1 hx with rfl | hx
      · exact hlt
      · exact Nat.lt_trans hlt (hr.1 x hx)
    · split
      · subst_vars
        exact List.pairwise_cons.2 ⟨fun x hx => hr.1 x hx, hr.2⟩
      · refine List.pairwise_cons.2 ⟨?_, ih hr.2⟩
        intro x hx
        rcases Memory.mem_write hx with rfl | hx
        · show k < a; omega
        · exact hr.1 x hx

/-! ### Wider reads, and what they need -/

/-- A read of `n` bytes depends on those bytes alone. -/
theorem Memory.readLE_congr {m m' : Memory} {a n : Nat}
    (h : ∀ k, a ≤ k → k < a + n → Memory.read m k = Memory.read m' k) : Memory.readLE m a n = Memory.readLE m' a n := by
  induction n generalizing a with
  | zero => rfl
  | succ n ih =>
    simp only [Memory.readLE]
    rw [h a (by omega) (by omega), ih (a := a + 1) (fun k hk hk' => h k (by omega) (by omega))]

/-- The sample at an address depends on its four bytes alone. -/
theorem sampleAt_congr {m m' : Memory} {a : Nat}
    (h : ∀ k, a ≤ k → k < a + 4 → Memory.read m k = Memory.read m' k) : sampleAt m a = sampleAt m' a := by
  unfold sampleAt
  rw [Memory.readLE_congr (fun k hk hk' => h k hk (by omega)),
    Memory.readLE_congr (a := a + 2) (fun k hk hk' => h k (by omega) (by omega))]

/-! ### Runs of bytes in the trace -/

/-- The trace of `bytes` written one after another from address `a` on. -/
def byteEvents (a : Nat) (bytes : List Byte) : List OutEvent :=
  (List.range bytes.length).map (fun k => .memByte (a + k) (bytes.getD k 0))

/-- The trace of a longer run is the trace of its parts. -/
theorem byteEvents_append (a : Nat) (xs ys : List Byte) :
    byteEvents a (xs ++ ys) = byteEvents a xs ++ byteEvents (a + xs.length) ys := by
  unfold byteEvents
  rw [List.length_append, List.range_add, List.map_append, List.map_map]
  congr 1
  · apply List.map_congr_left
    intro k hk
    rw [List.mem_range] at hk
    simp only [List.getD_eq_getElem?_getD, List.getElem?_append_left hk]
  · apply List.map_congr_left
    intro k _
    simp [List.getElem?_append_right, Nat.add_assoc]

/-- `bytes` have been written from `a` on: the trace has grown by them, each once and in order, and they are found there. -/
structure Wrote (a : Nat) (bytes : List Byte) (out out' : List OutEvent) (m : Memory) : Prop where
  trace : out' = out ++ byteEvents a bytes
  found : ∀ k, k < bytes.length → Memory.read m (a + k) = some (bytes.getD k 0)

/-- No bytes. -/
theorem Wrote.nil (a : Nat) (out : List OutEvent) (m : Memory) : Wrote a [] out out m :=
  ⟨by simp [byteEvents], fun k h => absurd h (by simp)⟩

/-- One run after another, the second leaving the first where it is. -/
theorem Wrote.append {a : Nat} {xs ys : List Byte} {out out' out'' : List OutEvent} {m m' : Memory}
    (h : Wrote a xs out out' m) (h' : Wrote (a + xs.length) ys out' out'' m')
    (keep : ∀ b, b < a + xs.length → Memory.read m' b = Memory.read m b) : Wrote a (xs ++ ys) out out'' m' where
  trace := by rw [h'.trace, h.trace, byteEvents_append, List.append_assoc]
  found := by
    intro k hk
    by_cases hlt : k < xs.length
    · rw [keep _ (by omega), h.found k hlt]
      simp only [List.getD_eq_getElem?_getD, List.getElem?_append_left hlt]
    · have := h'.found (k - xs.length) (by rw [List.length_append] at hk; omega)
      rw [show a + xs.length + (k - xs.length) = a + k by omega] at this
      rw [this]
      simp only [List.getD_eq_getElem?_getD, List.getElem?_append_right (Nat.le_of_not_lt hlt)]

/-! ### One sample -/

/-- What storing a sample does. -/
theorem storeSample_eq (dest i : Nat) (x : Stereo Half) (s : State) :
    storeSample dest i x s =
      { s with
        mem :=
          Memory.write (Memory.write (Memory.write (Memory.write s.mem (dest + 4 * i) (x.l.extractLsb' 0 8))
            (dest + 4 * i + 1) (x.l.extractLsb' 8 8)) (dest + 4 * i + 2) (x.r.extractLsb' 0 8))
            (dest + 4 * i + 3) (x.r.extractLsb' 8 8)
        out := s.out ++
          [.memByte (dest + 4 * i) (x.l.extractLsb' 0 8), .memByte (dest + 4 * i + 1) (x.l.extractLsb' 8 8),
            .memByte (dest + 4 * i + 2) (x.r.extractLsb' 0 8), .memByte (dest + 4 * i + 3) (x.r.extractLsb' 8 8)] } := by
  have lo : ∀ h : Half, BitVec.ofNat 8 h.toNat = h.extractLsb' 0 8 := by
    intro h; ext k hk; simp [BitVec.getElem_extractLsb']
  have hi : ∀ h : Half, BitVec.ofNat 8 (h.toNat / 256) = h.extractLsb' 8 8 := by
    intro h
    apply BitVec.eq_of_toNat_eq
    simp [BitVec.extractLsb'_toNat, Nat.shiftRight_eq_div_pow]
  simp only [storeSample, memWrite, State.writeByte, lo, hi, List.append_assoc, List.cons_append, List.nil_append]

/-- Which bytes storing a sample writes. -/
theorem storeSample_read_other {dest i a : Nat} (x : Stereo Half) (s : State)
    (h : a < dest + 4 * i ∨ dest + 4 * i + 4 ≤ a) : Memory.read (storeSample dest i x s).mem a = Memory.read s.mem a := by
  rw [storeSample_eq]
  simp only [Memory.read_write]
  repeat' split
  all_goals first | rfl | omega

/-- The sample stored is the sample found. -/
theorem storeSample_sampleAt (dest i : Nat) (x : Stereo Half) (s : State) :
    sampleAt (storeSample dest i x s).mem (dest + 4 * i) = some x := by
  have back : ∀ h : Half,
      BitVec.ofNat 16 ((h.extractLsb' 0 8).toNat + 256 * ((h.extractLsb' 8 8).toNat + 256 * 0)) = h := by
    intro h
    apply BitVec.eq_of_toNat_eq
    have := h.isLt
    simp [BitVec.extractLsb'_toNat, Nat.shiftRight_eq_div_pow]
    omega
  rw [storeSample_eq]
  simp [sampleAt, Memory.readLE, Memory.read_write]
  have h1 := back x.l
  have h2 := back x.r
  simp at h1 h2
  cases x
  simp_all

/-- The four bytes of a sample in the trace and in memory. -/
theorem storeSample_wrote (dest i : Nat) (x : Stereo Half) (s : State) :
    Wrote (dest + 4 * i) [x.l.extractLsb' 0 8, x.l.extractLsb' 8 8, x.r.extractLsb' 0 8, x.r.extractLsb' 8 8] s.out
      (storeSample dest i x s).out (storeSample dest i x s).mem := by
  rw [storeSample_eq]
  refine ⟨rfl, ?_⟩
  intro k hk
  simp only [List.length_cons, List.length_nil] at hk
  rcases k with _ | _ | _ | _ | k
  all_goals first | omega | simp [Memory.read_write]

/-! ### A run of samples -/

/-- Storing samples changes host memory and the trace alone, keeps the canonical form, and the trace only grows. -/
theorem storeSamples_frame (dest : Nat) (xs : List (Stereo Half)) (i : Nat) (s : State) :
    ∃ mem out, storeSamples dest i xs s = { s with mem := mem, out := out } ∧
      (Memory.wf s.mem → Memory.wf mem) ∧ s.out <+: out := by
  induction xs generalizing i s with
  | nil => exact ⟨s.mem, s.out, rfl, id, List.prefix_refl _⟩
  | cons x rest ih =>
    obtain ⟨mem, out, h, hwf, hout⟩ := ih (i + 1) (storeSample dest i x s)
    refine ⟨mem, out, ?_, ?_, ?_⟩
    · rw [storeSamples, h, storeSample_eq]
    · intro hs
      apply hwf
      rw [storeSample_eq]
      exact Memory.write_wf _ _ (Memory.write_wf _ _ (Memory.write_wf _ _ (Memory.write_wf _ _ hs)))
    · refine List.IsPrefix.trans ?_ hout
      rw [storeSample_eq]
      exact List.prefix_append _ _

/-- A run of samples writes no byte outside its own. -/
theorem storeSamples_read_other (dest : Nat) (xs : List (Stereo Half)) (i : Nat) (s : State) (a : Nat)
    (h : a < dest + 4 * i ∨ dest + 4 * (i + xs.length) ≤ a) :
    Memory.read (storeSamples dest i xs s).mem a = Memory.read s.mem a := by
  induction xs generalizing i s with
  | nil => rfl
  | cons x rest ih =>
    simp only [List.length_cons] at h
    rw [storeSamples, ih (i + 1) _ (by omega), storeSample_read_other x s (by omega)]

/-- Every byte of a run of samples is written. -/
theorem storeSamples_read_inside (dest : Nat) (xs : List (Stereo Half)) (i : Nat) (s : State) (a : Nat)
    (h : dest + 4 * i ≤ a) (h' : a < dest + 4 * (i + xs.length)) :
    (Memory.read (storeSamples dest i xs s).mem a).isSome = true := by
  induction xs generalizing i s with
  | nil => simp at h'; omega
  | cons x rest ih =>
    simp only [List.length_cons] at h'
    rw [storeSamples]
    by_cases hlt : a < dest + 4 * (i + 1)
    · rw [storeSamples_read_other _ _ _ _ _ (.inl hlt), storeSample_eq]
      simp only [Memory.read_write]
      repeat' split
      all_goals first | rfl | omega
    · exact ih (i + 1) _ (by omega) (by omega)

/-- A run of samples puts its `j`-th sample at address `dest + 4(i + j)`. -/
theorem storeSamples_sampleAt (dest : Nat) (xs : List (Stereo Half)) (i j : Nat) (s : State) (h : j < xs.length) :
    sampleAt (storeSamples dest i xs s).mem (dest + 4 * (i + j)) = some xs[j] := by
  induction xs generalizing i j s with
  | nil => simp at h
  | cons x rest ih =>
    rw [storeSamples]
    cases j with
    | zero =>
      show sampleAt _ (dest + 4 * i) = some x
      rw [sampleAt_congr (m' := (storeSample dest i x s).mem), storeSample_sampleAt]
      · intro k _ hk
        exact storeSamples_read_other _ _ _ _ _ (.inl (by omega))
    | succ j =>
      have := ih (i + 1) j (storeSample dest i x s) (by simpa using h)
      rw [show i + (j + 1) = i + 1 + j by omega, this]
      rfl

/-- A run of samples in the trace and in memory: four bytes a sample. -/
theorem storeSamples_wrote (dest : Nat) (xs : List (Stereo Half)) (i : Nat) (s : State) :
    ∃ bytes : List Byte, bytes.length = 4 * xs.length ∧
      Wrote (dest + 4 * i) bytes s.out (storeSamples dest i xs s).out (storeSamples dest i xs s).mem := by
  induction xs generalizing i s with
  | nil => exact ⟨[], rfl, Wrote.nil _ _ _⟩
  | cons x rest ih =>
    obtain ⟨bytes, hl, hw⟩ := ih (i + 1) (storeSample dest i x s)
    refine ⟨_, ?_, (storeSample_wrote dest i x s).append hw ?_⟩
    · simp [hl]; omega
    · intro b hb
      exact storeSamples_read_other dest rest (i + 1) _ b (.inl (by simp at hb; omega))

/-! ### Silence -/

/-- Silence changes host memory and the trace alone, keeps the canonical form, and the trace only grows. -/
theorem silence_frame (dest n : Nat) (s : State) :
    ∃ mem out, silence dest n s = { s with mem := mem, out := out } ∧
      (Memory.wf s.mem → Memory.wf mem) ∧ s.out <+: out := by
  induction n generalizing dest s with
  | zero => exact ⟨s.mem, s.out, rfl, id, List.prefix_refl _⟩
  | succ n ih =>
    obtain ⟨mem, out, h, hwf, hout⟩ := ih (dest + 1) (s.writeByte dest 0)
    exact ⟨mem, out, by rw [silence, h]; rfl, fun hs => hwf (Memory.write_wf _ _ hs),
      List.IsPrefix.trans (List.prefix_append _ _) hout⟩

/-- Silence is `n` zero bytes and nothing else. -/
theorem silence_read (dest n : Nat) (s : State) (a : Nat) :
    Memory.read (silence dest n s).mem a = if dest ≤ a ∧ a < dest + n then some 0 else Memory.read s.mem a := by
  induction n generalizing dest s with
  | zero =>
    rw [silence, if_neg (by omega)]
  | succ n ih =>
    rw [silence, ih]
    simp only [State.writeByte_mem, Memory.read_write]
    repeat' split
    all_goals first | rfl | omega

/-- Silence in the trace and in memory. -/
theorem silence_wrote (dest n : Nat) (s : State) :
    Wrote dest (List.replicate n 0) s.out (silence dest n s).out (silence dest n s).mem := by
  induction n generalizing dest s with
  | zero => exact Wrote.nil _ _ _
  | succ n ih =>
    have one : Wrote dest [0] s.out (s.writeByte dest 0).out (s.writeByte dest 0).mem :=
      ⟨rfl, fun k hk => by simp at hk; subst hk; simp [Memory.read_write]⟩
    refine one.append (ih (dest + 1) (s.writeByte dest 0)) ?_
    intro b hb
    rw [silence, silence_read, if_neg (by simp at hb; omega)]

end Sys2Proof.Machine
end

