-- ==== Sys2Proof/Laws/Callback.lean ====
section
/-! SUPPORT. The drain of R278 and `CB.REQ`: what they leave unchanged, which bytes they write, and that no turn is lacking. -/

namespace Sys2Proof.Machine

/-- One turn of the drain on whole blocks: case (a). -/
theorem drain_block {dest k i r : Nat} {s : State} (hr : r ≠ 0) (ha : s.cfg.rbbN ≤ s.rbb.size ∧ s.cfg.rbbN ≤ r) :
    drain dest (k + 1) i r s =
      drain dest k (i + s.cfg.rbbN) (r - s.cfg.rbbN)
        (storeSamples dest i (s.rbb.block s.cfg) { s with rbb := s.rbb.dropBlock s.cfg }) := by
  rw [drain, if_neg hr, if_pos ha]

/-- The last turn: cases (b) and (c), what is queued and then the pad. -/
theorem drain_partial {dest fuel i r : Nat} {s : State} (hr : r ≠ 0) (hb : s.rbb.size < s.cfg.rbbN) (hc : s.rbb.size ≤ r) :
    drain dest fuel i r s =
      .ok (storeSamples dest i
        (partialSamples s.cfg s.rbb ++ List.replicate (r - s.rbb.size) (s.rbb.back s.cfg))
        { s with rbb := { s.rbb with size := 0 } }) := by
  rw [drain.eq_def]
  simp only
  rw [if_neg hr, if_neg (by omega), if_pos ⟨hb, hc⟩]

/-- Nothing owed: nothing done. -/
theorem drain_zero {dest fuel i : Nat} {s : State} : drain dest fuel i 0 s = .ok s := by
  rw [drain.eq_def]
  simp

/-- A request that ends inside a block (R280). -/
theorem drain_inside {dest fuel i r : Nat} {s : State} (hr : r ≠ 0) (ha : r < s.cfg.rbbN) (hb : r < s.rbb.size) :
    drain dest fuel i r s = .error (.refused .requestInsideBlock) := by
  rw [drain.eq_def]
  simp only
  rw [if_neg hr, if_neg (by omega), if_neg (by omega)]

/-- The samples of a partial copy: as many as are queued. -/
theorem length_partialSamples {c : Cfg} {b : BlockBuffer} (h : b.Ok c) (hn : b.size < c.rbbN) :
    (partialSamples c b).length = b.size := by
  rw [partialSamples, BlockBuffer.partial_eq h hn, BlockBuffer.length_queued]

/-- All a drain can do. It writes `r` samples from sample `i` on and no other byte; of the rest of the state it changes the trace, which
grows, and the two cursors of a buffer that keeps its shape. With as many turns as samples owed it does not get stuck, and it never
faults. -/
theorem drain_all (dest : Nat) {fuel i r : Nat} {s : State} (hok : s.rbb.Ok s.cfg) (hn : 0 < s.cfg.rbbN) (hf : r ≤ fuel) :
    drain dest fuel i r s = .error (.refused .requestInsideBlock) ∨
    ∃ mem out rbb, drain dest fuel i r s = .ok { s with mem := mem, out := out, rbb := rbb } ∧
      rbb.Ok s.cfg ∧ rbb.data = s.rbb.data ∧ s.out <+: out ∧ (Memory.wf s.mem → Memory.wf mem) ∧
      (∀ a, a < dest + 4 * i ∨ dest + 4 * (i + r) ≤ a → Memory.read mem a = Memory.read s.mem a) ∧
      (∀ a, dest + 4 * i ≤ a → a < dest + 4 * (i + r) → (Memory.read mem a).isSome = true) := by
  induction fuel generalizing i r s with
  | zero =>
    have : r = 0 := by omega
    subst this
    exact .inr ⟨s.mem, s.out, s.rbb, drain_zero, hok, rfl, List.prefix_refl _, id, fun a _ => rfl,
      fun a h h' => absurd h' (by omega)⟩
  | succ k ih =>
    by_cases hr : r = 0
    · subst hr
      exact .inr ⟨s.mem, s.out, s.rbb, drain_zero, hok, rfl, List.prefix_refl _, id, fun a _ => rfl,
        fun a h h' => absurd h' (by omega)⟩
    · by_cases ha : s.cfg.rbbN ≤ s.rbb.size ∧ s.cfg.rbbN ≤ r
      · rw [drain_block hr ha]
        have hl := BlockBuffer.length_block hok
        have hother := storeSamples_read_other dest (s.rbb.block s.cfg) i { s with rbb := s.rbb.dropBlock s.cfg }
        have hinside := storeSamples_read_inside dest (s.rbb.block s.cfg) i { s with rbb := s.rbb.dropBlock s.cfg }
        obtain ⟨mem, out, he, hwf, hpre⟩ :=
          storeSamples_frame dest (s.rbb.block s.cfg) i { s with rbb := s.rbb.dropBlock s.cfg }
        rw [he] at hother hinside ⊢
        rcases ih (i := i + s.cfg.rbbN) (r := r - s.cfg.rbbN)
          (s := { s with mem := mem, out := out, rbb := s.rbb.dropBlock s.cfg }) (BlockBuffer.dropBlock_ok hok) hn (by omega)
          with h | ⟨mem', out', rbb', h, h1, h2, h3, h4, h5, h6⟩
        · exact .inl h
        · refine .inr ⟨mem', out', rbb', h, h1, h2, hpre.trans h3, fun hw => h4 (hwf hw), ?_, ?_⟩
          · intro a hout
            rw [h5 a (by omega)]
            exact hother a (by omega)
          · intro a hlo hhi
            by_cases hlt : dest + 4 * (i + s.cfg.rbbN) ≤ a
            · exact h6 a hlt (by omega)
            · rw [h5 a (by omega)]
              exact hinside a hlo (by omega)
      · by_cases hb : s.rbb.size < s.cfg.rbbN ∧ s.rbb.size ≤ r
        · rw [drain_partial hr hb.1 hb.2]
          have hl : (partialSamples s.cfg s.rbb ++
              List.replicate (r - s.rbb.size) (s.rbb.back s.cfg)).length = r := by
            rw [List.length_append, length_partialSamples hok hb.1, List.length_replicate]; omega
          generalize partialSamples s.cfg s.rbb ++ List.replicate (r - s.rbb.size) (s.rbb.back s.cfg) = xs at hl
          have hother := storeSamples_read_other dest xs i { s with rbb := { s.rbb with size := 0 } }
          have hinside := storeSamples_read_inside dest xs i { s with rbb := { s.rbb with size := 0 } }
          obtain ⟨mem, out, he, hwf, hpre⟩ := storeSamples_frame dest xs i { s with rbb := { s.rbb with size := 0 } }
          rw [he] at hother hinside ⊢
          refine .inr ⟨mem, out, _, rfl, ⟨hok.slots, hok.block, ?_⟩, rfl, hpre, hwf, ?_, ?_⟩
          · have := hok.size; show 0 < bufCap s.cfg; omega
          · intro a h; exact hother a (by omega)
          · intro a h h'; exact hinside a h (by omega)
        · exact .inl (drain_inside hr (by omega) (by omega))

/-- What a request that R280 does not refuse leaves (R278, R279): the block index has advanced by the whole blocks taken, `size` has fallen, and
the samples of the request are the queued ones, then `Back()` as it stands after the whole blocks. -/
theorem drain_completes (dest : Nat) {fuel i r : Nat} {s : State} (hok : s.rbb.Ok s.cfg) (hn : 0 < s.cfg.rbbN) (hf : r ≤ fuel)
    (hr : r % s.cfg.rbbN = 0 ∨ s.rbb.size ≤ r) :
    ∃ mem out,
      drain dest fuel i r s =
        .ok { s with
          mem := mem
          out := out
          rbb :=
            { data := s.rbb.data, currentBlock := (s.rbb.currentBlock + min s.rbb.size r / s.cfg.rbbN) % s.cfg.rbbB,
              size := s.rbb.size - r } } ∧
      (∀ a, a < dest + 4 * i → Memory.read mem a = Memory.read s.mem a) ∧
      ∀ j, j < r → sampleAt mem (dest + 4 * (i + j)) =
        some ((s.rbb.queued s.cfg).getD j
          (if s.rbb.size % s.cfg.rbbN = 0 then
            s.rbb.slot ((s.rbb.currentBlock + min s.rbb.size r / s.cfg.rbbN) % s.cfg.rbbB * s.cfg.rbbN)
          else
            (s.rbb.queued s.cfg).getLastD
              (s.rbb.slot ((s.rbb.currentBlock + min s.rbb.size r / s.cfg.rbbN) % s.cfg.rbbB * s.cfg.rbbN)))) := by
  induction fuel generalizing i r s with
  | zero =>
    obtain rfl : r = 0 := by omega
    refine ⟨s.mem, s.out, ?_, fun _ _ => rfl, fun j h => absurd h (by omega)⟩
    rw [drain_zero, Nat.min_zero, Nat.zero_div, Nat.add_zero, Nat.mod_eq_of_lt hok.block]
    rfl
  | succ k ih =>
    by_cases h0 : r = 0
    · subst h0
      refine ⟨s.mem, s.out, ?_, fun _ _ => rfl, fun j h => absurd h (by omega)⟩
      rw [drain_zero, Nat.min_zero, Nat.zero_div, Nat.add_zero, Nat.mod_eq_of_lt hok.block]
      rfl
    by_cases ha : s.cfg.rbbN ≤ s.rbb.size ∧ s.cfg.rbbN ≤ r
    · rw [drain_block h0 ha]
      have hl := BlockBuffer.length_block hok
      have hq := BlockBuffer.queued_dropBlock hok ha.1
      have hother := storeSamples_read_other dest (s.rbb.block s.cfg) i { s with rbb := s.rbb.dropBlock s.cfg }
      have hat := storeSamples_sampleAt dest (s.rbb.block s.cfg) i (s := { s with rbb := s.rbb.dropBlock s.cfg })
      obtain ⟨mem, out, he, -, -⟩ :=
        storeSamples_frame dest (s.rbb.block s.cfg) i { s with rbb := s.rbb.dropBlock s.cfg }
      rw [he] at hother hat ⊢
      obtain ⟨mem', out', h, h1, h2⟩ := ih (i := i + s.cfg.rbbN) (r := r - s.cfg.rbbN)
        (s := { s with mem := mem, out := out, rbb := s.rbb.dropBlock s.cfg }) (BlockBuffer.dropBlock_ok hok) hn (by omega)
        (by
          rcases hr with hr | hr
          · left
            show (r - s.cfg.rbbN) % s.cfg.rbbN = 0
            rwa [← Nat.mod_eq_sub_mod ha.2]
          · right
            show s.rbb.size - s.cfg.rbbN ≤ r - s.cfg.rbbN
            omega)
      have hblock : (((s.rbb.currentBlock + 1) % s.cfg.rbbB) + min (s.rbb.size - s.cfg.rbbN) (r - s.cfg.rbbN) / s.cfg.rbbN) % s.cfg.rbbB =
          (s.rbb.currentBlock + min s.rbb.size r / s.cfg.rbbN) % s.cfg.rbbB := by
        rw [Nat.mod_add_mod, Nat.add_assoc]
        congr 2
        rw [show min s.rbb.size r = min (s.rbb.size - s.cfg.rbbN) (r - s.cfg.rbbN) + s.cfg.rbbN by omega, Nat.add_div_right _ hn]
        omega
      simp only [BlockBuffer.dropBlock] at h h1 h2
      simp only [hblock] at h h2
      refine ⟨mem', out', ?_, ?_, ?_⟩
      · rw [show BlockBuffer.dropBlock s.cfg s.rbb =
          { s.rbb with currentBlock := (s.rbb.currentBlock + 1) % s.cfg.rbbB, size := s.rbb.size - s.cfg.rbbN } from rfl, h]
        rw [show s.rbb.size - s.cfg.rbbN - (r - s.cfg.rbbN) = s.rbb.size - r by omega]
      · intro a hlt; rw [h1 a (by omega)]; exact hother a (.inl hlt)
      · intro j hj
        by_cases hlt : j < s.cfg.rbbN
        · rw [sampleAt_congr (m' := mem) (fun k _ hk => h1 k (by omega)), hat j (by omega), hq]
          simp only [List.getD_eq_getElem?_getD]
          rw [List.getElem?_append_left (by omega), List.getElem?_eq_getElem (by omega)]
          rfl
        · have := h2 (j - s.cfg.rbbN) (by omega)
          rw [show i + s.cfg.rbbN + (j - s.cfg.rbbN) = i + j by omega] at this
          rw [this, hq]
          congr 1
          simp only [List.getD_eq_getElem?_getD]
          rw [List.getElem?_append_right (by omega), hl]
          rw [← Nat.mod_eq_sub_mod ha.1]
          congr 1
          by_cases hz : s.rbb.size % s.cfg.rbbN = 0
          · rw [if_pos hz, if_pos hz]; rfl
          · rw [if_neg hz, if_neg hz]
            have hne : BlockBuffer.queued s.cfg (s.rbb.dropBlock s.cfg) ≠ [] := by
              intro hnil
              have := congrArg List.length hnil
              simp only [BlockBuffer.length_queued, BlockBuffer.dropBlock, List.length_nil] at this
              rw [show s.rbb.size = s.cfg.rbbN by omega] at hz
              simp at hz
            rw [List.getLastD_eq_getLast?, List.getLastD_eq_getLast?, List.getLast?_append_of_ne_nil _ hne]
            rfl
    · have hsz : s.rbb.size ≤ r := by
        rcases hr with hr | hr
        · have : s.cfg.rbbN ≤ r := Nat.le_of_dvd (by omega) (Nat.dvd_of_mod_eq_zero hr)
          omega
        · exact hr
      have hb : s.rbb.size < s.cfg.rbbN := by omega
      rw [drain_partial h0 hb hsz,
        show partialSamples s.cfg s.rbb = s.rbb.queued s.cfg from BlockBuffer.partial_eq hok hb]
      have hat := storeSamples_sampleAt dest
        (s.rbb.queued s.cfg ++ List.replicate (r - s.rbb.size) (s.rbb.back s.cfg)) i
        (s := { s with rbb := { s.rbb with size := 0 } })
      have hother := storeSamples_read_other dest
        (s.rbb.queued s.cfg ++ List.replicate (r - s.rbb.size) (s.rbb.back s.cfg)) i
        { s with rbb := { s.rbb with size := 0 } }
      obtain ⟨mem, out, he, -, -⟩ := storeSamples_frame dest
        (s.rbb.queued s.cfg ++ List.replicate (r - s.rbb.size) (s.rbb.back s.cfg)) i { s with rbb := { s.rbb with size := 0 } }
      rw [he] at hother hat ⊢
      have hblock : (s.rbb.currentBlock + min s.rbb.size r / s.cfg.rbbN) % s.cfg.rbbB = s.rbb.currentBlock := by
        rw [Nat.min_eq_left hsz, Nat.div_eq_of_lt hb, Nat.add_zero, Nat.mod_eq_of_lt hok.block]
      refine ⟨mem, out, ?_, fun a h => hother a (.inl h), ?_⟩
      · rw [hblock, show s.rbb.size - r = 0 by omega]
      · intro j hj
        rw [hat j (by simp; omega), hblock, Nat.mod_eq_of_lt hb]
        congr 1
        rw [List.getD_eq_getElem?_getD]
        by_cases hlt : j < s.rbb.size
        · rw [List.getElem_append_left (by simpa using hlt), List.getElem?_eq_getElem (by simpa using hlt)]; rfl
        · rw [List.getElem_append_right (by simpa using hlt), List.getElem?_eq_none (by simpa using hlt)]
          simp only [List.getElem_replicate, Option.getD_none]
          by_cases hz : s.rbb.size = 0
          · rw [if_pos hz, BlockBuffer.back, if_neg (by omega)]; rfl
          · rw [if_neg hz, List.getLastD_eq_getLast?, BlockBuffer.back_eq (by omega)]
            rfl

/-- The bytes a drain that completed has written (R275): those of its samples, each once and in order. -/
theorem drain_wrote (dest : Nat) {fuel i r : Nat} {s t : State} (hok : s.rbb.Ok s.cfg) (hn : 0 < s.cfg.rbbN) (hf : r ≤ fuel)
    (h : drain dest fuel i r s = .ok t) :
    ∃ bytes : List Byte, bytes.length = 4 * r ∧ Wrote (dest + 4 * i) bytes s.out t.out t.mem := by
  induction fuel generalizing i r s with
  | zero =>
    obtain rfl : r = 0 := by omega
    rw [drain_zero] at h
    cases h
    exact ⟨[], rfl, Wrote.nil _ _ _⟩
  | succ k ih =>
    by_cases h0 : r = 0
    · subst h0
      rw [drain_zero] at h
      cases h
      exact ⟨[], rfl, Wrote.nil _ _ _⟩
    by_cases ha : s.cfg.rbbN ≤ s.rbb.size ∧ s.cfg.rbbN ≤ r
    · rw [drain_block h0 ha] at h
      have hl := BlockBuffer.length_block hok
      obtain ⟨xs, hx, hw⟩ := storeSamples_wrote dest (s.rbb.block s.cfg) i { s with rbb := s.rbb.dropBlock s.cfg }
      obtain ⟨mem, out, he, -, -⟩ :=
        storeSamples_frame dest (s.rbb.block s.cfg) i { s with rbb := s.rbb.dropBlock s.cfg }
      rw [he] at hw h
      obtain ⟨ys, hy, hw'⟩ := ih (s := { s with mem := mem, out := out, rbb := s.rbb.dropBlock s.cfg })
        (BlockBuffer.dropBlock_ok hok) hn (by omega) h
      rcases drain_all dest (i := i + s.cfg.rbbN) (s := { s with mem := mem, out := out, rbb := s.rbb.dropBlock s.cfg })
        (BlockBuffer.dropBlock_ok hok) hn (show r - s.cfg.rbbN ≤ k by omega) with hx' | ⟨mem', out', rbb', hx', -, -, -, -, hkeep, -⟩
      · rw [hx'] at h; cases h
      · rw [hx'] at h
        cases h
        have ha' : dest + 4 * (i + s.cfg.rbbN) = dest + 4 * i + xs.length := by rw [hx, hl]; omega
        rw [ha'] at hw' hkeep
        exact ⟨xs ++ ys, by rw [List.length_append, hx, hy, hl]; omega, hw.append hw' (fun b hb => hkeep b (.inl hb))⟩
    · by_cases hb : s.rbb.size < s.cfg.rbbN ∧ s.rbb.size ≤ r
      · rw [drain_partial h0 hb.1 hb.2] at h
        cases h
        obtain ⟨xs, hx, hw⟩ := storeSamples_wrote dest
          (partialSamples s.cfg s.rbb ++ List.replicate (r - s.rbb.size) (s.rbb.back s.cfg)) i
          { s with rbb := { s.rbb with size := 0 } }
        refine ⟨xs, ?_, hw⟩
        rw [hx, List.length_append, length_partialSamples hok hb.1, List.length_replicate]
        omega
      · rw [drain_inside h0 (by omega) (by omega)] at h
        cases h

/-- `CB.REQ` on a block that is not halted, with the mutex free and a whole number of samples asked for. -/
theorem execCbReq_eq {len : BitVec 24} {dest : Word} {s : State} (hf : s.faulted = false) (hm : s.mutex = false)
    (hl : len.toNat % 4 = 0) :
    execCbReq len dest s =
      if s.rbbConstructed then
        match drain dest.toNat (len.toNat / 4) 0 (len.toNat / 4) { s with mutex := true } with
        | .ok t => .next ({ t with mutex := false } : State).retire
        | .error e => e.outcome s
      else .next ({ silence dest.toNat (4 * (len.toNat / 4)) { s with mutex := true } with mutex := false } : State).retire := by
  unfold execCbReq
  rw [show requestOperand len = some (len.toNat / 4) from if_pos hl]
  simp only [destOperand]
  rw [withMutex_eq hm]
  by_cases hc : s.rbbConstructed = true
  · rw [if_pos hc, if_pos (show ({ s with mutex := true } : State).rbbConstructed = true from hc)]
    cases drain dest.toNat (len.toNat / 4) 0 (len.toNat / 4) { s with mutex := true } with
    | ok t => exact runCommand_ok hf
    | error e => exact runCommand_error hf
  · rw [if_neg hc, if_neg (show ¬({ s with mutex := true } : State).rbbConstructed = true from hc)]
    exact runCommand_ok hf

end Sys2Proof.Machine
end

