-- ==== Sys2Proof/Laws/Decode.lean ====
section
/-! SUPPORT. The fields of a packed word, the words of given fields, and what each format's zero test says. -/

namespace Sys2Proof

@[simp] theorem opField_packWord (op a : Byte) (b : Half) (d : Word) : opField (packWord op a b d) = op := by
  ext k hk; simp [opField, packWord, BitVec.getElem_extractLsb']; grind
@[simp] theorem aField_packWord (op a : Byte) (b : Half) (d : Word) : aField (packWord op a b d) = a := by
  ext k hk; simp [aField, packWord, BitVec.getElem_extractLsb']; grind
@[simp] theorem bField_packWord (op a : Byte) (b : Half) (d : Word) : bField (packWord op a b d) = b := by
  ext k hk; simp [bField, packWord, BitVec.getElem_extractLsb']; grind
@[simp] theorem dField_packWord (op a : Byte) (b : Half) (d : Word) : dField (packWord op a b d) = d := by
  ext k hk; simp [dField, packWord, BitVec.getElem_extractLsb']; grind

/-- A command word is its four fields. -/
theorem packWord_fields (w : CommandWord) : packWord (opField w) (aField w) (bField w) (dField w) = w := by
  ext k hk; simp [opField, aField, bField, dField, packWord]; grind

@[simp] theorem lowHalf_append (l r : Half) : lowHalf (r ++ l) = l := by
  ext k hk; simp [lowHalf, BitVec.getElem_extractLsb']; grind
@[simp] theorem highHalf_append (l r : Half) : highHalf (r ++ l) = r := by
  ext k hk; simp [highHalf, BitVec.getElem_extractLsb']; grind

/-- A 32-bit field is its two halves. -/
theorem halves_append (d : Word) : highHalf d ++ lowHalf d = d := by
  ext k hk; simp [lowHalf, highHalf]; grind

/-- A 24-bit operand is its two parts. -/
@[simp] theorem high24_append_low24 (v : BitVec 24) : high24 v ++ low24 v = v := by
  ext k hk; simp [high24, low24]; grind
@[simp] theorem high24_append (a : Byte) (b : Half) : high24 (a ++ b) = a := by
  ext k hk; simp [high24, BitVec.getElem_extractLsb']; grind
@[simp] theorem low24_append (a : Byte) (b : Half) : low24 (a ++ b) = b := by
  ext k hk; simp [low24, BitVec.getElem_extractLsb']; grind

/-- A mask of fields acts field by field. -/
theorem packWord_and (o a o' a' : Byte) (b b' : Half) (d d' : Word) :
    packWord o a b d &&& packWord o' a' b' d' = packWord (o &&& o') (a &&& a') (b &&& b') (d &&& d') := by
  ext k hk; simp [packWord]; grind

/-- Two packed words are equal exactly when their fields are. -/
theorem packWord_inj (o a o' a' : Byte) (b b' : Half) (d d' : Word) :
    packWord o a b d = packWord o' a' b' d' ↔ o = o' ∧ a = a' ∧ b = b' ∧ d = d' := by
  constructor
  · intro h
    exact ⟨by simpa using congrArg opField h, by simpa using congrArg aField h, by simpa using congrArg bField h,
      by simpa using congrArg dField h⟩
  · rintro ⟨rfl, rfl, rfl, rfl⟩; rfl

/-- The match of a row, `op << 56`, has the opcode and nothing else. -/
theorem match_eq (op : Byte) : op.setWidth 64 <<< 56 = packWord op 0 0 0 := by
  ext k hk; simp [packWord]; grind

/-- A word has the bits of `op << 56` under the mask of a format exactly when its opcode is `op` and the fields the format does not use
are zero (R103, R104). -/
theorem masked_iff (f : Format) (op : Byte) (w : CommandWord) :
    w &&& f.mask = op.setWidth 64 <<< 56 ↔
      opField w = op ∧ f.unusedZero (aField w) (bField w) (dField w) = true := by
  have full8 : ∀ x : Byte, x &&& 0xFF#8 = x := by decide
  have full16 : ∀ x : Half, x &&& 0xFFFF#16 = x := fun x => BitVec.and_allOnes (x := x)
  have full32 : ∀ x : Word, x &&& 0xFFFFFFFF#32 = x := fun x => BitVec.and_allOnes (x := x)
  conv => lhs; rw [← packWord_fields w, match_eq]
  cases f
  · rw [show Format.z.mask = packWord 0xFF 0xFF 0xFFFF 0xFFFFFFFF from rfl]
    simp [packWord_and, packWord_inj, Format.unusedZero, full8, full16, full32, and_assoc]
  · rw [show Format.a.mask = packWord 0xFF 0 0xFFFF 0xFFFFFFFF from rfl]
    simp [packWord_and, packWord_inj, Format.unusedZero, full8, full16, full32]
  · rw [show Format.b.mask = packWord 0xFF 0xFF 0 0xFFFFFFFF from rfl]
    simp [packWord_and, packWord_inj, Format.unusedZero, full8, full32]
  · rw [show Format.d.mask = packWord 0xFF 0xFF 0xFFFF 0 from rfl]
    simp [packWord_and, packWord_inj, Format.unusedZero, full8, full16]
  · rw [show Format.ad.mask = packWord 0xFF 0 0xFFFF 0 from rfl]
    simp [packWord_and, packWord_inj, Format.unusedZero, full8, full16]
  · rw [show Format.ab.mask = packWord 0xFF 0 0 0xFFFFFFFF from rfl]
    simp [packWord_and, packWord_inj, Format.unusedZero, full8, full32]
  · rw [show Format.abd.mask = packWord 0xFF 0 0 0 from rfl]
    simp [packWord_and, packWord_inj, Format.unusedZero, full8]

/-- The opcodes of R104 are all different. -/
theorem opRows_distinct : opRows.Pairwise (fun r r' => r.op ≠ r'.op) := by decide

/-- The row of an opcode is the only row with it. -/
theorem opRows_find {r : OpRow} (h : r ∈ opRows) : opRows.find? (fun r' => r'.op == r.op) = some r := by
  have key : ∀ l : List OpRow, l.Pairwise (fun r r' => r.op ≠ r'.op) → r ∈ l →
      l.find? (fun r' => r'.op == r.op) = some r := by
    intro l
    induction l with
    | nil => simp
    | cons x rest ih =>
      intro hp hm
      have hc := List.pairwise_cons.1 hp
      rcases List.mem_cons.1 hm with rfl | hm
      · simp
      · have hne : (x.op == r.op) = false := by simpa using hc.1 r hm
        rw [List.find?_cons, hne]
        exact ih hc.2 hm
  exact key opRows opRows_distinct h

/-- The command of a word, by the row of its opcode. -/
theorem decodeCommand_eq {w : CommandWord} {r : OpRow} (h : r ∈ opRows) (ho : opField w = r.op) :
    decodeCommand w =
      if r.format.unusedZero (aField w) (bField w) (dField w) then .ok (r.build (aField w) (bField w) (dField w))
      else .error .unusedField := by
  unfold decodeCommand
  rw [ho, opRows_find h]

end Sys2Proof
end

