-- ==== Sys2Proof/Laws/Mixer.lean ====
section
/-! SUPPORT. The mixer step and the sequencer step in full: what they read, push and arm, and that nothing else changes. -/

namespace Sys2Proof.Machine

/-- A number truncated toward zero stays within a bound it was in. -/
theorem truncRat_range {x : Rat} {n : Int} (h : -(n : Rat) ≤ x) (h' : x ≤ (n : Rat)) :
    -n ≤ truncRat x ∧ truncRat x ≤ n := by
  have hd : (0 : Int) < x.den := by exact_mod_cast x.den_pos
  have hq : (x.num : Rat) = x * (x.den : Rat) := (Rat.mul_den_eq_num x).symm
  have hdq : (0 : Rat) < (x.den : Rat) := by exact_mod_cast x.den_pos
  have hn : (0 : Int) ≤ n := by
    have : (0 : Rat) ≤ (n : Rat) := by linarith
    exact_mod_cast this
  have h1 : x.num ≤ n * (x.den : Int) := by
    have : (x.num : Rat) ≤ (n : Rat) * (x.den : Rat) := by rw [hq]; exact mul_le_mul_of_nonneg_right h' hdq.le
    exact_mod_cast this
  have h2 : -(n * (x.den : Int)) ≤ x.num := by
    have : -((n : Rat) * (x.den : Rat)) ≤ (x.num : Rat) := by
      rw [hq, ← neg_mul]; exact mul_le_mul_of_nonneg_right h hdq.le
    exact_mod_cast this
  unfold truncRat
  rcases Int.le_total 0 x.num with hp | hp
  · have h3 := Int.tdiv_nonneg hp hd.le
    have h4 : x.num.tdiv x.den ≤ n := by
      rw [Int.tdiv_eq_ediv_of_nonneg hp]
      exact Int.ediv_le_of_le_mul hd h1
    omega
  · have h3 := Int.tdiv_nonneg (a := -x.num) (by omega) hd.le
    have h4 : (-x.num).tdiv x.den ≤ n := by
      rw [Int.tdiv_eq_ediv_of_nonneg (by omega)]
      exact Int.ediv_le_of_le_mul hd (by omega)
    rw [Int.neg_tdiv] at h3 h4
    omega

/-- The output stage in full (R232 to R234). -/
theorem outputStage_eq {v : Stereo Rat} {s : State} (hm : s.mutex = false) (hc : s.rbbConstructed = true) :
    outputStage v s =
      .ok { s with
        rbb := s.rbb.push s.cfg (outputSample s v)
        rbbOverflow := s.rbbOverflow || decide (bufCap s.cfg ≤ s.rbb.size + 1) } := rbbPush_eq _ hm hc

/-- One push with its ghost flag (R167, R168). -/
def pushFlagged (c : Cfg) (p : BlockBuffer × Bool) (x : Stereo Half) : BlockBuffer × Bool :=
  (p.1.push c x, p.2 || decide (bufCap c ≤ p.1.size + 1))

/-- The buffer of flagged pushes is that of the pushes. -/
theorem foldl_pushFlagged_fst (c : Cfg) (xs : List (Stereo Half)) (p : BlockBuffer × Bool) :
    (xs.foldl (pushFlagged c) p).1 = xs.foldl (BlockBuffer.push c) p.1 := by
  induction xs generalizing p with
  | nil => rfl
  | cons x rest ih => exact ih _

/-- The ghost flag is never cleared. -/
theorem foldl_pushFlagged_mono (c : Cfg) (xs : List (Stereo Half)) {p : BlockBuffer × Bool} (h : p.2 = true) :
    (xs.foldl (pushFlagged c) p).2 = true := by
  induction xs generalizing p with
  | nil => exact h
  | cons x rest ih => exact ih (by simp [pushFlagged, h])

/-- With room for all the pushes the ghost flag stays. -/
theorem foldl_pushFlagged_room {c : Cfg} (xs : List (Stereo Half)) {p : BlockBuffer × Bool}
    (h : p.1.size + xs.length < bufCap c) : (xs.foldl (pushFlagged c) p).2 = p.2 := by
  induction xs generalizing p with
  | nil => rfl
  | cons x rest ih =>
    simp only [List.length_cons] at h
    have hs : (p.1.push c x).size = p.1.size + 1 := Nat.mod_eq_of_lt (by omega)
    rw [List.foldl_cons, ih (by show (p.1.push c x).size + _ < _; omega)]
    simp only [pushFlagged, decide_eq_false (show ¬bufCap c ≤ p.1.size + 1 by omega), Bool.or_false]

/-- The output stage on a list of samples: the pushes in order with their ghost flag; nothing else changes. -/
theorem outputAll_fold {s : State} (ys : List (Stereo Rat)) (hm : s.mutex = false) (hc : s.rbbConstructed = true) :
    outputAll ys s =
      .ok { s with
        rbb := ((ys.map (outputSample s)).foldl (pushFlagged s.cfg) (s.rbb, s.rbbOverflow)).1
        rbbOverflow := ((ys.map (outputSample s)).foldl (pushFlagged s.cfg) (s.rbb, s.rbbOverflow)).2 } := by
  induction ys generalizing s with
  | nil => rfl
  | cons y rest ih =>
    rw [outputAll, outputStage_eq hm hc]
    exact ih (s :=
      { s with
        rbb := s.rbb.push s.cfg (outputSample s y)
        rbbOverflow := s.rbbOverflow || decide (bufCap s.cfg ≤ s.rbb.size + 1) }) hm hc

/-- The same, of the ghost flag only that it is never cleared. -/
theorem outputAll_eq {s : State} (ys : List (Stereo Rat)) (hm : s.mutex = false) (hc : s.rbbConstructed = true) :
    ∃ g, outputAll ys s =
        .ok { s with rbb := (ys.map (outputSample s)).foldl (BlockBuffer.push s.cfg) s.rbb, rbbOverflow := g } ∧
      (s.rbbOverflow = true → g = true) :=
  ⟨_, by rw [outputAll_fold ys hm hc, foldl_pushFlagged_fst],
    fun h => foldl_pushFlagged_mono s.cfg (p := (s.rbb, s.rbbOverflow)) _ h⟩

/-- Pushes keep the shape of the buffer. -/
theorem BlockBuffer.foldl_push_ok {c : Cfg} {b : BlockBuffer} (xs : List (Stereo Half)) (h : b.Ok c) :
    (xs.foldl (BlockBuffer.push c) b).Ok c := by
  induction xs generalizing b with
  | nil => exact h
  | cons x rest ih => exact ih (BlockBuffer.push_ok x h)

/-- Pushes within capacity append to the queued samples. -/
theorem BlockBuffer.foldl_push_queued {c : Cfg} {b : BlockBuffer} (xs : List (Stereo Half)) (h : b.Ok c)
    (hlt : b.size + xs.length < bufCap c) :
    (xs.foldl (BlockBuffer.push c) b).queued c = b.queued c ++ xs := by
  induction xs generalizing b with
  | nil => simp
  | cons x rest ih =>
    simp only [List.length_cons] at hlt
    have hs : (b.push c x).size = b.size + 1 := by
      simp [BlockBuffer.push, Nat.mod_eq_of_lt (show b.size + 1 < bufCap c by omega)]
    rw [List.foldl_cons, ih (BlockBuffer.push_ok x h) (by omega), BlockBuffer.queued_push x h (by omega)]
    simp

/-- The re-arm of step 6 in full (R236): the delay is clamped to 0. -/
theorem rearmMixer_eq (s : State) :
    rearmMixer s =
      if max s.sched.now (mixTarget s.cfg s.mix.epoch (s.mix.n + 1)) < 2 ^ s.cfg.tsW then
        .ok { s with
          mix := { epoch := s.mix.epoch, n := s.mix.n + 1 }
          sched :=
            { now := s.sched.now,
              evq :=
                insertEvent
                  { target := max s.sched.now (mixTarget s.cfg s.mix.epoch (s.mix.n + 1)), cls := .mixer, seq := s.sched.seqCtr }
                  s.sched.evq,
              seqCtr := s.sched.seqCtr + 1 } }
      else .error (.refused .timestampOverflow) := by
  have : s.sched.now + (mixTarget s.cfg s.mix.epoch (s.mix.n + 1) - s.sched.now) =
      max s.sched.now (mixTarget s.cfg s.mix.epoch (s.mix.n + 1)) := by omega
  simp only [rearmMixer, arm_eq, this]

/-- Every element the mixer step reads has a value. -/
theorem mixerReads_eq {s : State} {body : Result State} (h1 : s.known.sndctlL = true) (h2 : s.known.sndctlH = true)
    (h3 : s.known.sndbias = true) (h4 : s.known.apu = true)
    (h5 : ∀ c, psgQueried s.csr.sndctlL c = true → s.known.psgIn.get c = true) : mixerReads s body = body := by
  have : undrivenPsg s = none := by
    rw [undrivenPsg, List.find?_eq_none]
    intro c _
    cases hq : psgQueried s.csr.sndctlL c with
    | false => simp
    | true => simp [h5 c hq]
  simp [mixerReads, needing, h1, h2, h3, h4, this]

/-- A mixer step that completed had every element it reads. -/
theorem mixerReads_ok {s t : State} {body : Result State} (h : mixerReads s body = .ok t) :
    s.known.sndctlL = true ∧ s.known.sndctlH = true ∧ s.known.sndbias = true ∧ s.known.apu = true ∧ body = .ok t := by
  obtain ⟨h1, h⟩ := needing_ok h
  obtain ⟨h2, h⟩ := needing_ok h
  obtain ⟨h3, h⟩ := needing_ok h
  obtain ⟨h4, h⟩ := needing_ok h
  refine ⟨h1, h2, h3, h4, ?_⟩
  split at h
  · cases h
  · exact h

/-- The mixer step's reads fault nowhere: a fault is the body's. -/
theorem mixerReads_violation {s : State} {v : Violation} {body : Result State} (h : mixerReads s body = .error (.violation v)) :
    body = .error (.violation v) := by
  obtain ⟨-, h⟩ := needing_violation h
  obtain ⟨-, h⟩ := needing_violation h
  obtain ⟨-, h⟩ := needing_violation h
  obtain ⟨-, h⟩ := needing_violation h
  split at h
  · cases h
  · exact h

/-- All the routing can do (R231), with the buffer there and the resampler in shape: push some samples and, through the resampler, move it
on; be refused for a ring with no value; or find the window short. -/
theorem routeSample_all (v : Stereo Rat) {s : State} (hm : s.mutex = false) (hc : s.rbbConstructed = true)
    (hs : 0 < s.rs.shift) (hr : s.ring.Ok s.cfg.rbN) :
    routeSample v s = .error (.refused (.noValue .rsRing)) ∧ s.known.ring = false ∨
    routeSample v s = .error (.violation .rbRange) ∨
    ∃ (xs : List (Stereo Half)) (phase : Rat) (ring : Ring) (g : Bool),
      routeSample v s =
        .ok { s with
          rs := { s.rs with phase := phase }
          ring := ring
          rbb := xs.foldl (BlockBuffer.push s.cfg) s.rbb
          rbbOverflow := g } ∧
      (0 ≤ s.rs.phase → 0 ≤ phase) ∧ ring.Ok s.cfg.rbN ∧ (s.rbbOverflow = true → g = true) := by
  cases hp : s.cfg.rsPath with
  | bypass =>
    refine .inr (.inr ⟨[outputSample s v], s.rs.phase, s.ring,
      s.rbbOverflow || decide (bufCap s.cfg ≤ s.rbb.size + 1), ?_, id, hr, ?_⟩)
    · rw [routeSample, hp]
      simp only
      rw [outputStage_eq hm hc]
      rfl
    · intro h; simp [h]
  | inline =>
    cases hk : s.known.ring with
    | false =>
      refine .inl ⟨?_, rfl⟩
      rw [routeSample, hp]
      simp only
      exact needing_false hk
    | true =>
      rcases rsWrite_all v hs hr with h | ⟨ys, phase, ring, h, -, h1, h2, -⟩
      · refine .inr (.inl ?_)
        rw [routeSample, hp]
        simp only
        rw [needing_true hk, h]
      · obtain ⟨g, ho, hg⟩ := outputAll_eq (s := { s with rs := { s.rs with phase := phase }, ring := ring }) ys hm hc
        refine .inr (.inr ⟨ys.map (outputSample s), phase, ring, g, ?_, fun _ => h1, h2, hg⟩)
        rw [routeSample, hp]
        simp only
        rw [needing_true hk, h]
        simp only
        rw [ho]
        rfl

/-- All the mixer step can do, with the mutex free and the resampler in shape. It completes: some samples are pushed, the step is counted
and one mixer event is armed at its target or at `now`; or it faults, without a buffer or on a short window; or it is refused. -/
theorem stepMixer_all {s : State} (hm : s.mutex = false) (hs : 0 < s.rs.shift) (hr : s.ring.Ok s.cfg.rbN) :
    (∃ r, stepMixer s = .error (.refused r)) ∨
    (stepMixer s = .error (.violation .rbbAbsent) ∧ s.rbbConstructed = false) ∨
    stepMixer s = .error (.violation .rbRange) ∨
    (s.rbbConstructed = true ∧ s.known.apu = true ∧
      max s.sched.now (mixTarget s.cfg s.mix.epoch (s.mix.n + 1)) < 2 ^ s.cfg.tsW ∧
      ∃ (xs : List (Stereo Half)) (phase : Rat) (ring : Ring) (g : Bool),
        stepMixer s =
          .ok { s with
            rs := { s.rs with phase := phase }
            ring := ring
            rbb := xs.foldl (BlockBuffer.push s.cfg) s.rbb
            rbbOverflow := g
            mix := { epoch := s.mix.epoch, n := s.mix.n + 1 }
            sched :=
              { now := s.sched.now,
                evq :=
                  insertEvent
                    { target := max s.sched.now (mixTarget s.cfg s.mix.epoch (s.mix.n + 1)), cls := .mixer, seq := s.sched.seqCtr }
                    s.sched.evq,
                seqCtr := s.sched.seqCtr + 1 } } ∧
        (0 ≤ s.rs.phase → 0 ≤ phase) ∧ ring.Ok s.cfg.rbN ∧ (s.rbbOverflow = true → g = true)) := by
  by_cases hc : s.rbbConstructed = true
  · have h0 : ∀ body : Result State, (∃ what, mixerReads s body = .error (.refused (.noValue what))) ∨
        (mixerReads s body = body ∧ s.known.apu = true) := by
      intro body
      unfold mixerReads needing
      cases s.known.sndctlL <;> cases s.known.sndctlH <;> cases s.known.sndbias <;> cases s.known.apu <;> simp
      split <;> simp
    rw [stepMixer, if_pos hc]
    rcases routeSample_all (mixNorm s) hm hc hs hr with ⟨h, -⟩ | h | ⟨xs, phase, ring, g, h, h1, h2, h3⟩
    · rw [h]
      rcases h0 (.error (.refused (.noValue .rsRing))) with ⟨w, h'⟩ | ⟨h', -⟩
      · exact .inl ⟨_, h'⟩
      · exact .inl ⟨_, h'⟩
    · rw [h]
      rcases h0 (.error (.violation .rbRange)) with ⟨w, h'⟩ | ⟨h', -⟩
      · exact .inl ⟨_, h'⟩
      · exact .inr (.inr (.inl h'))
    · rw [h]
      simp only
      rw [rearmMixer_eq]
      by_cases hfit : max s.sched.now (mixTarget s.cfg s.mix.epoch (s.mix.n + 1)) < 2 ^ s.cfg.tsW
      · rw [if_pos (by exact hfit)]
        rcases h0 (.ok _) with ⟨w, h'⟩ | ⟨h', ha⟩
        · exact .inl ⟨_, h'⟩
        · exact .inr (.inr (.inr ⟨hc, ha, hfit, xs, phase, ring, g, h', h1, h2, h3⟩))
      · rw [if_neg (by exact hfit)]
        rcases h0 (.error (.refused .timestampOverflow)) with ⟨w, h'⟩ | ⟨h', -⟩
        · exact .inl ⟨_, h'⟩
        · exact .inl ⟨_, h'⟩
  · exact .inr (.inl ⟨by simp [stepMixer, hc], by simpa using hc⟩)

/-- The sequencer step in full (R222, R237). -/
theorem stepSequencer_eq (s : State) :
    stepSequencer s =
      if s.sched.now + s.cfg.seqCycles < 2 ^ s.cfg.tsW then
        .ok { s with
          out := s.out ++ [.psgTick .ch0, .psgTick .ch1, .psgTick .ch2, .psgTick .ch3]
          sched :=
            { now := s.sched.now,
              evq :=
                insertEvent { target := s.sched.now + s.cfg.seqCycles, cls := .sequencer, seq := s.sched.seqCtr } s.sched.evq,
              seqCtr := s.sched.seqCtr + 1 } }
      else .error (.refused .timestampOverflow) := rfl

end Sys2Proof.Machine
end

