-- ==== Sys2Proof/Laws/Frames.lean ====
section
/-! SUPPORT. What no instruction changes and what is never undone, for every state: the relation `Kept`, and how each operation that
completes keeps it. -/

namespace Sys2Proof.Machine

/-- What every instruction keeps: the parameters, the program and the selected handler; the trace so far; a fault record and the ghost
flag once set. -/
structure Kept (s t : State) : Prop where
  cfg : t.cfg = s.cfg
  program : t.program = s.program
  dispatch : t.dispatch = s.dispatch
  out : s.out <+: t.out
  errCode : s.errCode ≠ 0 → t.errCode = s.errCode
  faulted : s.faulted = true → t.faulted = true
  overflow : s.rbbOverflow = true → t.rbbOverflow = true

theorem Kept.refl (s : State) : Kept s s := ⟨rfl, rfl, rfl, List.prefix_refl _, fun _ => rfl, id, id⟩

theorem Kept.trans {s t u : State} (h : Kept s t) (h' : Kept t u) : Kept s u :=
  ⟨h'.cfg.trans h.cfg, h'.program.trans h.program, h'.dispatch.trans h.dispatch, h.out.trans h'.out,
    fun he => (h'.errCode (by rw [h.errCode he]; exact he)).trans (h.errCode he), fun hf => h'.faulted (h.faulted hf),
    fun ho => h'.overflow (h.overflow ho)⟩

/-- A fault keeps it. -/
theorem Kept.raise (v : Violation) (s : State) : Kept s (s.raise v) :=
  ⟨rfl, rfl, rfl, List.prefix_refl _, fun h => if_neg h, fun _ => rfl, id⟩

/-- A change of the queue keeps it. -/
theorem Kept.withQueue (q : List Event) (s : State) : Kept s (s.withQueue q) :=
  ⟨rfl, rfl, rfl, List.prefix_refl _, fun _ => rfl, id, id⟩

/-- The end of a command keeps it. -/
theorem Kept.retire (s : State) : Kept s s.retire := ⟨rfl, rfl, rfl, List.prefix_refl _, fun _ => rfl, id, id⟩

/-- A result keeps it. -/
theorem Kept.result (v : Value) (s : State) : Kept s (s.result v) :=
  ⟨rfl, rfl, rfl, List.prefix_append _ _, fun _ => rfl, id, id⟩

/-! ### The parts of the mixer step, in any state -/

/-- `Arm` changes the queue and the insertion count alone. -/
theorem arm_ok {delta : Nat} {cls : EvClass} {s t : State} (h : arm delta cls s = .ok t) :
    s.sched.now + delta < 2 ^ s.cfg.tsW ∧
      t = { s with
        sched :=
          { now := s.sched.now,
            evq := insertEvent { target := s.sched.now + delta, cls := cls, seq := s.sched.seqCtr } s.sched.evq,
            seqCtr := s.sched.seqCtr + 1 } } := by
  rw [arm_eq] at h
  split at h
  · cases h; exact ⟨‹_›, rfl⟩
  · cases h

/-- `RS.Write` changes the phase and the ring alone. -/
theorem rsWrite_ok {x : Stereo Rat} {s t : State} {ys : List (Stereo Rat)} (h : rsWrite x s = .ok (ys, t)) :
    ∃ phase ring, t = { s with rs := { s.rs with phase := phase }, ring := ring } := by
  unfold rsWrite at h
  simp only at h
  split at h
  · cases h
  · split at h
    · cases h
    · split at h
      · cases h
      · cases h; exact ⟨_, _, rfl⟩

/-- The output stage changes the buffer and the ghost flag alone. -/
theorem outputAll_ok {ys : List (Stereo Rat)} {s t : State} (h : outputAll ys s = .ok t) :
    ∃ rbb g, t = { s with rbb := rbb, rbbOverflow := g } ∧ (s.rbbOverflow = true → g = true) := by
  induction ys generalizing s with
  | nil => cases h; exact ⟨_, _, rfl, id⟩
  | cons y rest ih =>
    rw [outputAll] at h
    split at h
    · cases h
    · rename_i u hu
      obtain ⟨-, -, rfl⟩ := rbbPush_ok hu
      obtain ⟨rbb, g, rfl, hg⟩ := ih h
      exact ⟨rbb, g, rfl, fun ho => hg (by simp [ho])⟩

/-- The routing changes the phase, the ring, the buffer and the ghost flag alone. -/
theorem routeSample_ok {v : Stereo Rat} {s t : State} (h : routeSample v s = .ok t) :
    ∃ phase ring rbb g,
      t = { s with rs := { s.rs with phase := phase }, ring := ring, rbb := rbb, rbbOverflow := g } ∧
        (s.rbbOverflow = true → g = true) := by
  unfold routeSample at h
  split at h
  · obtain ⟨-, -, rfl⟩ := rbbPush_ok h
    exact ⟨s.rs.phase, s.ring, _, _, rfl, fun ho => by simp [ho]⟩
  · obtain ⟨-, h⟩ := needing_ok h
    split at h
    · cases h
    · rename_i ys u hu
      obtain ⟨phase, ring, rfl⟩ := rsWrite_ok hu
      obtain ⟨rbb, g, rfl, hg⟩ := outputAll_ok h
      exact ⟨phase, ring, rbb, g, rfl, hg⟩

/-- A mixer step that completed, in any state: what it may have changed. -/
theorem stepMixer_ok {s t : State} (h : stepMixer s = .ok t) :
    s.rbbConstructed = true ∧ s.known.apu = true ∧
    ∃ phase ring rbb g q,
      t = { s with
        rs := { s.rs with phase := phase }
        ring := ring
        rbb := rbb
        rbbOverflow := g
        mix := { epoch := s.mix.epoch, n := s.mix.n + 1 }
        sched := { now := s.sched.now, evq := q, seqCtr := s.sched.seqCtr + 1 } } ∧
      q = insertEvent
        { target := max s.sched.now (mixTarget s.cfg s.mix.epoch (s.mix.n + 1)), cls := .mixer, seq := s.sched.seqCtr }
        s.sched.evq ∧
      (s.rbbOverflow = true → g = true) := by
  unfold stepMixer at h
  split at h
  · rename_i hc
    obtain ⟨-, -, -, ha, h⟩ := mixerReads_ok h
    split at h
    · cases h
    · rename_i u hu
      obtain ⟨phase, ring, rbb, g, rfl, hg⟩ := routeSample_ok hu
      rw [rearmMixer_eq] at h
      split at h
      · cases h
        exact ⟨hc, ha, phase, ring, rbb, g, _, rfl, rfl, hg⟩
      · cases h
  · cases h

/-- A sequencer step that completed, in any state. -/
theorem stepSequencer_ok {s t : State} (h : stepSequencer s = .ok t) :
    t = { s with
      out := s.out ++ [.psgTick .ch0, .psgTick .ch1, .psgTick .ch2, .psgTick .ch3]
      sched :=
        { now := s.sched.now,
          evq := insertEvent { target := s.sched.now + s.cfg.seqCycles, cls := .sequencer, seq := s.sched.seqCtr } s.sched.evq,
          seqCtr := s.sched.seqCtr + 1 } } := by
  rw [stepSequencer_eq] at h
  split at h
  · cases h; rfl
  · cases h

/-- What a handler that completed leaves alone: beside `Kept`, the time, the command index, host memory, the registers, the ports, the
variant and the shift, and the flags. -/
theorem handler_ok {k : EvClass} {s t : State} (h : handler k s = .ok t) :
    Kept s t ∧ t.sched.now = s.sched.now ∧ t.pc = s.pc ∧ t.mem = s.mem ∧ t.csr = s.csr ∧ t.ports = s.ports ∧ t.dma = s.dma ∧
      t.rs.variant = s.rs.variant ∧ t.rs.shift = s.rs.shift ∧ t.mix.epoch = s.mix.epoch ∧ t.rbbConstructed = s.rbbConstructed ∧
      t.mutex = s.mutex ∧ t.devOpen = s.devOpen ∧ t.cfgErr = s.cfgErr ∧ t.devFail = s.devFail ∧ t.errCode = s.errCode ∧
      t.faulted = s.faulted ∧ t.known = s.known := by
  cases k with
  | mixer =>
    obtain ⟨-, -, phase, ring, rbb, g, q, rfl, -, hg⟩ := stepMixer_ok h
    exact ⟨⟨rfl, rfl, rfl, List.prefix_refl _, fun _ => rfl, id, hg⟩, rfl, rfl, rfl, rfl, rfl, rfl, rfl, rfl, rfl, rfl, rfl,
      rfl, rfl, rfl, rfl, rfl, rfl⟩
  | sequencer =>
    have := stepSequencer_ok h
    subst this
    exact ⟨⟨rfl, rfl, rfl, List.prefix_append _ _, fun _ => rfl, id, id⟩, rfl, rfl, rfl, rfl, rfl, rfl, rfl, rfl, rfl, rfl, rfl,
      rfl, rfl, rfl, rfl, rfl, rfl⟩

end Sys2Proof.Machine
end

