-- ==== Sys2Proof/Laws/Inv.lean ====
section
/-! SUPPORT. The invariant through the parts of a step: what its parameters say, and that a fault, the end of a command and each handler keep
it; and the measure that bounds the loop of R134. -/

namespace Sys2Proof.Machine

/-- The constraints of R6, one by one. -/
theorem Cfg.wf_iff {c : Cfg} : c.wf = true ↔
    0 < c.cpsNum ∧ 0 < c.cpsDen ∧ 0 < c.seqCycles ∧ 0 < c.srcRate ∧ 2 ≤ c.psgW ∧ c.psgW ≤ 16 ∧ 1 ≤ c.masterW ∧ c.masterW ≤ 4 ∧
      c.masterNum.length = 2 ^ c.masterW ∧ 0 < c.psgDiv ∧ 1 ≤ c.biasW ∧ c.biasW ≤ 16 ∧ c.biasReset < 2 ^ c.biasW ∧
      c.satMin < c.satMax ∧ 0 < c.normScale ∧ 0 < c.s16Scale ∧ c.s16Scale ≤ 32768 ∧ 4 ≤ c.fifoCap ∧ 0 < c.rbbN ∧ 0 < c.rbbB ∧
      256 ≤ c.rbN := by
  simp only [Cfg.wf, Bool.and_eq_true, decide_eq_true_eq, and_assoc]

/-- Every fault has a code from 1 to 5 (R290). -/
theorem Violation.code_range (v : Violation) : v.code ≠ 0 ∧ v.code.toNat ≤ 5 := by cases v <;> decide

/-- A fault keeps the invariant. -/
theorem Inv.raise {s : State} (h : Inv s) (v : Violation) : Inv (s.raise v) :=
  { h with
    err_range := by
      simp only [State.raise_errCode]
      split
      · exact (Violation.code_range v).2
      · exact h.err_range
    err_fault := by
      simp only [State.raise_errCode, State.raise_faulted, true_iff]
      split
      · exact (Violation.code_range v).1
      · assumption }

/-- The end of a command keeps the invariant: it says nothing of `pc`. -/
theorem Inv.retire {s : State} (h : Inv s) : Inv s.retire := { h with }

/-- The trace is no part of the invariant. -/
theorem Inv.withOut {s : State} (h : Inv s) (out : List OutEvent) : Inv { s with out := out } := { h with }

/-- Taking the head of the queue away keeps the invariant. -/
theorem Inv.withQueue {s : State} (h : Inv s) {e : Event} {rest : List Event} (hq : s.sched.evq = e :: rest) :
    Inv (s.withQueue rest) :=
  { h with
    queue_sorted := by
      have := h.queue_sorted
      rw [hq] at this
      exact (List.pairwise_cons.1 this).2
    queue_seq := fun x hx => h.queue_seq x (by rw [hq]; exact List.mem_cons_of_mem _ hx)
    queue_target := fun x hx => h.queue_target x (by rw [hq]; exact List.mem_cons_of_mem _ hx) }

/-- A later time within range keeps the invariant. -/
theorem Inv.withNow {s : State} (h : Inv s) {now : Nat} (hn : now < 2 ^ s.cfg.tsW) :
    Inv { s with sched := { s.sched with now := now } } := { h with now_range := hn }

/-- One more event, its target in range, keeps the invariant. -/
theorem Inv.withEvent {s : State} (h : Inv s) {target : Nat} (cls : EvClass) (ht : target < 2 ^ s.cfg.tsW) :
    Inv { s with
      sched :=
        { now := s.sched.now, evq := insertEvent { target := target, cls := cls, seq := s.sched.seqCtr } s.sched.evq,
          seqCtr := s.sched.seqCtr + 1 } } :=
  { h with
    queue_sorted := insertEvent_sorted h.queue_sorted (fun x hx => Nat.ne_of_lt (h.queue_seq x hx))
    queue_seq := fun x hx => by
      rcases mem_insertEvent.1 hx with rfl | hx
      · exact Nat.lt_succ_self _
      · exact Nat.lt_succ_of_lt (h.queue_seq x hx)
    queue_target := fun x hx => by
      rcases mem_insertEvent.1 hx with rfl | hx
      · exact ht
      · exact h.queue_target x hx }

/-- A mixer step that completes keeps the invariant. -/
theorem stepMixer_inv {s t : State} (h : Inv s) (ht : stepMixer s = .ok t) : Inv t := by
  rcases stepMixer_all h.mutex_free h.shift_pos h.ring_ok with ⟨r, he⟩ | ⟨he, -⟩ | he | ⟨hc, ha, hfit, xs, phase, ring, g, he, h1, h2, -⟩
  · rw [he] at ht; cases ht
  · rw [he] at ht; cases ht
  · rw [he] at ht; cases ht
  · rw [he] at ht
    cases ht
    have := h.withEvent .mixer hfit
    exact
      { this with
        phase_nonneg := h1 h.phase_nonneg
        ring_ok := h2
        rbb_ok := fun hb => BlockBuffer.foldl_push_ok xs (h.rbb_ok hb) }

/-- A sequencer step that completes keeps the invariant. -/
theorem stepSequencer_inv {s t : State} (h : Inv s) (ht : stepSequencer s = .ok t) : Inv t := by
  rw [stepSequencer_eq] at ht
  split at ht
  · cases ht
    exact (h.withEvent .sequencer ‹_›).withOut _
  · cases ht

/-- A handler that completes keeps the invariant. -/
theorem handler_inv {k : EvClass} {s t : State} (h : Inv s) (ht : handler k s = .ok t) : Inv t := by
  cases k with
  | mixer => exact stepMixer_inv h ht
  | sequencer => exact stepSequencer_inv h ht

/-- In a state that meets the invariant a handler never gets stuck. -/
theorem handler_not_stuck {k : EvClass} {s : State} {f : Fault} (h : Inv s) : handler k s ≠ .error (.stuck f) := by
  cases k with
  | mixer =>
    show stepMixer s ≠ _
    rcases stepMixer_all h.mutex_free h.shift_pos h.ring_ok with ⟨r, he⟩ | ⟨he, -⟩ | he | ⟨-, -, -, xs, phase, ring, g, he, -⟩ <;>
      · rw [he]; simp
  | sequencer =>
    show stepSequencer s ≠ _
    rw [stepSequencer_eq]
    split <;> simp

/-! ### How many turns the loop of R134 can take -/

/-- The events that are due. -/
def dueCount (s : State) : Nat := (s.sched.evq.filter (fun e => decide (e.target ≤ s.sched.now))).length

/-- The measure: the due events, and the mixer steps that can still be late. -/
def dueMeasure (s : State) : Nat := dueCount s + ((s.sched.now + 1) * s.cfg.cpsDen - s.mix.n)

/-- The bound `SCH.ADV` gives the loop is at least the measure. -/
theorem dueMeasure_le (s : State) : dueMeasure s ≤ dueBound s := by
  have := List.length_filter_le (fun e => decide (e.target ≤ s.sched.now)) s.sched.evq
  unfold dueMeasure dueBound dueCount
  omega

/-- Events due after one insertion. -/
theorem dueCount_insert (e : Event) (q : List Event) (now : Nat) :
    ((insertEvent e q).filter (fun e => decide (e.target ≤ now))).length =
      (q.filter (fun e => decide (e.target ≤ now))).length + (if e.target ≤ now then 1 else 0) := by
  have := ((insertEvent_perm e q).filter (fun e => decide (e.target ≤ now))).length_eq
  rw [this, List.filter_cons]
  by_cases h : e.target ≤ now <;> simp [h]

/-- A mixer step whose next target is not past `now` is one of the first `(now + 1) × CPS_DEN`. -/
theorem late_bound {c : Cfg} {epoch n now : Nat} (hn : 0 < c.cpsNum) (hd : 0 < c.cpsDen)
    (h : mixTarget c epoch n ≤ now) : n ≤ (now + 1) * c.cpsDen := by
  have h1 : roundHalfUp (n * c.cpsNum) c.cpsDen ≤ now := by unfold mixTarget at h; omega
  unfold roundHalfUp at h1
  have h2 : 2 * (n * c.cpsNum) + c.cpsDen < (now + 1) * (2 * c.cpsDen) :=
    (Nat.div_lt_iff_lt_mul (by omega)).1 (Nat.lt_succ_of_le h1)
  have h3 : n ≤ n * c.cpsNum := Nat.le_mul_of_pos_right n hn
  have h4 : (now + 1) * (2 * c.cpsDen) = 2 * ((now + 1) * c.cpsDen) := by rw [Nat.mul_left_comm]
  omega

/-- Each turn of the loop lowers the measure. -/
theorem dueMeasure_turn {s t : State} {e : Event} {rest : List Event} (hw : s.cfg.wf = true)
    (hq : s.sched.evq = e :: rest) (hd : e.target ≤ s.sched.now) (ht : handler e.cls (s.withQueue rest) = .ok t) :
    dueMeasure t < dueMeasure s := by
  obtain ⟨h1, h2, h3, -⟩ := Cfg.wf_iff.1 hw
  have hs : dueCount s = (rest.filter (fun e => decide (e.target ≤ s.sched.now))).length + 1 := by
    simp [dueCount, hq, hd]
  cases hk : e.cls with
  | mixer =>
    rw [hk] at ht
    obtain ⟨-, -, phase, ring, rbb, g, q, rfl, rfl, -⟩ := stepMixer_ok (s := s.withQueue rest) ht
    have hc := dueCount_insert
      { target := max s.sched.now (mixTarget s.cfg s.mix.epoch (s.mix.n + 1)), cls := .mixer, seq := s.sched.seqCtr } rest s.sched.now
    have hm : dueMeasure s = dueCount s + ((s.sched.now + 1) * s.cfg.cpsDen - s.mix.n) := rfl
    rw [hm, hs]
    refine Nat.lt_of_le_of_lt (Nat.le_of_eq (congrArg (· + ((s.sched.now + 1) * s.cfg.cpsDen - (s.mix.n + 1))) hc)) ?_
    simp only
    by_cases hl : mixTarget s.cfg s.mix.epoch (s.mix.n + 1) ≤ s.sched.now
    · have := late_bound h1 h2 hl
      rw [if_pos (by omega)]
      omega
    · rw [if_neg (by omega)]
      omega
  | sequencer =>
    rw [hk] at ht
    have := stepSequencer_ok (s := s.withQueue rest) ht
    subst this
    have hc := dueCount_insert
      { target := s.sched.now + s.cfg.seqCycles, cls := .sequencer, seq := s.sched.seqCtr } rest s.sched.now
    have hm : dueMeasure s = dueCount s + ((s.sched.now + 1) * s.cfg.cpsDen - s.mix.n) := rfl
    rw [hm, hs]
    refine Nat.lt_of_le_of_lt (Nat.le_of_eq (congrArg (· + ((s.sched.now + 1) * s.cfg.cpsDen - s.mix.n)) hc)) ?_
    simp only
    rw [if_neg (by omega)]
    omega

/-- One turn of the loop of R134. -/
theorem runDue_turn {k : Nat} {s : State} {e : Event} {rest : List Event} (hq : s.sched.evq = e :: rest)
    (hd : e.target ≤ s.sched.now) :
    runDue (k + 1) s =
      match handler e.cls (s.withQueue rest) with
      | .ok t => runDue k t
      | .error stop => stop.outcome (s.withQueue rest) := by
  cases hh : handler e.cls (s.withQueue rest) <;> rw [runDue.eq_def] <;> simp [dueEvent_some.2 ⟨hq, hd⟩, hh]

/-- The loop with nothing due. -/
theorem runDue_idle {k : Nat} {s : State} (h : dueEvent s.sched.evq s.sched.now = none) : runDue k s = .next s.retire := by
  rw [runDue.eq_def]
  simp only [h]

end Sys2Proof.Machine
end

