-- ==== Sys2Proof/Laws/Operands.lean ====
section
/-! SUPPORT. The operands of R106: which values each reading takes, and that it takes exactly the values `Instr.wf` admits. -/

namespace Sys2Proof.Machine

/-- A class code below 2 has a class. -/
theorem classOperand_none {a : Byte} : classOperand a = none ↔ 1 < a.toNat := by revert a; decide

/-- A DMA channel operand below 2 has a channel. -/
theorem dmaOperand_none {a : Byte} : dmaOperand a = none ↔ 1 < a.toNat := by revert a; decide

/-- The channel a DMA operand names is the one with its number. -/
theorem dmaOperand_some {a : Byte} {f : DmaCh} : dmaOperand a = some f ↔ a.toNat = f.num := by
  cases f <;> revert a <;> decide

/-- A PSG channel operand below 4 has a channel. -/
theorem psgOperand_none {a : Byte} : psgOperand a = none ↔ 3 < a.toNat := by revert a; decide

/-- The channel a PSG operand names is the one with its number. -/
theorem psgOperand_some {a : Byte} {c : PsgCh} : psgOperand a = some c ↔ a.toNat = c.num := by
  cases c <;> revert a <;> decide

/-- An open result below 2 has a reading. -/
theorem okOperand_none {a : Byte} : okOperand a = none ↔ 1 < a.toNat := by revert a; decide

/-- A timer overflow count is admitted when it is 1. -/
theorem timesIsOne_iff {b : Half} : timesIsOne b = true ↔ b.toNat = 1 := by
  simp only [timesIsOne, beq_iff_eq]
  exact ⟨fun h => by subst h; rfl, fun h => BitVec.eq_of_toNat_eq h⟩

/-- A `PSG.SET` value is read when it fits `PSG_W` signed bits, as itself. -/
theorem psgValueOperand_some {c : Cfg} {d : Word} {v : Int} :
    psgValueOperand c d = some v ↔ fitsSigned c.psgW d.toInt = true ∧ v = d.toInt := by
  unfold psgValueOperand
  split
  · exact ⟨fun h => ⟨‹_›, (Option.some.inj h).symm⟩, fun h => by rw [h.2]⟩
  · rename_i hn
    exact ⟨fun h => (by cases h), fun h => absurd h.1 hn⟩

end Sys2Proof.Machine
end

