-- ==== Sys2Proof/Laws/PerInstr.lean ====
section
/-! SUPPORT. The per-instruction family `OpcodeRow`: the encoding of an instruction is a word of a row of the opcode table (R104),
with the row's opcode and its unused fields zero, and the port of the word is the instruction's; a handler's encoding is a class code below 2
(R105). -/

namespace Sys2Proof.Laws.OpcodeRow

/-- The encoding of `i` is a word of a row of the table, on the row's port. -/
def Statement (i : Instr) : Prop :=
  match encode i with
  | .command w => (∃ r ∈ opRows, w &&& r.format.mask = r.op.setWidth 64 <<< 56) ∧ i.port = portOfWord w
  | .event c => c.toNat ≤ 1 ∧ i.port = .scheduler

/-- A command's packed word belongs to the row `k` of the table. -/
theorem of_row (k : Fin 25) (op a : Byte) (b : Half) (d : Word) (p : Port) (ho : opRows[k].op = op)
    (hz : opRows[k].format.unusedZero a b d = true) (hp : p = if op = 0x50#8 then .h else .e) :
    (∃ r ∈ opRows, packWord op a b d &&& r.format.mask = r.op.setWidth 64 <<< 56) ∧
      p = portOfWord (packWord op a b d) :=
  ⟨⟨opRows[k], List.getElem_mem _, (masked_iff _ _ _).2 ⟨by simpa using ho.symm, by simpa using hz⟩⟩,
    by simpa [portOfWord] using hp⟩

theorem schAdd (cls : Byte) (delta : Word) : Statement (.schAdd cls delta) := of_row 0 _ _ _ _ _ rfl (by simp [opRows, Format.unusedZero]) rfl
theorem schAdv (n : Word) : Statement (.schAdv n) := of_row 1 _ _ _ _ _ rfl (by simp [opRows, Format.unusedZero]) rfl
theorem schNow : Statement .schNow := of_row 2 _ _ _ _ _ rfl (by simp [opRows, Format.unusedZero]) rfl
theorem rbPush (l r : Half) : Statement (.rbPush l r) := of_row 3 _ _ _ _ _ rfl (by simp [opRows, Format.unusedZero]) rfl
theorem rbPop : Statement .rbPop := of_row 4 _ _ _ _ _ rfl (by simp [opRows, Format.unusedZero]) rfl
theorem rbPeek (offset : Half) : Statement (.rbPeek offset) := of_row 5 _ _ _ _ _ rfl (by simp [opRows, Format.unusedZero]) rfl
theorem rbAvail : Statement .rbAvail := of_row 6 _ _ _ _ _ rfl (by simp [opRows, Format.unusedZero]) rfl
theorem rbReset : Statement .rbReset := of_row 7 _ _ _ _ _ rfl (by simp [opRows, Format.unusedZero]) rfl
theorem rbbPush (l r : Half) : Statement (.rbbPush l r) := of_row 8 _ _ _ _ _ rfl (by simp [opRows, Format.unusedZero]) rfl
theorem rbbPopb : Statement .rbbPopb := of_row 9 _ _ _ _ _ rfl (by simp [opRows, Format.unusedZero]) rfl
theorem rbbData : Statement .rbbData := of_row 10 _ _ _ _ _ rfl (by simp [opRows, Format.unusedZero]) rfl
theorem rbbBack : Statement .rbbBack := of_row 11 _ _ _ _ _ rfl (by simp [opRows, Format.unusedZero]) rfl
theorem rbbSize : Statement .rbbSize := of_row 12 _ _ _ _ _ rfl (by simp [opRows, Format.unusedZero]) rfl
theorem rbbCpb : Statement .rbbCpb := of_row 13 _ _ _ _ _ rfl (by simp [opRows, Format.unusedZero]) rfl
theorem rsRate (src : BitVec 24) (dst : Word) : Statement (.rsRate src dst) := of_row 14 _ _ _ _ _ rfl (by simp [opRows, Format.unusedZero]) rfl
theorem rsWrite (l r : Half) : Statement (.rsWrite l r) := of_row 15 _ _ _ _ _ rfl (by simp [opRows, Format.unusedZero]) rfl
theorem apuReset : Statement .apuReset := of_row 16 _ _ _ _ _ rfl (by simp [opRows, Format.unusedZero]) rfl
theorem apuOff : Statement .apuOff := of_row 17 _ _ _ _ _ rfl (by simp [opRows, Format.unusedZero]) rfl
theorem tmrOvf (timerId : Byte) (times : Half) : Statement (.tmrOvf timerId times) := of_row 18 _ _ _ _ _ rfl (by simp [opRows, Format.unusedZero]) rfl
theorem fifoWr (f : Byte) (word : Word) : Statement (.fifoWr f word) := of_row 19 _ _ _ _ _ rfl (by simp [opRows, Format.unusedZero]) rfl
theorem csrWr (index : Byte) (value : Word) : Statement (.csrWr index value) := of_row 20 _ _ _ _ _ rfl (by simp [opRows, Format.unusedZero]) rfl
theorem csrRd (index : Byte) : Statement (.csrRd index) := of_row 21 _ _ _ _ _ rfl (by simp [opRows, Format.unusedZero]) rfl
theorem psgSet (c : Byte) (value : Word) : Statement (.psgSet c value) := of_row 22 _ _ _ _ _ rfl (by simp [opRows, Format.unusedZero]) rfl
theorem devSet (ok : Byte) (rate : Word) : Statement (.devSet ok rate) := of_row 23 _ _ _ _ _ rfl (by simp [opRows, Format.unusedZero]) rfl
theorem cbReq (len : BitVec 24) (dest : Word) : Statement (.cbReq len dest) := of_row 24 _ _ _ _ _ rfl (by simp [opRows, Format.unusedZero]) rfl
theorem evMixer : Statement .evMixer := ⟨by decide, rfl⟩
theorem evSeq : Statement .evSeq := ⟨by decide, rfl⟩

end Sys2Proof.Laws.OpcodeRow
end

