-- ==== Sys2Proof/Laws/Ports.lean ====
section
/-! SUPPORT. The DMA channels: what serving one channel does to it, in the three cases of R252 to R254, and that the other channel is not
touched. -/

namespace Sys2Proof.Machine

/-- What serving channel `f` does to the DMA channels: refill an empty pipe, then shift a byte out of a pipe that holds one. -/
def serveDma (f : DmaCh) (d : Dma) : Dma :=
  let r := if (d.pipe.get f).count = 0 then refill f d else d
  if 0 < (r.pipe.get f).count then shiftOut f r else r

/-- Serving in full (R250): nothing but the channels and the trace changes. -/
theorem serveIfBound_eq (timerId : Byte) (f : DmaCh) (s : State) :
    serveIfBound timerId f s =
      { s with
        dma := if dmaTimer s.csr.sndctlH f = timerId.toNat then serveDma f s.dma else s.dma
        out := s.out ++
          (if dmaTimer s.csr.sndctlH f = timerId.toNat ∧ (s.dma.fifo.get f).length ≤ 3 then [.dmaReq f] else []) } := by
  unfold serveIfBound
  by_cases h : dmaTimer s.csr.sndctlH f = timerId.toNat
  · unfold serveChannel serveDma
    by_cases h2 : (s.dma.fifo.get f).length ≤ 3
    · simp only [h, h2, and_self, if_true]; rfl
    · simp [h, h2]
  · simp [h]

/-- The other channel is not touched. -/
theorem serveDma_other {f g : DmaCh} (h : g ≠ f) (d : Dma) :
    (serveDma f d).fifo.get g = d.fifo.get g ∧ (serveDma f d).latch.get g = d.latch.get g ∧
      (serveDma f d).pipe.get g = d.pipe.get g := by
  have hr : (refill f d).fifo.get g = d.fifo.get g ∧ (refill f d).latch.get g = d.latch.get g ∧
      (refill f d).pipe.get g = d.pipe.get g := by
    unfold refill; split <;> simp [h]
  have hs : ∀ d', (shiftOut f d').fifo.get g = d'.fifo.get g ∧ (shiftOut f d').latch.get g = d'.latch.get g ∧
      (shiftOut f d').pipe.get g = d'.pipe.get g := by
    intro d'; simp [shiftOut, h]
  unfold serveDma
  simp only
  split <;> split
  · rw [(hs _).1, (hs _).2.1, (hs _).2.2]; exact hr
  · exact hr
  · exact hs d
  · exact ⟨rfl, rfl, rfl⟩

/-- A pipe that holds something shifts a byte out (R253). -/
theorem serveDma_shift {f : DmaCh} {d : Dma} (h : 0 < (d.pipe.get f).count) :
    (serveDma f d).fifo.get f = d.fifo.get f ∧ (serveDma f d).latch.get f = (d.pipe.get f).word.setWidth 8 ∧
      (serveDma f d).pipe.get f = ⟨(d.pipe.get f).word >>> 8, (d.pipe.get f).count - 1⟩ := by
  simp [serveDma, show ¬ (d.pipe.get f).count = 0 by omega, h, shiftOut]

/-- An empty pipe takes the oldest word and shifts its first byte out (R252, R253). -/
theorem serveDma_refill {f : DmaCh} {d : Dma} {w : Word} {rest : List Word} (h : (d.pipe.get f).count = 0)
    (hq : d.fifo.get f = w :: rest) :
    (serveDma f d).fifo.get f = rest ∧ (serveDma f d).latch.get f = w.setWidth 8 ∧
      (serveDma f d).pipe.get f = ⟨w >>> 8, 3⟩ := by
  simp [serveDma, h, shiftOut, refill, hq]

/-- With pipe and FIFO empty the channel keeps its latch (R254). -/
theorem serveDma_empty {f : DmaCh} {d : Dma} (h : (d.pipe.get f).count = 0) (hq : d.fifo.get f = []) :
    (serveDma f d).fifo.get f = [] ∧ (serveDma f d).latch.get f = d.latch.get f ∧
      (serveDma f d).pipe.get f = d.pipe.get f := by
  simp [serveDma, h, refill, hq]

end Sys2Proof.Machine
end

