-- ==== Sys2Proof/Tests/Slice0.lean ====
section
/-! SUPPORT. Tests of single steps and single words, and a witness for the hypotheses of each obligation that has some.

Expected values are those of `95_test_vectors.md` (V1 to V57, P1 to P6) and of the worked encodings of R121; a test names its vector. The
start state `base` is the vectors' `S0` with the four PSG ports driven to 0. -/

namespace Sys2Proof.Tests

-- One after another: kernel evaluations that run side by side take a thread each.
set_option Elab.async false

open Sys2Proof Sys2Proof.Machine

/-! ### Helpers -/

/-- `S0` of `95_test_vectors.md` with `PSG.SET c, 0` for the four channels, its trace left empty. -/
def base : State :=
  { State.reset with
    sched := { now := 0, evq := [⟨512, .mixer, 0⟩, ⟨32768, .sequencer, 1⟩], seqCtr := 2 }
    csr := { State.reset.csr with sndbias := 512#32 }
    ports := { psgIn := ⟨0, 0, 0, 0⟩, devRate := 32768#32, devOk := true }
    mix := { epoch := 0, n := 1 }
    rs := { variant := .cosine, shift := 1, phase := 0 }
    ring := { data := List.replicate 256 zeroSample, head := 0, tail := 1 }
    rbb := { data := List.replicate 8 zeroSample16, currentBlock := 0, size := 0 }
    rbbConstructed := true
    devOpen := true
    known :=
      { sndctlL := true, sndctlH := true, sndbias := true, psgIn := ⟨true, true, true, true⟩, dev := true, apu := true,
        ring := true } }

/-- Power-on with the device ports driven: `DEV.SET 1, 32768`. -/
def booting : State :=
  { State.reset with
    ports := { State.reset.ports with devRate := 32768#32, devOk := true }
    known := { State.reset.known with dev := true } }

/-- `base` after `APU.OFF`. -/
def tornDown : State := { base with rbbConstructed := false, devOpen := false, sched := { base.sched with evq := [] } }

/-- `base` with its block buffer holding the given slots and queue. -/
def withBlocks (currentBlock size : Nat) (data : List (Stereo Half)) : State :=
  { base with rbb := { data := data, currentBlock := currentBlock, size := size } }

/-- `k` samples `(1, 1)`, `(2, 2)`, ... and silence in the rest of the eight slots. -/
def filled (k : Nat) : List (Stereo Half) :=
  (List.range 8).map (fun j => if j < k then ⟨BitVec.ofNat 16 (j + 1), BitVec.ofNat 16 (j + 1)⟩ else zeroSample16)

/-- `base` with a four-slot tap ring (`RB_N = 4`, as V20 has it) holding the given samples. -/
def withRing (head tail : Nat) (data : List (Stereo Rat)) : State :=
  { base with cfg := { base.cfg with rbN := 4 }, ring := { data := data, head := head, tail := tail } }

/-- V8's register writes on `base`: channel 0 on both sides at 16, master 7, factor 4. -/
def volumeAndBias : State :=
  { base with
    csr := { base.csr with sndctlL := 0x1177#32, sndctlH := 0x0002#32 }
    ports := { base.ports with psgIn := ⟨16, 0, 0, 0⟩ } }

/-- The state a step ends in, if it is a next state. -/
def after : Outcome → Option State
  | .next t => some t
  | .fault _ => none
  | .refused _ => none

/-- What the step of a command word leaves, from the state `s`. -/
def run (w : Nat) (s : State) : Option State := after (step (s.withFetchWord 64 w))

/-- Why the step of a command word is refused, if it is. -/
def refusal (w : Nat) (s : State) : Option Refusal :=
  match step (s.withFetchWord 64 w) with
  | .next _ => none
  | .fault _ => none
  | .refused r => some r

/-- What the step of a command word adds to the trace of a state whose trace is empty. -/
def trace (w : Nat) (s : State) : Option (List OutEvent) := (run w s).map (·.out)

/-- A next state with a property that can be computed. -/
theorem next_with {o : Outcome} {p : State → Bool} (h : (after o).any p = true) : ∃ t, o = .next t ∧ p t = true := by
  cases o with
  | next t => exact ⟨t, rfl, by simpa [after] using h⟩
  | fault _ => simp [after] at h
  | refused _ => simp [after] at h

/-- `base` meets the invariant. -/
theorem base_inv : Inv base where
  cfg_wf := by decide
  mem_wf := by decide
  queue_sorted := by decide
  queue_seq := by decide
  queue_target := by decide
  now_range := by decide
  fifo_range := by intro f; cases f <;> decide
  pipe_range := by intro f; cases f <;> decide
  sndctlL_reserved := by decide
  sndctlH_reserved := by decide
  sndbias_range := by decide
  outvol_range := by decide
  interp_range := by decide
  mixmode_range := by decide
  psg_range := by intro c; cases c <;> decide
  shift_pos := by decide +kernel
  phase_nonneg := by decide +kernel
  ring_ok := ⟨by decide +kernel, by decide⟩
  rbb_ok := fun _ => ⟨by decide, by decide, by decide⟩
  rbb_known := by decide
  apu_known := by decide
  mutex_free := rfl
  err_range := by decide
  err_fault := by decide
  device := by decide
  no_dispatch := rfl

/-- `tornDown` meets it. -/
theorem tornDown_inv : Inv tornDown :=
  { base_inv with
    queue_sorted := by decide
    queue_seq := by decide
    queue_target := by decide
    rbb_ok := (fun h => nomatch h)
    rbb_known := by decide
    device := by decide }

/-- A buffer in range keeps the invariant. -/
theorem withBlocks_inv {k size : Nat} {data : List (Stereo Half)} (hd : data.length = 8) (hk : k < 2) (hs : size < 8) :
    Inv (withBlocks k size data) :=
  { base_inv with rbb_ok := fun _ => ⟨hd, hk, hs⟩ }

/-! ### Well-formed operands: R106, R118 (V50b) -/

theorem test_wf_refuses_each_bad_operand :
    ∀ i ∈ ([ .schAdd 2 0, .tmrOvf 0 2, .tmrOvf 0 0, .fifoWr 2 0, .csrWr 7 0, .csrRd 9, .psgSet 4 0, .psgSet 0 128, .psgSet 0 (-129),
             .devSet 2 0, .cbReq 6 0 ] : List Instr), i.wf Config.ref = false := by decide

theorem test_wf_admits_the_last_good_operand :
    ∀ i ∈ ([ .schAdd 1 (-1), .tmrOvf 255 1, .fifoWr 1 0, .csrWr 6 0, .csrRd 8, .psgSet 3 127, .psgSet 0 (-128), .devSet 1 0,
             .cbReq 0 0 ] : List Instr), i.wf Config.ref = true := by decide

/-- R6's constraints, one broken at a time. -/
theorem test_cfg_wf_refuses_each_bad_parameter :
    ∀ c ∈ [ { Config.ref with cpsNum := 0 }, { Config.ref with cpsDen := 0 }, { Config.ref with seqCycles := 0 },
            { Config.ref with srcRate := 0 }, { Config.ref with psgW := 1 }, { Config.ref with psgW := 17 },
            { Config.ref with masterW := 5 }, { Config.ref with masterNum := [] }, { Config.ref with psgDiv := 0 },
            { Config.ref with biasW := 17 }, { Config.ref with biasReset := 1024 }, { Config.ref with satMin := 1023 } ] ++
          [ { Config.ref with normScale := 0 }, { Config.ref with s16Scale := 0 }, { Config.ref with s16Scale := 32769 },
            { Config.ref with fifoCap := 3 }, { Config.ref with rbbN := 0 }, { Config.ref with rbbB := 0 },
            { Config.ref with rbN := 255 } ],
      c.wf = false := by decide

theorem test_ref_wf : Config.ref.wf = true := by decide

/-! ### Decoding: words written out from R102 to R106, R121 -/

theorem test_decode_scheduler :
    decodeTableWord 64 0x010000000000000A = some (.schAdd 0 10) ∧ decodeTableWord 64 0x01010000FFFFFFFF = some (.schAdd 1 (-1)) ∧
    decodeTableWord 64 0x0200000000000200 = some (.schAdv 512) ∧ decodeTableWord 64 0x0300000000000000 = some .schNow ∧
    decodeTableWord 8 0x00 = some .evMixer ∧ decodeTableWord 8 0x01 = some .evSeq := by decide

theorem test_decode_ring :
    decodeTableWord 64 0x10000000FFFF0001 = some (.rbPush 1 (-1)) ∧ decodeTableWord 64 0x1100000000000000 = some .rbPop ∧
    decodeTableWord 64 0x1200000200000000 = some (.rbPeek 2) ∧ decodeTableWord 64 0x1300000000000000 = some .rbAvail ∧
    decodeTableWord 64 0x1400000000000000 = some .rbReset := by decide

theorem test_decode_block_buffer :
    decodeTableWord 64 0x200000000002FFFF = some (.rbbPush (-1) 2) ∧ decodeTableWord 64 0x2100000000000000 = some .rbbPopb ∧
    decodeTableWord 64 0x2200000000000000 = some .rbbData ∧ decodeTableWord 64 0x2300000000000000 = some .rbbBack ∧
    decodeTableWord 64 0x2400000000000000 = some .rbbSize ∧ decodeTableWord 64 0x2500000000000000 = some .rbbCpb := by decide

theorem test_decode_resampler :
    decodeTableWord 64 0x300080000000BB80 = some (.rsRate 32768 48000) ∧
    decodeTableWord 64 0x30ABCDEF00000001 = some (.rsRate 0xABCDEF 1) ∧
    decodeTableWord 64 0x31000000FFF90007 = some (.rsWrite 7 (-7)) := by decide

theorem test_decode_apu_and_callback :
    decodeTableWord 64 0x4000000000000000 = some .apuReset ∧ decodeTableWord 64 0x4100000000000000 = some .apuOff ∧
    decodeTableWord 64 0x5000002000001000 = some (.cbReq 32 0x1000) := by decide

theorem test_decode_ports :
    decodeTableWord 64 0x4805000100000000 = some (.tmrOvf 5 1) ∧ decodeTableWord 64 0x4901000000000008 = some (.fifoWr 1 8) ∧
    decodeTableWord 64 0x4A01000000000302 = some (.csrWr 1 0x302) ∧ decodeTableWord 64 0x4B07000000000000 = some (.csrRd 7) ∧
    decodeTableWord 64 0x4C00000000000010 = some (.psgSet 0 16) ∧
    decodeTableWord 64 0x4D01000000008000 = some (.devSet 1 32768) := by decide

/-- One word field by field (R102): `op` 63:56, `a` 55:48, `b` 47:32, `d` 31:0, in binary. -/
theorem test_decode_bit_by_bit :
    decodeCommand (0b01001000#8 ++ 0b00000101#8 ++ 0b0000000000000001#16 ++ 0b00000000000000000000000000000000#32) =
      .ok (.tmrOvf 5 1) := by decide

/-- R115, R116, R105: reserved opcodes, unused fields that are not zero, a class of another block. -/
theorem test_decode_refuses :
    decode (.command 0x0000000000000000#64) = .error .reservedOpcode ∧
    decode (.command 0x0400000000000000#64) = .error .reservedOpcode ∧
    decode (.command 0xFF00000000000000#64) = .error .reservedOpcode ∧
    decode (.command 0x0300000000000001#64) = .error .unusedField ∧
    decode (.command 0x4B07000000000001#64) = .error .unusedField ∧
    decode (.command 0x1201000200000000#64) = .error .unusedField ∧
    decode (.event 0x02#8) = .error .reservedClass := by decide

/-- R120: the three pseudo-commands are other spellings of core commands. -/
theorem test_pseudo_commands :
    encode (.rbWrite 1 (-1)) = .command 0x10000000FFFF0001#64 ∧ encode .rbRead = .command 0x1100000000000000#64 ∧
    encode .schTick = .command 0x0200000000000001#64 := by decide

/-- R101: the callback's word on the E port. -/
theorem test_step_refuses_wrong_port :
    step (placeCommand base ⟨.e, 0x5000002000001000#64⟩) = .refused .wrongPort := by rfl

/-- R22: the program has ended. -/
theorem test_step_at_the_end : step base = .refused .programEnded := by rfl

/-! ### The scheduler -/

/-- V10: a negative delay in a `RELEASE` build. -/
theorem test_schAdd_clamps :
    (run 0x01010000FFFFFFFF base).map (·.sched.evq) =
      some [⟨0, .sequencer, 2⟩, ⟨512, .mixer, 0⟩, ⟨32768, .sequencer, 1⟩] := by decide +kernel

/-- V11: the same in a `DEBUG` build. -/
theorem test_schAdd_debug :
    (run 0x01010000FFFFFFFF { base with cfg := { base.cfg with build := .debug } }).map
      (fun t => (t.errCode, t.sched.evq, t.sched.seqCtr, t.pc, t.faulted)) =
      some (5, base.sched.evq, 2, 0, true) := by decide +kernel

/-- V12: equal targets run in the order of insertion. -/
theorem test_schAdv_ties :
    (run 0x0200000000000007 { base with sched := { base.sched with evq := [⟨7, .sequencer, 2⟩, ⟨7, .mixer, 3⟩], seqCtr := 4 } }).map
      (fun t => (t.out, t.rbb.size, t.sched.evq)) =
      some ([.psgTick .ch0, .psgTick .ch1, .psgTick .ch2, .psgTick .ch3], 1,
        [⟨1024, .mixer, 5⟩, ⟨32775, .sequencer, 4⟩]) := by decide +kernel

/-- V13: a coarse advance catches up. -/
theorem test_schAdv_catches_up :
    (run 0x0200000000000514 base).map (fun t => (t.sched.now, t.rbb.size, t.mix.n, t.sched.evq)) =
      some (1300, 2, 3, [⟨1536, .mixer, 3⟩, ⟨32768, .sequencer, 1⟩]) := by decide +kernel

/-- V46's last read of the time. -/
theorem test_schNow :
    trace 0x0300000000000000 { tornDown with sched := { tornDown.sched with now := 10600 } } = some [.result (.number 10600)] := by
  decide +kernel

/-! ### RingBuffer -/

/-- V20: the fifth push into four slots overwrites slot 0. -/
theorem test_rbPush_overflow :
    (run 0x1000000000050005 (withRing 0 4 [⟨1, 1⟩, ⟨2, 2⟩, ⟨3, 3⟩, ⟨4, 4⟩])).map (·.ring) =
      some ⟨[⟨5, 5⟩, ⟨2, 2⟩, ⟨3, 3⟩, ⟨4, 4⟩], 0, 5⟩ := by decide +kernel

/-- V2: the lanes are signed. -/
theorem test_rbPush_sign :
    (run 0x10000000FFFF0001 (withRing 0 0 [⟨0, 0⟩, ⟨0, 0⟩, ⟨0, 0⟩, ⟨0, 0⟩])).map (fun t => t.ring.data.head?) =
      some (some ⟨1, -1⟩) := by decide +kernel

/-- V20: the pop after the overflow. -/
theorem test_rbPop_after_overflow :
    (run 0x1100000000000000 (withRing 0 5 [⟨5, 5⟩, ⟨2, 2⟩, ⟨3, 3⟩, ⟨4, 4⟩])).map (fun t => (t.out, t.ring.head, t.ring.tail)) =
      some ([.result (.sample ⟨5, 5⟩)], 1, 5) := by decide +kernel

/-- V18: an empty pop. -/
theorem test_rbPop_empty :
    (run 0x1100000000000000 (withRing 3 3 [⟨1, -1⟩, ⟨2, -2⟩, ⟨3, -3⟩, ⟨0, 0⟩])).map
      (fun t => (t.errCode, t.ring.head, t.ring.tail, t.pc)) = some (1, 3, 3, 0) := by decide +kernel

/-- V2: a peek at offset 2. -/
theorem test_rbPeek :
    trace 0x1200000200000000 (withRing 0 3 [⟨1, -1⟩, ⟨2, -2⟩, ⟨3, -3⟩, ⟨0, 0⟩]) = some [.result (.sample ⟨3, -3⟩)] := by
  decide +kernel

/-- V19: a peek past the last sample. -/
theorem test_rbPeek_range :
    (run 0x1200000100000000 (withRing 0 1 [⟨5, 5⟩, ⟨0, 0⟩, ⟨0, 0⟩, ⟨0, 0⟩])).map (·.errCode) = some 2 := by decide +kernel

/-- V2: three pushed. -/
theorem test_rbAvail :
    trace 0x1300000000000000 (withRing 0 3 [⟨1, -1⟩, ⟨2, -2⟩, ⟨3, -3⟩, ⟨0, 0⟩]) = some [.result (.number 3)] := by decide +kernel

/-- V21: before any reset the ring has no value, and `RB.RESET` gives it one. -/
theorem test_ring_before_reset :
    refusal 0x1300000000000000 State.reset = some (.noValue .rsRing) ∧
    (run 0x1400000000000000 State.reset).map (fun t => (t.known.ring, t.ring.head, t.ring.tail)) = some (true, 0, 0) := by
  decide +kernel

/-! ### RingBlockBuffer -/

/-- V22: signed lanes. -/
theorem test_rbbPush_sign :
    (run 0x200000007FFF8000 (withBlocks 0 1 (filled 1))).map (fun t => (t.rbb.size, t.rbb.data.getD 1 ⟨0, 0⟩)) =
      some (2, ⟨0x8000, 0x7FFF⟩) := by decide +kernel

/-- V25: the eighth push wraps `size` and sets the ghost flag. -/
theorem test_rbbPush_wraps :
    (run 0x2000000000080008 (withBlocks 0 7 (filled 7))).map (fun t => (t.rbb, t.rbbOverflow)) =
      some (⟨filled 8, 0, 0⟩, true) := by decide +kernel

/-- V23: the second block, and the block index wraps. -/
theorem test_rbbPopb_wraps :
    (run 0x2100000000000000
        (withBlocks 1 6 [⟨9, 9⟩, ⟨10, 10⟩, ⟨3, 3⟩, ⟨4, 4⟩, ⟨5, 5⟩, ⟨6, 6⟩, ⟨7, 7⟩, ⟨8, 8⟩])).map
      (fun t => (t.out, t.rbb.currentBlock, t.rbb.size)) =
      some ([.result (.samples16 [⟨5, 5⟩, ⟨6, 6⟩, ⟨7, 7⟩, ⟨8, 8⟩])], 0, 2) := by decide +kernel

/-- V24: fewer than a block. -/
theorem test_rbbPopb_underflow :
    (run 0x2100000000000000 (withBlocks 0 3 (filled 3))).map (fun t => (t.errCode, t.rbb.size)) = some (4, 3) := by
  decide +kernel

/-- V3: after the pop the oldest block is block 1. -/
theorem test_rbbData :
    trace 0x2200000000000000 (withBlocks 1 1 (filled 5)) = some [.result (.number 4)] := by decide +kernel

/-- V4: the newest sample. -/
theorem test_rbbBack :
    trace 0x2300000000000000 (withBlocks 0 3 (filled 3)) = some [.result (.sample16 ⟨3, 3⟩)] := by decide +kernel

/-- V33: after a drain the base sample is not zero. -/
theorem test_rbbBack_drained :
    trace 0x2300000000000000 (withBlocks 1 0 (filled 6)) = some [.result (.sample16 ⟨5, 5⟩)] := by decide +kernel

/-- V3, V26: the size, and the size of a buffer that does not exist. -/
theorem test_rbbSize :
    trace 0x2400000000000000 (withBlocks 0 5 (filled 5)) = some [.result (.number 5)] ∧
    (run 0x2400000000000000 State.reset).map (·.errCode) = some 3 := by decide +kernel

/-- V26: `RBB.CPB` needs no buffer. -/
theorem test_rbbCpb : trace 0x2500000000000000 State.reset = some [.result (.number 4)] := by decide +kernel

/-! ### The resampler -/

/-- V28: `RS.RATE 3, 2`. -/
theorem test_rsRate :
    (run 0x3000000300000002 base).map (fun t => (t.rs, t.cfgErr)) = some (⟨.cosine, 3 / 2, 0⟩, false) := by decide +kernel

/-- V32 (a): a zero rate falls back to Cosine. -/
theorem test_rsRate_zero :
    (run 0x300000000000BB80 { base with rs := { variant := .cubic, shift := 1, phase := 0 }, ring := { base.ring with tail := 3 } }).map
      (fun t => (t.rs, t.status, t.errCode, t.ring.available)) = some (⟨.cosine, 1, 0⟩, 7, 0, 1) := by decide +kernel

/-- V30: Cosine up by two, the first input. -/
theorem test_rsWrite_cosine :
    trace 0x31000000FF9C0064 { base with rs := { variant := .cosine, shift := 1 / 2, phase := 0 } } =
      some [.result (.samples [⟨0, 0⟩, ⟨50, -50⟩])] := by decide +kernel

/-- V28: Nearest down by 3/2, the input that is dropped. -/
theorem test_rsWrite_dropped :
    (run 0x3100000000030003 { base with rs := { variant := .nearest, shift := 3 / 2, phase := 1 }, ring := { base.ring with tail := 0 } }).map
      (fun t => (t.out, t.rs.phase, t.ring.available)) = some ([.result (.samples [])], 0, 0) := by decide +kernel

/-! ### The APU and the handlers -/

/-- `S0` by R216 to R221. -/
theorem test_apuReset_S0 :
    (run 0x4000000000000000 booting).map
      (fun t => decide (t.sched = base.sched ∧ t.csr = base.csr ∧ t.mix = ⟨0, 1⟩ ∧ t.rs = ⟨.cosine, 1, 0⟩ ∧
        t.ring.available = 1 ∧ t.rbb = base.rbb ∧ t.status = 3#32 ∧ t.out = [.devClose, .devOpen])) = some true := by
  decide +kernel

/-- V32 (b): a reserved variant, a zero rate and a device that fails to open. -/
theorem test_apuReset_headless :
    (run 0x4000000000000000
        { booting with ports := { booting.ports with devRate := 0, devOk := false }, csr := { booting.csr with interp := 7 } }).map
      (fun t => (t.rs.variant, t.rs.shift, t.status, t.csr.interp, t.sched.evq.length)) =
      some (.cosine, 1, 13, 7, 2) := by decide +kernel

/-- V46: teardown. -/
theorem test_apuOff :
    (run 0x4100000000000000 base).map (fun t => (t.status, t.sched.evq, t.out)) = some (0, [], [.devClose]) := by decide +kernel

/-- V8, P1: the volume and bias scenario, one mixer event. -/
theorem test_evMixer_volume_and_bias :
    (after (step (volumeAndBias.withFetchWord 8 0x00))).map (fun t => (t.rbb.back t.cfg, t.mix.n, t.sched.evq.head?)) =
      some (⟨1023, 1023⟩, 2, some ⟨512, .mixer, 0⟩) := by decide +kernel

/-- V35: two channels on the left only, different masters. -/
theorem test_evMixer_sides :
    (after (step (State.withFetchWord
        { base with
          csr := { base.csr with sndctlL := 0x3025#32, sndctlH := 0x0001#32 }
          ports := { base.ports with psgIn := ⟨100, -50, 0, 0⟩ } } 8 0x00))).map (fun t => t.rbb.back t.cfg) =
      some ⟨447, 0⟩ := by decide +kernel

/-- V9: the four ticks and the re-arm from `now`. -/
theorem test_evSeq :
    (after (step (base.withFetchWord 8 0x01))).map (fun t => (t.out, t.sched.evq, t.pc)) =
      some ([.psgTick .ch0, .psgTick .ch1, .psgTick .ch2, .psgTick .ch3],
        [⟨512, .mixer, 0⟩, ⟨32768, .sequencer, 1⟩, ⟨32768, .sequencer, 2⟩], 0) := by decide +kernel

/-! ### DMA channels, registers, ports -/

/-- V7, overflow 9: the refill of a pipe that ran empty, and a negative byte. -/
theorem test_tmrOvf_refills :
    (run 0x4800000100000000
        { base with
          csr := { base.csr with sndctlH := 0x4000#32 }
          dma := { base.dma with fifo := ⟨[0xCCBBAA99, 0x00FFEEDD], []⟩, latch := ⟨0x88, 0⟩ } }).map
      (fun t => (t.out, t.dma.latch.c0.toInt, t.dma.pipe.c0, t.dma.fifo.c0)) =
      some ([.dmaReq .ch0], -103, ⟨0xCCBBAA, 3⟩, [0x00FFEEDD]) := by decide +kernel

/-- V50: in `S0` both channels answer timer 0 and none answers timer 5. -/
theorem test_tmrOvf_binding :
    (run 0x4800000100000000 base).map (fun t => (t.out, decide (t.dma = base.dma))) = some ([.dmaReq .ch0, .dmaReq .ch1], true) ∧
    trace 0x4805000100000000 base = some [] := by decide +kernel

/-- V49: the eighth word is dropped. -/
theorem test_fifoWr_full :
    (run 0x4901000000000008 { base with dma := { base.dma with fifo := ⟨[], [1, 2, 3, 4, 5, 6, 7]⟩ } }).map (·.dma.fifo) =
      some ⟨[], [1, 2, 3, 4, 5, 6, 7]⟩ ∧
    (run 0x4901000000000007 { base with dma := { base.dma with fifo := ⟨[], [1, 2, 3, 4, 5, 6]⟩ } }).map (·.dma.fifo) =
      some ⟨[], [1, 2, 3, 4, 5, 6, 7]⟩ := by decide +kernel

/-- V50c: the write masks and the clamp, from power-on. -/
theorem test_csrWr_masks :
    (run 0x4A000000FFFFFFFF State.reset).map (·.csr.sndctlL) = some 0xFF77 ∧
    (run 0x4A010000FFFFFFFF State.reset).map (·.csr.sndctlH) = some 0x770F ∧
    (run 0x4A020000FFFFFFFF State.reset).map (·.csr.sndbias) = some 0x3FF ∧
    (run 0x4A04000000000000 State.reset).map (·.csr.interp) = some 0 := by decide +kernel

/-- V50c: the output volume's clamp, the last writable register, a read-only one. -/
theorem test_csrWr_rest :
    (run 0x4A030000FFFFFFFF State.reset).map (·.csr.outvol) = some 0 ∧
    (run 0x4A030000000000FA State.reset).map (·.csr.outvol) = some 100 ∧
    (run 0x4A0600000000BB80 State.reset).map (·.csr.tgtrate) = some 48000 ∧
    refusal 0x4A07000000000000 State.reset = some (.operandRange "index") := by decide +kernel

/-- V50c: reads after `BOOT`. -/
theorem test_csrRd :
    trace 0x4B02000000000000 base = some [.result (.word 512)] ∧ trace 0x4B03000000000000 base = some [.result (.word 100)] ∧
    trace 0x4B07000000000000 base = some [.result (.word 3)] := by decide +kernel

/-- V50c, P6: no value at power-on; an index that does not exist; the code after a fault. -/
theorem test_csrRd_edges :
    refusal 0x4B00000000000000 State.reset = some (.noValue .sndctlL) ∧
    refusal 0x4B09000000000000 State.reset = some (.operandRange "index") ∧
    trace 0x4B08000000000000 { base with errCode := 4, faulted := true } = some [.result (.word 4)] := by decide +kernel

/-- P5, V50b: a negative port value, and one that does not fit. -/
theorem test_psgSet :
    (run 0x4C000000FFFFFFF0 base).map (·.ports.psgIn) = some ⟨-16, 0, 0, 0⟩ ∧
    refusal 0x4C00000000000080 base = some (.operandRange "value") ∧
    refusal 0x4C04000000000000 base = some (.operandRange "c") := by decide +kernel

/-- P5, V50b. -/
theorem test_devSet :
    (run 0x4D01000000010000 State.reset).map (fun t => (t.ports.devOk, t.ports.devRate, t.known.dev)) = some (true, 65536, true) ∧
    refusal 0x4D02000000000000 State.reset = some (.operandRange "ok") := by decide +kernel

/-! ### The callback -/

/-- V57 and case (c): the lanes' order and signs, low byte first, and the pad. -/
theorem test_cbReq_bytes :
    (run 0x5000000800000010 (withBlocks 0 1 [⟨0xFFFE, 0x1234⟩, ⟨0, 0⟩, ⟨0, 0⟩, ⟨0, 0⟩, ⟨0, 0⟩, ⟨0, 0⟩, ⟨0, 0⟩, ⟨0, 0⟩])).map
      (fun t => (t.mem, t.rbb.size)) =
      some ([(0x10, 0xFE), (0x11, 0xFF), (0x12, 0x34), (0x13, 0x12), (0x14, 0xFE), (0x15, 0xFF), (0x16, 0x34), (0x17, 0x12)], 0) := by
  decide +kernel

/-- V55: a request inside a block, `len` no multiple of 4, and the empty request. -/
theorem test_cbReq_refusals :
    refusal 0x5000000800000000 (withBlocks 0 3 (filled 3)) = some .requestInsideBlock ∧
    refusal 0x5000000600000000 base = some (.operandRange "len") ∧
    (run 0x5000000000000000 base).map (fun t => (t.mem, t.rbb, t.out)) = some ([], base.rbb, []) := by decide +kernel

/-! ### Witnesses: for each obligation with hypotheses, states and operands that meet them, clause by clause -/

/-- `base` at time `now`, with the given pending events. -/
def atTime (now : Nat) (evq : List Event) : State := { base with sched := { now := now, evq := evq, seqCtr := 2 } }

/-- `base` routed through the resampler (V47). -/
def inlined : State := { base with cfg := { base.cfg with rsPath := .inline } }

/-- The same, with nothing in the tap ring. -/
def inlinedShort : State := { inlined with ring := { inlined.ring with tail := 0 } }

/-- The same, with no output due. -/
def inlinedLate : State := { inlined with rs := { variant := .nearest, shift := 3 / 2, phase := 1 } }

/-- The same, with seven samples queued in the eight slots. -/
def inlinedFull : State := { inlined with rbb := { data := filled 7, currentBlock := 0, size := 7 } }

/-- A block halted by `RB_EMPTY`. -/
def halted : State := { base with errCode := 1, faulted := true }

theorem atTime_inv {now : Nat} (h : now < 2 ^ 64) : Inv (atTime now []) :=
  { base_inv with
    queue_sorted := List.Pairwise.nil
    queue_seq := (fun _ h => nomatch h)
    queue_target := (fun _ h => nomatch h)
    now_range := h }

theorem inlined_inv : Inv inlined := { base_inv with cfg_wf := by decide, rbb_ok := (fun _ => ⟨by decide, by decide, by decide⟩) }

theorem volumeAndBias_inv : Inv volumeAndBias :=
  { base_inv with
    sndctlL_reserved := by decide
    sndctlH_reserved := by decide
    psg_range := by intro c; cases c <;> decide }

/-- The word at `pc`, its instruction and its port; the end of a program; the three kinds of class code. -/
theorem witness_StepRunsDecodedInstruction :
    ((base.withFetchWord 64 0x0300000000000000).dispatch = none ∧
      (base.withFetchWord 64 0x0300000000000000).program[0]? = some ⟨.e, 0x0300000000000000#64⟩ ∧
      decode (.command 0x0300000000000000#64) = .ok .schNow ∧ Instr.schNow.port = .e) ∧
    (base.dispatch = none ∧ base.pc = base.program.length) ∧
    (base.withFetchWord 8 0).dispatch = some 0x00#8 ∧ (base.withFetchWord 8 1).dispatch = some 0x01#8 ∧
    (base.withFetchWord 8 2).dispatch = some 0x02#8 := by decide +kernel

/-- A reserved opcode, a used row with an unused field set, and a command on the wrong port. -/
theorem witness_MeaninglessWordsRefused :
    ((placeCommand base ⟨.e, 0x0400000000000000#64⟩).program[0]? = some ⟨.e, 0x0400000000000000#64⟩ ∧ base.dispatch = none ∧
      opField 0x0400000000000000#64 = 0x04#8) ∧
    ((placeCommand base ⟨.e, 0x0300000000000001#64⟩).program[0]? = some ⟨.e, 0x0300000000000001#64⟩ ∧
      ∃ r ∈ opRows, opField 0x0300000000000001#64 = r.op ∧
        0x0300000000000001#64 &&& r.format.mask ≠ r.op.setWidth 64 <<< 56) ∧
    ((placeCommand base ⟨.e, 0x5000002000001000#64⟩).program[0]? = some ⟨.e, 0x5000002000001000#64⟩ ∧
      decode (.command 0x5000002000001000#64) = .ok (.cbReq 32 0x1000)) := by
  refine ⟨by decide, ⟨by decide, opRows[2], by simp [opRows], by decide, by decide⟩, by decide⟩

theorem witness_OutOfRangeOperandsRefused : base.faulted = false ∧ Instr.wf base.cfg (.tmrOvf 0 2) = false := by decide

theorem witness_EncodeOfDecode :
    decode (.command 0x4B07000000000000#64) = .ok (.csrRd 7) ∧ decode (.event 0x01#8) = .ok .evSeq := by decide

theorem witness_SchNowReturnsNow : base.faulted = false := rfl

/-- Both classes; a debug build with delay -1; the two sides of a target of `2^TS_W`. -/
theorem witness_SchAddArmsOneEvent :
    (base.faulted = false ∧ (0x00#8 = 0x00#8 ∧ EvClass.mixer = .mixer) ∧ (0x01#8 = 0x01#8 ∧ EvClass.sequencer = .sequencer)) ∧
    ((-1#32).toInt < 0 ∧ ({ base.cfg with build := .debug } : Cfg).build = .debug) ∧
    (0 ≤ (0#32).toInt ∧ base.cfg.build = .release) ∧
    (atTime (2 ^ 64 - 2) []).sched.now + (1#32).toInt.toNat < 2 ^ base.cfg.tsW ∧
    2 ^ base.cfg.tsW ≤ (atTime (2 ^ 64 - 1) []).sched.now + (1#32).toInt.toNat := by decide

theorem witness_SchAdvIsTheDrivingLoop :
    Inv base ∧ base.faulted = false ∧ base.sched.now + (512#32).toNat < 2 ^ base.cfg.tsW ∧
    Inv (atTime (2 ^ 64 - 1) []) ∧ 2 ^ base.cfg.tsW ≤ (atTime (2 ^ 64 - 1) []).sched.now + (1#32).toNat :=
  ⟨base_inv, by decide, by decide, atTime_inv (by decide), by decide⟩

/-- An advance over one event with another left pending, and one that stops a cycle short of the first event. -/
theorem witness_SchAdvLeavesNothingDue :
    (Inv base ∧ (∃ t, exec (.schAdv 512) base = .next t ∧ (!t.faulted) = true) ∧
      ∃ e ∈ base.sched.evq, base.sched.now + (512#32).toNat < e.target) ∧
    (base.faulted = false ∧ base.sched.now + (511#32).toNat < 2 ^ base.cfg.tsW ∧
      ∀ e ∈ base.sched.evq, base.sched.now + (511#32).toNat < e.target) :=
  ⟨⟨base_inv, next_with (by decide +kernel), ⟨32768, .sequencer, 1⟩, by decide, by decide⟩, by decide, by decide, by decide⟩

theorem witness_SchAdvCompletesWhenRunning :
    Inv base ∧ base.faulted = false ∧ base.rbbConstructed = true ∧ base.cfg.rsPath = .bypass ∧
    (∀ c, base.known.psgIn.get c = true) ∧ base.sched.now + (512#32).toNat + base.cfg.seqCycles < 2 ^ base.cfg.tsW ∧
    mixTarget base.cfg base.mix.epoch
      (base.mix.n + base.sched.evq.length + (base.sched.now + (512#32).toNat + 1) * base.cfg.cpsDen) < 2 ^ base.cfg.tsW :=
  ⟨base_inv, rfl, rfl, rfl, by intro c; cases c <;> rfl, by decide, by decide⟩

theorem witness_SequencerTicksAndRearms : base.faulted = false ∧ base.sched.now + base.cfg.seqCycles < 2 ^ base.cfg.tsW := by
  decide

theorem witness_MixerPushesOneSample :
    volumeAndBias.faulted = false ∧ volumeAndBias.rbbConstructed = true ∧ volumeAndBias.mutex = false ∧
    volumeAndBias.cfg.rsPath = .bypass ∧ volumeAndBias.known.sndctlL = true ∧ volumeAndBias.known.sndctlH = true ∧
    volumeAndBias.known.sndbias = true ∧ volumeAndBias.known.apu = true ∧
    (∀ c, psgQueried volumeAndBias.csr.sndctlL c = true → volumeAndBias.known.psgIn.get c = true) ∧
    max volumeAndBias.sched.now (volumeAndBias.mix.epoch +
      (2 * ((volumeAndBias.mix.n + 1) * volumeAndBias.cfg.cpsNum) + volumeAndBias.cfg.cpsDen) / (2 * volumeAndBias.cfg.cpsDen)) <
      2 ^ volumeAndBias.cfg.tsW :=
  ⟨rfl, rfl, rfl, rfl, rfl, rfl, rfl, rfl, by intro c; cases c <;> decide, by decide⟩

/-- The window short; the window held, with room for the output; no output due; and the buffer one sample from full. -/
theorem witness_InlineMixerPushesResampledSamples :
    (∀ s ∈ [inlinedShort, inlined, inlinedLate, inlinedFull],
      s.faulted = false ∧ s.rbbConstructed = true ∧ s.cfg.rsPath = .inline ∧
      (∀ c, psgQueried s.csr.sndctlL c = true → s.known.psgIn.get c = true) ∧
      max s.sched.now (mixTarget s.cfg s.mix.epoch (s.mix.n + 1)) < 2 ^ s.cfg.tsW) ∧
    (Inv inlinedShort ∧ inlinedShort.ring.available + 1 < taps inlinedShort.rs.variant ∧ inlinedShort.rs.phase < 1) ∧
    (Inv inlined ∧ taps inlined.rs.variant ≤ inlined.ring.available + 1 ∧
      inlined.rbb.size + outputCount inlined.rs.shift inlined.rs.phase < inlined.cfg.rbbN * inlined.cfg.rbbB) ∧
    (Inv inlinedLate ∧ 1 ≤ inlinedLate.rs.phase) ∧
    (Inv inlinedFull ∧ taps inlinedFull.rs.variant ≤ inlinedFull.ring.available + 1 ∧
      inlinedFull.cfg.rbbN * inlinedFull.cfg.rbbB ≤
        inlinedFull.rbb.size + outputCount inlinedFull.rs.shift inlinedFull.rs.phase) := by
  refine ⟨?_, ⟨{ inlined_inv with ring_ok := ⟨by decide +kernel, by decide⟩ }, by decide, by decide +kernel⟩,
    ⟨inlined_inv, by decide, by decide +kernel⟩,
    ⟨{ inlined_inv with shift_pos := by decide +kernel, phase_nonneg := by decide +kernel }, by decide +kernel⟩,
    ⟨{ inlined_inv with rbb_ok := fun _ => ⟨by decide, by decide, by decide⟩ }, by decide, by decide +kernel⟩⟩
  intro s hs
  simp only [List.mem_cons, List.not_mem_nil, or_false] at hs
  rcases hs with rfl | rfl | rfl | rfl <;>
    exact ⟨rfl, rfl, rfl, by intro c; cases c <;> decide, by decide⟩

/-- No buffer; and a channel enabled (bit 8, the first of the eight) whose port has no value. -/
theorem witness_MixerNeedsBufferAndPorts :
    (tornDown.faulted = false ∧ tornDown.rbbConstructed = false) ∧
    ∃ s, Inv s ∧ s.faulted = false ∧ s.rbbConstructed = true ∧ ∃ c, psgQueried s.csr.sndctlL c = true ∧ s.known.psgIn.get c = false :=
  ⟨by decide,
    { base with
      csr := { base.csr with sndctlL := 0x0100#32 }
      known := { base.known with psgIn := ⟨false, false, false, false⟩ } },
    { base_inv with sndctlL_reserved := by decide }, rfl, rfl, .ch0, by decide, rfl⟩

theorem witness_MixerFixedPath : volumeAndBias.csr.mixmode.getLsbD 0 = false := by decide

/-- `FLOAT = 1`; and a sum that is a multiple. -/
theorem witness_FloatPathEqualsFixedPathOnMultiples :
    ({ base with csr := { base.csr with mixmode := 1#32 } } : State).csr.mixmode.getLsbD 0 = true ∧
    0 < volumeAndBias.cfg.psgDiv ∧ (volumeAndBias.cfg.psgDiv : Int) ∣ psgScaled volumeAndBias .left := by decide

theorem witness_OutputStageArithmetic : (100 : Nat) ≤ 100 ∧ Config.ref.s16Scale ≤ 32767 := by decide

theorem witness_VolumeAndBiasScenario :
    volumeAndBias.cfg = Config.ref ∧ volumeAndBias.csr.mixmode.getLsbD 0 = false ∧ volumeAndBias.csr.sndctlL = 0x1177#32 ∧
    volumeAndBias.csr.sndctlH = 0x0002#32 ∧ volumeAndBias.csr.sndbias = 512#32 ∧ volumeAndBias.csr.outvol = 100#32 ∧
    volumeAndBias.ports.psgIn.c0 = 16 := by decide

theorem witness_MixerRangesUnderRef : volumeAndBias.cfg = Config.ref ∧ Inv volumeAndBias := ⟨rfl, volumeAndBias_inv⟩

theorem witness_MixerTargetsDoNotDrift : 0 < ({ Config.ref with cpsNum := 1023, cpsDen := 2 } : Cfg).cpsDen := by decide

theorem witness_ApuResetClearsRegisters :
    booting.faulted = false ∧ booting.known.dev = true ∧ booting.mutex = false ∧
    booting.cfg.biasReset < 2 ^ booting.cfg.biasW ∧ booting.cfg.biasW ≤ 16 ∧
    booting.sched.now + roundHalfUp booting.cfg.cpsNum booting.cfg.cpsDen < 2 ^ booting.cfg.tsW ∧
    booting.sched.now + booting.cfg.seqCycles < 2 ^ booting.cfg.tsW := by decide

/-- For the three statements of what `APU.RESET` leaves: a first reset and, with events to remove, a second one. -/
theorem witness_ApuResetBuildsBuffer :
    (∃ t, exec .apuReset booting = .next t ∧ (!t.faulted) = true) ∧ booting.faulted = false ∧
    (∃ t, exec .apuReset base = .next t ∧ (!t.faulted) = true) ∧ base.faulted = false :=
  ⟨next_with (by decide +kernel), rfl, next_with (by decide +kernel), rfl⟩

theorem witness_ApuResetConfiguresResampler :
    ∃ t, exec .apuReset booting = .next t ∧ (!booting.faulted && booting.cfg.wf) = true :=
  next_with (p := fun _ => !booting.faulted && booting.cfg.wf) (by decide +kernel)

theorem witness_ApuResetArmsBothEventsAndKeepsTheRest :
    ∃ t, exec .apuReset base = .next t ∧ (!base.faulted) = true :=
  next_with (p := fun _ => !base.faulted) (by decide +kernel)

theorem witness_ApuOffTearsDown : base.faulted = false ∧ base.mutex = false := by decide

/-- A bound channel with bytes in its pipe, one with an empty pipe and a word queued, one with neither; and an unbound one. -/
theorem witness_TimerOverflowServesBoundChannels :
    ∃ s : State, s.faulted = false ∧ s.known.apu = true ∧ s.known.sndctlH = true ∧
      (dmaTimer s.csr.sndctlH .ch0 = (0#8).toNat ∧ 0 < (s.dma.pipe.get .ch0).count) ∧
      (dmaTimer s.csr.sndctlH .ch1 = (1#8).toNat ∧ (s.dma.pipe.get .ch1).count = 0 ∧ s.dma.fifo.get .ch1 = [5]) ∧
      dmaTimer s.csr.sndctlH .ch1 ≠ (0#8).toNat ∧
      (dmaTimer base.csr.sndctlH .ch0 = (0#8).toNat ∧ (base.dma.pipe.get .ch0).count = 0 ∧ base.dma.fifo.get .ch0 = []) :=
  ⟨{ base with
      csr := { base.csr with sndctlH := 0x4000#32 }
      dma := { base.dma with fifo := ⟨[], [5]⟩, pipe := ⟨⟨0x44, 1⟩, ⟨0, 0⟩⟩ } },
    rfl, rfl, rfl, by decide, by decide, by decide, by decide⟩

theorem witness_PipeLatchScenario :
    ∃ s : State, s.faulted = false ∧ s.known.apu = true ∧ s.known.sndctlH = true ∧ s.csr.sndctlH.getLsbD 10 = false ∧
      s.csr.sndctlH.getLsbD 14 = true ∧ s.dma.fifo.c0 = [0x44332211, 0x88776655, 0xCCBBAA99, 0x00FFEEDD] ∧
      s.dma.pipe.c0.count = 0 :=
  ⟨{ base with
      csr := { base.csr with sndctlH := 0x4000#32 }
      dma := { base.dma with fifo := ⟨[0x44332211, 0x88776655, 0xCCBBAA99, 0x00FFEEDD], []⟩ } },
    rfl, rfl, rfl, by decide, by decide, rfl, rfl⟩

theorem witness_FifoWriteAppendsOrDrops :
    base.faulted = false ∧ base.known.apu = true ∧ State.reset.faulted = false ∧ State.reset.known.apu = false := by decide

theorem witness_CsrWriteByIndex : base.faulted = false ∧ (6#8).toNat ≤ 6 ∧ 7 ≤ (7#8).toNat := by decide

theorem witness_CsrReadReturnsRegister :
    base.faulted = false ∧ base.known.sndctlL = true ∧ base.known.sndctlH = true ∧ base.known.sndbias = true ∧
    State.reset.faulted = false ∧ State.reset.known.sndctlL = false ∧ State.reset.known.sndctlH = false ∧
    State.reset.known.sndbias = false ∧ 9 ≤ (9#8).toNat := by decide

/-- The last channel, at both ends of the range of REF's 8-bit ports. -/
theorem witness_PortCommandsDriveTheirPorts :
    base.faulted = false ∧ (3#8).toNat = PsgCh.ch3.num ∧
    (-(2 ^ (base.cfg.psgW - 1) : Int) ≤ (127#32).toInt ∧ (127#32).toInt < (2 ^ (base.cfg.psgW - 1) : Int)) ∧
    (-(2 ^ (base.cfg.psgW - 1) : Int) ≤ (-128#32).toInt ∧ (-128#32).toInt < (2 ^ (base.cfg.psgW - 1) : Int)) := by decide

theorem witness_RingPushAvailReset : base.faulted = false ∧ base.known.ring = true := by decide

/-- A ring with two samples: a pop, peeks at offsets 1 and 2; and an empty ring. -/
theorem witness_RingPopPeek :
    (∀ s ∈ [withRing 0 2 [⟨1, -1⟩, ⟨2, -2⟩, ⟨0, 0⟩, ⟨0, 0⟩], withRing 3 3 [⟨0, 0⟩, ⟨0, 0⟩, ⟨0, 0⟩, ⟨0, 0⟩]],
      s.faulted = false ∧ s.known.ring = true) ∧
    ((withRing 0 2 [⟨1, -1⟩, ⟨2, -2⟩, ⟨0, 0⟩, ⟨0, 0⟩]).ring.unread 4)[0]? = some ⟨1, -1⟩ ∧
    ((withRing 0 2 [⟨1, -1⟩, ⟨2, -2⟩, ⟨0, 0⟩, ⟨0, 0⟩]).ring.unread 4)[(1#16).toNat]? = some ⟨2, -2⟩ ∧
    (withRing 0 2 [⟨1, -1⟩, ⟨2, -2⟩, ⟨0, 0⟩, ⟨0, 0⟩]).ring.tail - (withRing 0 2 []).ring.head ≤ (2#16).toNat ∧
    (withRing 3 3 [⟨0, 0⟩, ⟨0, 0⟩, ⟨0, 0⟩, ⟨0, 0⟩]).ring.unread 4 = [] := by decide +kernel

/-- A ring with room, with a value to pop, and full. -/
theorem witness_RingIsAQueue :
    (Ring.Ok 4 ⟨[⟨1, 1⟩, ⟨2, 2⟩, ⟨3, 3⟩, ⟨0, 0⟩], 0, 3⟩ ∧ Ring.available ⟨[⟨1, 1⟩, ⟨2, 2⟩, ⟨3, 3⟩, ⟨0, 0⟩], 0, 3⟩ < 4) ∧
    Ring.unread 4 ⟨[⟨1, 1⟩, ⟨2, 2⟩, ⟨3, 3⟩, ⟨0, 0⟩], 0, 3⟩ = ⟨1, 1⟩ :: [⟨2, 2⟩, ⟨3, 3⟩] ∧
    (Ring.Ok 4 ⟨[⟨1, 1⟩, ⟨2, 2⟩, ⟨3, 3⟩, ⟨4, 4⟩], 0, 4⟩ ∧ 0 < 4 ∧
      Ring.available ⟨[⟨1, 1⟩, ⟨2, 2⟩, ⟨3, 3⟩, ⟨4, 4⟩], 0, 4⟩ = 4) :=
  ⟨⟨⟨rfl, by decide⟩, by decide⟩, by decide +kernel, ⟨rfl, by decide⟩, by decide, by decide⟩

theorem witness_BlockPushAdvancesModuloCapacity :
    base.faulted = false ∧ base.mutex = false ∧ base.rbbConstructed = true := by decide

/-- Sizes 4 and 3, either side of a block. -/
theorem witness_PopBlockReturnsOldestBlock :
    (base.faulted = false ∧ base.mutex = false ∧ base.rbbConstructed = true) ∧
    ((withBlocks 0 4 (filled 4)).rbb.Ok Config.ref ∧ Config.ref.rbbN ≤ (withBlocks 0 4 (filled 4)).rbb.size) ∧
    (withBlocks 0 3 (filled 3)).rbb.size < Config.ref.rbbN :=
  ⟨by decide, ⟨⟨by decide, by decide, by decide⟩, by decide⟩, by decide⟩

theorem witness_BlockBufferReads :
    base.faulted = false ∧ base.mutex = false ∧ base.rbbConstructed = true ∧
    ((withBlocks 0 3 (filled 3)).rbb.queued Config.ref).getLast? = some ⟨3, 3⟩ ∧ base.rbb.size = 0 := by decide

/-- Size 6, the last at which a push fits, and size 4, the first with a block. -/
theorem witness_BlockBufferIsAQueue :
    ((withBlocks 1 6 (filled 8)).rbb.Ok Config.ref ∧ (withBlocks 1 6 (filled 8)).rbb.size + 1 < bufCap Config.ref) ∧
    ((withBlocks 1 4 (filled 8)).rbb.Ok Config.ref ∧ Config.ref.rbbN ≤ (withBlocks 1 4 (filled 8)).rbb.size) :=
  ⟨⟨⟨by decide, by decide, by decide⟩, by decide⟩, ⟨by decide, by decide, by decide⟩, by decide⟩

theorem witness_BlockBufferAbsent :
    tornDown.faulted = false ∧ tornDown.mutex = false ∧ tornDown.rbbConstructed = false ∧
    Instr.rbbSize ∈ [Instr.rbbPush 1 1, .rbbPopb, .rbbData, .rbbBack, .rbbSize] := by decide

/-- A supported pair, the two zero rates, an unsupported pair; the default variant active, and another. -/
theorem witness_RateSetsShiftOrFallsBack :
    (base.faulted = false ∧ base.known.apu = true) ∧
    ((1#24) ≠ 0 ∧ (1#32) ≠ 0 ∧ base.cfg.rsSupported base.rs.variant (1#24).toNat (1#32).toNat = true) ∧
    ({ Config.ref with rsUnsupported := [(.cosine, 1, 1)] } : Cfg).rsSupported base.rs.variant (1#24).toNat (1#32).toNat = false ∧
    base.rs.variant = base.cfg.rsDefault ∧ Variant.cubic ≠ base.cfg.rsDefault ∧ 256 ≤ base.cfg.rbN := by decide

/-- A window one sample short; a full one; and a phase of exactly 1, where no output is due. -/
theorem witness_WriteProducesOutputsByPhase :
    (∃ s : State, Inv s ∧ s.faulted = false ∧ s.known.apu = true ∧ s.ring.available + 1 < taps s.rs.variant ∧ s.rs.phase < 1) ∧
    (Inv base ∧ taps base.rs.variant ≤ base.ring.available + 1 ∧ base.ring.available < base.cfg.rbN ∧
      base.rs.phase < max 1 base.rs.shift) ∧
    (∃ s : State, Inv s ∧ s.faulted = false ∧ s.known.apu = true ∧ 1 ≤ s.rs.phase ∧ s.rs.phase < max 1 s.rs.shift) :=
  ⟨⟨{ base with ring := { base.ring with tail := 0 } }, { base_inv with ring_ok := ⟨by decide +kernel, by decide⟩ }, rfl, rfl,
      by decide, by decide +kernel⟩,
    ⟨base_inv, by decide, by decide, by decide +kernel⟩,
    ⟨{ base with rs := { variant := .nearest, shift := 3 / 2, phase := 1 } },
      { base_inv with shift_pos := by decide +kernel, phase_nonneg := by decide +kernel }, rfl, rfl, by decide +kernel,
      by decide +kernel⟩⟩

theorem witness_KernelsPreserveConstants : ((List.range 2).map (fun _ => (1 / 2 : Rat))).sum = 1 := by decide +kernel

theorem witness_CallbackSilence :
    tornDown.faulted = false ∧ tornDown.mutex = false ∧ tornDown.rbbConstructed = false ∧ (4#24).toNat % 4 = 0 := by decide

/-- Six samples queued: one block asked for, with two samples left over; and R282's request for six, a block and a part. -/
theorem witness_CallbackDeliversQueueInOrder :
    Inv (withBlocks 0 6 (filled 6)) ∧ (withBlocks 0 6 (filled 6)).faulted = false ∧
    (withBlocks 0 6 (filled 6)).rbbConstructed = true ∧
    ((16#24).toNat % 4 = 0 ∧ (16#24).toNat / 4 % (withBlocks 0 6 (filled 6)).cfg.rbbN = 0 ∧
      (16#24).toNat / 4 < (withBlocks 0 6 (filled 6)).rbb.size) ∧
    ((24#24).toNat % 4 = 0 ∧ (24#24).toNat / 4 % (withBlocks 0 6 (filled 6)).cfg.rbbN ≠ 0 ∧
      (withBlocks 0 6 (filled 6)).rbb.size ≤ (24#24).toNat / 4) ∧
    5 < (24#24).toNat / 4 ∧ ((withBlocks 0 6 (filled 6)).rbb.queued Config.ref)[5]? = some ⟨6, 6⟩ :=
  ⟨withBlocks_inv (by decide) (by decide) (by decide), rfl, rfl, by decide, by decide, by decide, by decide⟩

/-- V6: three samples, a request for eight. A block and nothing more, and a block and two samples, a request for seven of each. -/
theorem witness_CallbackPadsUnderrun :
    ((Inv (withBlocks 0 3 (filled 3)) ∧ (32#24).toNat % 4 = 0 ∧
        (withBlocks 0 3 (filled 3)).rbb.size % (withBlocks 0 3 (filled 3)).cfg.rbbN ≠ 0 ∧
        (32#24).toNat / 4 % (withBlocks 0 3 (filled 3)).cfg.rbbN = 0) ∧
      Inv (withBlocks 0 4 (filled 4)) ∧ (28#24).toNat % 4 = 0 ∧
        (withBlocks 0 4 (filled 4)).rbb.size % (withBlocks 0 4 (filled 4)).cfg.rbbN = 0 ∧
        (withBlocks 0 4 (filled 4)).rbb.size < (28#24).toNat / 4) ∧
    (Inv (withBlocks 1 6 (filled 8)) ∧ (withBlocks 1 6 (filled 8)).rbb.size % (withBlocks 1 6 (filled 8)).cfg.rbbN ≠ 0 ∧
      (withBlocks 1 6 (filled 8)).rbb.size < (28#24).toNat / 4) ∧
    ∀ b k xs, (withBlocks b k xs).faulted = false ∧ (withBlocks b k xs).rbbConstructed = true :=
  ⟨⟨⟨withBlocks_inv (by decide) (by decide) (by decide), by decide, by decide, by decide⟩,
      withBlocks_inv (by decide) (by decide) (by decide), by decide, by decide, by decide⟩,
    ⟨withBlocks_inv (by decide) (by decide) (by decide), by decide, by decide⟩, fun _ _ _ => ⟨rfl, rfl⟩⟩

theorem witness_CallbackWritesExactlyItsBuffer :
    Inv (withBlocks 0 3 (filled 3)) ∧
    ∃ t, exec (.cbReq 32 0x1000) (withBlocks 0 3 (filled 3)) = .next t ∧ (!t.faulted) = true :=
  ⟨withBlocks_inv (by decide) (by decide) (by decide), next_with (by decide +kernel)⟩

/-- V55: two samples asked of three. -/
theorem witness_CallbackInsideBlockRefused :
    Inv (withBlocks 0 3 (filled 3)) ∧ (withBlocks 0 3 (filled 3)).faulted = false ∧
    (withBlocks 0 3 (filled 3)).rbbConstructed = true ∧ (8#24).toNat % 4 = 0 ∧
    (8#24).toNat / 4 % (withBlocks 0 3 (filled 3)).cfg.rbbN ≠ 0 ∧ (8#24).toNat / 4 < (withBlocks 0 3 (filled 3)).rbb.size :=
  ⟨withBlocks_inv (by decide) (by decide) (by decide), rfl, rfl, by decide, by decide, by decide⟩

theorem witness_HaltedAfterFault : halted.faulted = true ∧ Instr.schNow ≠ .csrRd 7#8 ∧ Instr.schNow ≠ .csrRd 8#8 := by decide

theorem witness_RefusedBeforeFirstReset :
    State.reset.faulted = false ∧ State.reset.known.apu = false ∧ State.reset.known.dev = false ∧ State.reset.known.ring = false := by
  decide

theorem witness_NowAndVariantMoveOnlyWhereNamed :
    (∃ t, exec (.schAdv 512) base = .next t ∧ (!t.faulted) = true) ∧ (∃ t, exec .schNow base = .next t ∧ (!t.faulted) = true) ∧
    Instr.schNow ≠ .apuReset ∧ (∀ src dst, Instr.schNow ≠ .rsRate src dst) ∧ (∀ n, Instr.schNow ≠ .schAdv n) :=
  ⟨next_with (by decide +kernel), next_with (by decide +kernel), by decide, nofun, nofun⟩

/-- A halted block still answers `CSR.RD 8`; a block whose ghost flag is set goes on. -/
theorem witness_FaultRecordIsSticky :
    (halted.errCode ≠ 0 ∧ halted.faulted = true ∧ ∃ t, exec (.csrRd 8) halted = .next t ∧ t.faulted = true) ∧
    ∃ s : State, s.rbbOverflow = true ∧ ∃ t, exec .schNow s = .next t ∧ (!t.faulted) = true :=
  ⟨⟨by decide, rfl, next_with (p := fun t => t.faulted) (by decide +kernel)⟩,
    { base with rbbOverflow := true }, rfl, next_with (by decide +kernel)⟩

theorem witness_OnlyTheCallbackWritesMemory :
    (∃ t, exec .schNow base = .next t ∧ (!t.faulted) = true) ∧ ∀ len dest, Instr.schNow ≠ .cbReq len dest :=
  ⟨next_with (by decide +kernel), nofun⟩

/-- A step of an advance that runs a handler, and a step that faults. -/
theorem witness_StepKeepsInvariant :
    (Inv (base.withFetchWord 64 0x0200000000000200) ∧
      ∃ t, step (base.withFetchWord 64 0x0200000000000200) = .next t ∧ (!t.faulted) = true) ∧
    (Inv (tornDown.withFetchWord 64 0x2400000000000000) ∧
      ∃ t, step (tornDown.withFetchWord 64 0x2400000000000000) = .next t ∧ t.faulted = true) :=
  ⟨⟨{ base_inv with }, next_with (by decide +kernel)⟩,
    ⟨{ tornDown_inv with }, next_with (p := fun t => t.faulted) (by decide +kernel)⟩⟩

theorem witness_NothingGetsStuck : Inv base ∧ base.faulted = false := ⟨base_inv, rfl⟩

end Sys2Proof.Tests
end

section
/-! SUPPORT. Power-on, refusals before the first `APU.RESET`, and the two read-only registers: the claims that need no frame. -/

namespace Sys2Proof.Machine

/-! ### Power-on -/

/-- Settles O1: every range holds of the values R62 and log entry 3 give, with the parameters of REF. -/
theorem resetMeetsInvariant : Obligations.ResetMeetsInvariant where
  cfg_wf := by decide
  mem_wf := List.Pairwise.nil
  queue_sorted := List.Pairwise.nil
  queue_seq := nofun
  queue_target := nofun
  now_range := by decide
  fifo_range f := by cases f <;> decide
  pipe_range f := by cases f <;> decide
  sndctlL_reserved := by decide
  sndctlH_reserved := by decide
  sndbias_range := by decide
  outvol_range := by decide
  interp_range := by decide
  mixmode_range := by decide
  psg_range c := by cases c <;> decide
  shift_pos := show (0 : Rat) < 1 from zero_lt_one
  phase_nonneg := Rat.le_refl
  ring_ok := Ring.cleared_ok Config.ref.rbN
  rbb_ok := nofun
  rbb_known := nofun
  apu_known := nofun
  mutex_free := rfl
  err_range := by decide
  err_fault := by decide
  device := by decide
  no_dispatch := rfl

/-- Settles O2: `State.reset` is written with these values. -/
theorem powerOnState : Obligations.PowerOnState :=
  ⟨rfl, rfl, rfl, rfl, rfl, rfl, rfl, rfl, rfl, rfl, rfl, rfl, rfl, rfl⟩

/-! ### Refusals before the first `APU.RESET` -/

/-- A command on a block that is not halted is refused by the element it reads and that has no value (R62). -/
theorem runCommand_noValue {s : State} {has : Bool} {what : Element} {body : Result State} (hf : s.faulted = false)
    (h : has = false) : runCommand s (needing has what body) = .refused (.noValue what) := by
  rw [needing_false h, runCommand_error hf]
  rfl

/-- Settles O55: each command's first read is of an element that has no value yet. -/
theorem refusedBeforeFirstReset : Obligations.RefusedBeforeFirstReset := by
  intro s timerId word dst src l r hf ha
  refine ⟨?_, ?_, ?_, ?_, ?_, ?_, ?_⟩
  · exact runCommand_noValue hf ha
  · exact runCommand_noValue hf ha
  · exact runCommand_noValue hf ha
  · exact runCommand_noValue hf ha
  · exact runCommand_noValue hf ha
  · exact execApuReset_undriven hf
  · intro hr
    exact ⟨runCommand_noValue hf hr, runCommand_noValue hf hr, runCommand_noValue hf hr, fun _ => runCommand_noValue hf hr⟩

/-! ### `STATUS` and `ERR` -/

/-- A flag as a number, added to twice another, is that number with the flag as its new bit 0. -/
theorem bit_add_two_mul (b : Bool) (n : Nat) : bit b + 2 * n = Nat.bit b n := by
  cases b <;> simp [bit, Nat.bit, Nat.add_comm]

/-- `STATUS` is the number whose binary digits are the four flags, `RBB_OK` the lowest (R36). -/
theorem State.status_eq_bits (s : State) :
    s.status =
      BitVec.ofNat 32 (Nat.bit s.rbbConstructed (Nat.bit s.devOpen (Nat.bit s.cfgErr (Nat.bit s.devFail 0)))) := by
  simp only [State.status, ← bit_add_two_mul]
  congr 1
  omega

/-- Bit `k` of `STATUS` (R36). -/
theorem State.getLsbD_status (s : State) (k : Nat) :
    s.status.getLsbD k =
      (decide (k = 0) && s.rbbConstructed || decide (k = 1) && s.devOpen || decide (k = 2) && s.cfgErr ||
        decide (k = 3) && s.devFail) := by
  rw [State.status_eq_bits, BitVec.getLsbD_ofNat]
  match k with
  | 0 | 1 | 2 | 3 => simp [Nat.testBit_bit_succ]
  | k + 4 => simp [Nat.testBit_bit_succ]

/-- Bit `k` of `ERR`: the fault code's, and zero above it (R37). -/
theorem State.getLsbD_err (s : State) (k : Nat) : s.err.getLsbD k = (decide (k < 8) && s.errCode.getLsbD k) := by
  rw [State.err, BitVec.getLsbD_setWidth]
  by_cases hk : k < 8
  · simp [hk, show k < 32 by omega]
  · simp [hk, BitVec.getLsbD_of_ge s.errCode k (by omega)]

/-- Settles O35: the bits of the two registers, one lemma for each. -/
theorem statusAndErrBits : Obligations.StatusAndErrBits :=
  fun s k => ⟨s.getLsbD_status k, s.getLsbD_err k⟩

end Sys2Proof.Machine
end

section
/-! SUPPORT. The mixer's two arithmetic paths (R227 to R230): the floating one by formula, and where the two agree. -/

namespace Sys2Proof.Machine

/-! ### The fields a mix reads -/

/-- `psg_sum` as the sum of its four channels (R226, R227). -/
theorem psgSum_eq (s : State) (side : Side) :
    psgSum s side =
      (if psgEnabled s.csr.sndctlL side .ch0 then s.ports.psgIn.c0 else 0) +
        (if psgEnabled s.csr.sndctlL side .ch1 then s.ports.psgIn.c1 else 0) +
        (if psgEnabled s.csr.sndctlL side .ch2 then s.ports.psgIn.c2 else 0) +
        (if psgEnabled s.csr.sndctlL side .ch3 then s.ports.psgIn.c3 else 0) := by
  simp [psgSum, PsgCh.all, Quad.get, add_assoc]

/-- The PSG volume by the two bits of its field (R28). -/
theorem psgVolume_eq (c : Cfg) (sndctlH : Word) :
    psgVolume c sndctlH =
      if sndctlH.getLsbD 1 then (if sndctlH.getLsbD 0 then c.psgVolTab.c3 else c.psgVolTab.c2)
      else (if sndctlH.getLsbD 0 then c.psgVolTab.c1 else c.psgVolTab.c0) := by
  unfold psgVolume
  cases sndctlH.getLsbD 1 <;> cases sndctlH.getLsbD 0 <;> rfl

/-- `dma_mix` as the sum of its two channels (R228). -/
theorem dmaMix_eq (s : State) (side : Side) :
    dmaMix s side =
      (if dmaEnabled s.csr.sndctlH .ch0 side then s.dma.latch.c0.toInt * (dmaVolume s.cfg s.csr.sndctlH .ch0 : Int) else 0) +
        (if dmaEnabled s.csr.sndctlH .ch1 side then s.dma.latch.c1.toInt * (dmaVolume s.cfg s.csr.sndctlH .ch1 : Int)
          else 0) := by
  simp [dmaMix, Pair.get]

/-! ### Agreement of the two paths -/

/-- Clamping commutes with the embedding of the integers. -/
theorem clampRat_intCast (x lo hi : Int) : clampRat (x : Rat) (lo : Rat) (hi : Rat) = (clampInt x lo hi : Rat) := by
  simp only [clampRat, clampInt, Int.cast_lt]
  split
  · rfl
  · split <;> rfl

/-- A truncated division that leaves no remainder is the exact quotient. -/
theorem tdiv_cast_of_dvd {a : Int} {b : Nat} (hb : 0 < b) (h : (b : Int) ∣ a) : (tdiv a b : Rat) = (a : Rat) / (b : Rat) := by
  rw [tdiv, Int.tdiv_eq_ediv_of_dvd h, Int.cast_div h (by exact_mod_cast hb.ne')]
  rfl

/-- Where the scaled PSG sum is a multiple of `PSG_DIV`, the two paths have the same accumulator, hence the same value. -/
theorem normFloat_eq_normFixed {s : State} {side : Side} (hd : 0 < s.cfg.psgDiv)
    (h : (s.cfg.psgDiv : Int) ∣ psgScaled s side) : normFloat s side = normFixed s side := by
  simp only [normFloat, normFixed, ← tdiv_cast_of_dvd hd h, ← clampRat_intCast]
  push_cast
  rfl

/-- Settles O20: the float path unfolded through its fields, and the agreement on exact quotients. -/
theorem floatPathEqualsFixedPathOnMultiples : Obligations.FloatPathEqualsFixedPathOnMultiples := by
  refine ⟨?_, fun s side => normFloat_eq_normFixed⟩
  intro s hm
  have hmix : mixNorm s = Stereo.of (normFloat s) := by simp [mixNorm, floatMode, hm]
  rw [hmix]
  simp only [Stereo.of_l, Stereo.of_r, normFloat, psgScaled, psgSum_eq, psgVolume_eq, dmaMix_eq]
  constructor <;>
    simp [normalise, clampRat, psgEnabled, PsgCh.num, dmaEnabled, dmaVolume, DmaCh.num, masterNumOf, masterField, biasLevel]

end Sys2Proof.Machine
end

section
/-! SUPPORT. What a `CB.REQ` writes and what it leaves alone. -/

namespace Sys2Proof.Machine

/-- A request that is not for whole samples is refused, so it answers no next state (R118, R276). -/
theorem execCbReq_next_aligned {len : BitVec 24} {dest : Word} {s t : State} (h : execCbReq len dest s = .next t) :
    len.toNat % 4 = 0 := by
  by_contra hl
  have hr : requestOperand len = none := if_neg hl
  rw [execCbReq, hr] at h
  obtain ⟨-, ⟨u, hu, -⟩ | ⟨v, hv, -⟩⟩ := runCommand_next h
  · cases hu
  · cases hv

/-- What a request has done that completed, its `len` bytes starting at `dest`: they are written each once and in order, no other byte
of memory is, and of the block it moved two cursors of the buffer, `pc` and the trace. -/
structure Delivered (dest len : Nat) (s t : State) : Prop where
  wrote : ∃ bytes : List Byte, bytes.length = len ∧ Wrote dest bytes s.out t.out t.mem
  others : ∀ a, a < dest ∨ dest + len ≤ a → Memory.read t.mem a = Memory.read s.mem a
  frame : t = { s with
    mem := t.mem, out := t.out, pc := s.pc + 1,
    rbb := { s.rbb with currentBlock := t.rbb.currentBlock, size := t.rbb.size } }

/-- Without a buffer a request is delivered as silence (R277). -/
theorem delivered_of_silence {dest n : Nat} {s : State} (hm : s.mutex = false) :
    Delivered dest n s ({ silence dest n { s with mutex := true } with mutex := false } : State).retire := by
  have hw := silence_wrote dest n { s with mutex := true }
  have hr := silence_read dest n { s with mutex := true }
  obtain ⟨mem, out, he, -⟩ := silence_frame dest n { s with mutex := true }
  rw [he] at hw hr ⊢
  refine ⟨⟨_, List.length_replicate, hw⟩, fun a ha => (hr a).trans (if_neg (by omega)), ?_⟩
  simp [State.retire, hm]

/-- A drain that completes delivers the request (R278). -/
theorem delivered_of_drain {dest n : Nat} {s t : State} (hm : s.mutex = false) (hok : s.rbb.Ok s.cfg) (hn : 0 < s.cfg.rbbN)
    (h : drain dest n 0 n { s with mutex := true } = .ok t) :
    Delivered dest (4 * n) s ({ t with mutex := false } : State).retire := by
  have hw := drain_wrote dest (s := { s with mutex := true }) hok hn le_rfl h
  rcases drain_all dest (i := 0) (s := { s with mutex := true }) hok hn (le_refl n) with
    hr | ⟨mem, out, rbb, hd, -, hdata, -, -, hother, -⟩
  · rw [hr] at h; cases h
  · rw [hd] at h
    cases h
    refine ⟨hw, fun a ha => hother a (by omega), ?_⟩
    simp only at hdata
    simp [State.retire, hm, ← hdata]

/-- Every `CB.REQ` that answers a next state in a state of the invariant has delivered its request: none faults. -/
theorem execCbReq_delivered {len : BitVec 24} {dest : Word} {s t : State} (hi : Inv s) (h : execCbReq len dest s = .next t) :
    Delivered dest.toNat len.toNat s t := by
  have hl := execCbReq_next_aligned h
  have hlen : 4 * (len.toNat / 4) = len.toNat := by omega
  have hn : 0 < s.cfg.rbbN := by have := Cfg.wf_iff.1 hi.cfg_wf; omega
  rw [execCbReq_eq (runCommand_next h).1 hi.mutex_free hl] at h
  split at h
  next hc =>
    rcases drain_all dest.toNat (i := 0) (s := { s with mutex := true }) (hi.rbb_ok hc) hn (le_refl (len.toNat / 4)) with
      hr | ⟨mem, out, rbb, hd, -⟩
    · rw [hr] at h; cases h
    · rw [hd] at h
      cases h
      have := delivered_of_drain hi.mutex_free (hi.rbb_ok hc) hn hd
      rwa [hlen] at this
  next =>
    cases h
    rw [hlen]
    exact delivered_of_silence hi.mutex_free

/-- Settles O52: the request's bytes are the run `Wrote` names, with its trace written out. -/
theorem callbackWritesExactlyItsBuffer : Obligations.CallbackWritesExactlyItsBuffer := by
  intro s t len dest hi h
  obtain ⟨⟨bytes, hlen, hw⟩, hothers, hframe⟩ := execCbReq_delivered hi h
  refine ⟨⟨bytes, hlen, ?_, ?_⟩, hothers, hframe⟩
  · rw [hw.trace, byteEvents, hlen]
  · rw [← hlen]
    exact hw.found

end Sys2Proof.Machine
end

section
/-! SUPPORT. What each instruction leaves alone, in every state: `Kept`, and beside it the time, the variant and host memory, each of which
only the instructions named for it may change. -/

namespace Sys2Proof.Machine

/-! ### Quiet operations -/

/-- Nothing changed that `Kept` names, nor the time, the variant or host memory. -/
structure Quiet (s t : State) : Prop where
  kept : Kept s t
  now : t.sched.now = s.sched.now
  variant : t.rs.variant = s.rs.variant
  mem : t.mem = s.mem

theorem Quiet.refl (s : State) : Quiet s s := ⟨.refl s, rfl, rfl, rfl⟩

theorem Quiet.trans {s t u : State} (h : Quiet s t) (h' : Quiet t u) : Quiet s u :=
  ⟨h.kept.trans h'.kept, h'.now.trans h.now, h'.variant.trans h.variant, h'.mem.trans h.mem⟩

/-- A fault is quiet. -/
theorem Quiet.raise (v : Violation) (s : State) : Quiet s (s.raise v) := ⟨.raise v s, rfl, rfl, rfl⟩

/-- The end of a command is quiet. -/
theorem Quiet.retire (s : State) : Quiet s s.retire := ⟨.retire s, rfl, rfl, rfl⟩

/-- A result is quiet. -/
theorem Quiet.result (v : Value) (s : State) : Quiet s (s.result v) := ⟨.result v s, rfl, rfl, rfl⟩

/-- Taking or freeing the mutex is quiet. -/
theorem Quiet.withMutexBit (b : Bool) (s : State) : Quiet s { s with mutex := b } :=
  ⟨⟨rfl, rfl, rfl, List.prefix_refl _, fun _ => rfl, id, id⟩, rfl, rfl, rfl⟩

/-- A handler that completed was quiet. -/
theorem Quiet.of_handler {k : EvClass} {s t : State} (h : handler k s = .ok t) : Quiet s t := by
  obtain ⟨hk, hnow, -, hmem, -, -, -, hvar, -⟩ := handler_ok h
  exact ⟨hk, hnow, hvar, hmem⟩

/-- An operation under the mutex is quiet when its body is. -/
theorem Quiet.of_withMutex {s t : State} {body : State → Result State} (h : withMutex s body = .ok t)
    (hb : ∀ u v, body u = .ok v → Quiet u v) : Quiet s t := by
  obtain ⟨-, u, hu, rfl⟩ := withMutex_ok h
  exact (Quiet.withMutexBit true s).trans ((hb _ _ hu).trans (Quiet.withMutexBit false u))

/-- An operation on the buffer is quiet when its body is. -/
theorem Quiet.of_withBuffer {s t : State} {body : State → Result State} (h : withBuffer s body = .ok t)
    (hb : ∀ u v, body u = .ok v → Quiet u v) : Quiet s t := by
  refine Quiet.of_withMutex h fun u v hu => ?_
  split at hu
  · exact hb u v hu
  · cases hu

/-- A command is quiet when its body is. -/
theorem Quiet.of_runCommand {s t : State} {body : Result State} (h : runCommand s body = .next t)
    (hb : ∀ u, body = .ok u → Quiet s u) : Quiet s t := by
  obtain ⟨-, ⟨u, hu, rfl⟩ | ⟨v, -, rfl⟩⟩ := runCommand_next h
  · exact (hb u hu).trans (.retire u)
  · exact .raise v s

/-- A handler run on its own is quiet. -/
theorem Quiet.of_runHandler {k : EvClass} {s t : State} (h : runHandler s (handler k s) = .next t) : Quiet s t := by
  obtain ⟨-, hok | ⟨v, -, rfl⟩⟩ := runHandler_next h
  · exact .of_handler hok
  · exact .raise v s

/-! ### Each quiet instruction -/

theorem execSchAdd_quiet {cls : Byte} {delta : Word} {s t : State} (h : execSchAdd cls delta s = .next t) : Quiet s t := by
  refine Quiet.of_runCommand h fun u hu => ?_
  split at hu
  · cases hu
  · split at hu
    · cases hu
    · obtain ⟨-, rfl⟩ := arm_ok hu
      exact ⟨⟨rfl, rfl, rfl, List.prefix_refl _, fun _ => rfl, id, id⟩, rfl, rfl, rfl⟩

theorem execSchNow_quiet {s t : State} (h : execSchNow s = .next t) : Quiet s t :=
  Quiet.of_runCommand h fun u hu => by cases hu; exact .result _ s

/-- A change of the ring and of which elements have a value is quiet. -/
theorem Quiet.withRing (r : Ring) (k : Known) (s : State) : Quiet s { s with ring := r, known := k } :=
  ⟨⟨rfl, rfl, rfl, List.prefix_refl _, fun _ => rfl, id, id⟩, rfl, rfl, rfl⟩

theorem execRbPush_quiet {l r : Half} {s t : State} (h : execRbPush l r s = .next t) : Quiet s t :=
  Quiet.of_runCommand h fun u hu => by
    obtain ⟨-, hu⟩ := needing_ok hu
    cases hu
    exact .withRing _ s.known s

theorem execRbPop_quiet {s t : State} (h : execRbPop s = .next t) : Quiet s t :=
  Quiet.of_runCommand h fun u hu => by
    obtain ⟨-, hu⟩ := needing_ok hu
    split at hu
    · cases hu
    · cases hu
      exact (Quiet.withRing _ s.known s).trans (.result _ _)

theorem execRbPeek_quiet {offset : Half} {s t : State} (h : execRbPeek offset s = .next t) : Quiet s t :=
  Quiet.of_runCommand h fun u hu => by
    obtain ⟨-, hu⟩ := needing_ok hu
    split at hu
    · cases hu
    · cases hu
      exact .result _ s

theorem execRbAvail_quiet {s t : State} (h : execRbAvail s = .next t) : Quiet s t :=
  Quiet.of_runCommand h fun u hu => by
    obtain ⟨-, hu⟩ := needing_ok hu
    cases hu
    exact .result _ s

theorem execRbReset_quiet {s t : State} (h : execRbReset s = .next t) : Quiet s t :=
  Quiet.of_runCommand h fun u hu => by cases hu; exact .withRing _ _ s

/-- A change of the block buffer that never clears the ghost flag is quiet. -/
theorem Quiet.withRbb (b : BlockBuffer) (g : Bool) (s : State) (hg : s.rbbOverflow = true → g = true) :
    Quiet s { s with rbb := b, rbbOverflow := g } :=
  ⟨⟨rfl, rfl, rfl, List.prefix_refl _, fun _ => rfl, id, hg⟩, rfl, rfl, rfl⟩

theorem execRbbPush_quiet {l r : Half} {s t : State} (h : execRbbPush l r s = .next t) : Quiet s t :=
  Quiet.of_runCommand h fun u hu => by
    obtain ⟨-, -, rfl⟩ := rbbPush_ok hu
    exact .withRbb _ _ s fun hg => by rw [hg, Bool.true_or]

theorem execRbbPopb_quiet {s t : State} (h : execRbbPopb s = .next t) : Quiet s t :=
  Quiet.of_runCommand h fun u hu => Quiet.of_withBuffer hu fun v w hw => by
    split at hw
    · cases hw
    · cases hw
      exact (Quiet.withRbb _ v.rbbOverflow v id).trans (.result _ _)

theorem execRbbData_quiet {s t : State} (h : execRbbData s = .next t) : Quiet s t :=
  Quiet.of_runCommand h fun u hu => Quiet.of_withBuffer hu fun v w hw => by cases hw; exact .result _ v

theorem execRbbBack_quiet {s t : State} (h : execRbbBack s = .next t) : Quiet s t :=
  Quiet.of_runCommand h fun u hu => Quiet.of_withBuffer hu fun v w hw => by cases hw; exact .result _ v

theorem execRbbSize_quiet {s t : State} (h : execRbbSize s = .next t) : Quiet s t :=
  Quiet.of_runCommand h fun u hu => Quiet.of_withBuffer hu fun v w hw => by cases hw; exact .result _ v

theorem execRbbCpb_quiet {s t : State} (h : execRbbCpb s = .next t) : Quiet s t :=
  Quiet.of_runCommand h fun u hu => by cases hu; exact .result _ s

/-- `RS.WRITE` moves the phase and the ring, not the variant (R190). -/
theorem execRsWrite_quiet {l r : Half} {s t : State} (h : execRsWrite l r s = .next t) : Quiet s t :=
  Quiet.of_runCommand h fun u hu => by
    obtain ⟨-, hu⟩ := needing_ok hu
    obtain ⟨-, hu⟩ := needing_ok hu
    split at hu
    · cases hu
    next ys v hv =>
      obtain ⟨phase, ring, rfl⟩ := rsWrite_ok hv
      cases hu
      exact ⟨⟨rfl, rfl, rfl, List.prefix_append _ _, fun _ => rfl, id, id⟩, rfl, rfl, rfl⟩

/-- `APU.OFF` removes events and clears flags that are no fault record (R240). -/
theorem execApuOff_quiet {s t : State} (h : execApuOff s = .next t) : Quiet s t :=
  Quiet.of_runCommand h fun u hu => by
    split at hu
    · cases hu
    next v hv =>
      obtain ⟨-, w, hw, rfl⟩ := withMutex_ok hv
      cases hw
      cases hu
      exact ⟨⟨rfl, rfl, rfl, List.prefix_append _ _, fun _ => rfl, id, id⟩, rfl, rfl, rfl⟩

/-- Serving a channel changes the channels and adds to the trace (R250). -/
theorem Quiet.serveIfBound (timerId : Byte) (f : DmaCh) (s : State) : Quiet s (serveIfBound timerId f s) := by
  rw [serveIfBound_eq]
  exact ⟨⟨rfl, rfl, rfl, List.prefix_append _ _, fun _ => rfl, id, id⟩, rfl, rfl, rfl⟩

theorem execTmrOvf_quiet {timerId : Byte} {times : Half} {s t : State} (h : execTmrOvf timerId times s = .next t) :
    Quiet s t :=
  Quiet.of_runCommand h fun u hu => by
    split at hu
    · obtain ⟨-, hu⟩ := needing_ok hu
      obtain ⟨-, hu⟩ := needing_ok hu
      cases hu
      exact (Quiet.serveIfBound timerId .ch0 s).trans (.serveIfBound timerId .ch1 _)
    · cases hu

/-- A change of the registers, the ports, the channels and of which elements have a value is quiet. -/
theorem Quiet.withInputs (csr : Csr) (ports : Ports) (dma : Dma) (known : Known) (s : State) :
    Quiet s { s with csr := csr, ports := ports, dma := dma, known := known } :=
  ⟨⟨rfl, rfl, rfl, List.prefix_refl _, fun _ => rfl, id, id⟩, rfl, rfl, rfl⟩

theorem execFifoWr_quiet {f : Byte} {word : Word} {s t : State} (h : execFifoWr f word s = .next t) : Quiet s t :=
  Quiet.of_runCommand h fun u hu => by
    split at hu
    · cases hu
    · obtain ⟨-, hu⟩ := needing_ok hu
      cases hu
      split
      · exact .withInputs s.csr s.ports _ s.known s
      · exact .refl _

/-- A register write changes the registers, and which of them have a value, alone (R262). -/
theorem writeCsr_ok {index : Byte} {value : Word} {s t : State} (h : writeCsr index value s = .ok t) :
    ∃ csr known, t = { s with csr := csr, known := known } := by
  unfold writeCsr at h
  repeat' split at h
  all_goals cases h
  all_goals exact ⟨_, _, rfl⟩

theorem execCsrWr_quiet {index : Byte} {value : Word} {s t : State} (h : execCsrWr index value s = .next t) : Quiet s t :=
  Quiet.of_runCommand h fun u hu => by
    obtain ⟨csr, known, rfl⟩ := writeCsr_ok hu
    exact .withInputs csr s.ports s.dma known s

theorem execCsrRd_quiet {index : Byte} {s t : State} (h : execCsrRd index s = .next t) : Quiet s t := by
  unfold execCsrRd at h
  split at h
  · cases h
  · split at h
    · cases h
      exact (Quiet.result _ s).trans (.retire _)
    · obtain ⟨v, -, rfl⟩ := Stop.outcome_next h
      exact .raise v s

theorem execPsgSet_quiet {c : Byte} {value : Word} {s t : State} (h : execPsgSet c value s = .next t) : Quiet s t :=
  Quiet.of_runCommand h fun u hu => by
    split at hu
    · cases hu
    · split at hu
      · cases hu
      · cases hu
        exact .withInputs s.csr _ s.dma _ s

theorem execDevSet_quiet {ok : Byte} {rate : Word} {s t : State} (h : execDevSet ok rate s = .next t) : Quiet s t :=
  Quiet.of_runCommand h fun u hu => by
    split at hu
    · cases hu
    · cases hu
      exact .withInputs s.csr _ s.dma _ s

/-! ### The four instructions that are not quiet -/

/-- The loop of R134 is quiet: the time is advanced before it. -/
theorem runDue_quiet {k : Nat} {s t : State} (h : runDue k s = .next t) : Quiet s t := by
  induction k generalizing s with
  | zero =>
    rw [runDue] at h
    split at h
    · cases h; exact .retire s
    · cases h
  | succ k ih =>
    rw [runDue] at h
    split at h
    · cases h; exact .retire s
    next e rest _ =>
      have hq : Quiet s (s.withQueue rest) := ⟨.withQueue rest s, rfl, rfl, rfl⟩
      simp only at h
      split at h
      next u hu => exact hq.trans ((Quiet.of_handler hu).trans (ih h))
      next =>
        obtain ⟨v, -, rfl⟩ := Stop.outcome_next h
        exact hq.trans (.raise v _)

/-- A change of the time keeps what every instruction keeps. -/
theorem Kept.withNow (now : Nat) (s : State) : Kept s { s with sched := { s.sched with now := now } } :=
  ⟨rfl, rfl, rfl, List.prefix_refl _, fun _ => rfl, id, id⟩

/-- `SCH.ADV` is a change of the time followed by a quiet loop (R134). -/
theorem execSchAdv_quiet {n : Word} {s t : State} (h : execSchAdv n s = .next t) :
    Quiet { s with sched := { s.sched with now := s.sched.now + n.toNat } } t := by
  unfold execSchAdv at h
  split at h
  · cases h
  · split at h
    · exact runDue_quiet h
    · cases h

/-- `RS.RATE` changes `cfg_err`, the resampler and its ring alone (R188). -/
theorem execRsRate_kept {src : BitVec 24} {dst : Word} {s t : State} (h : execRsRate src dst s = .next t) :
    Kept s t ∧ t.sched.now = s.sched.now ∧ t.mem = s.mem := by
  obtain ⟨-, ⟨u, hu, rfl⟩ | ⟨v, -, rfl⟩⟩ := runCommand_next h
  · obtain ⟨-, hu⟩ := needing_ok hu
    obtain ⟨e, rs, ring, he, -⟩ := rsRate_frame src.toNat dst.toNat s
    rw [he] at hu
    cases hu
    exact ⟨⟨rfl, rfl, rfl, List.prefix_refl _, fun _ => rfl, id, id⟩, rfl, rfl⟩
  · exact ⟨.raise v s, rfl, rfl⟩

/-- `APU.RESET` keeps the time, host memory and the fault record (R321). -/
theorem execApuReset_kept {s t : State} (h : execApuReset s = .next t) :
    Kept s t ∧ t.sched.now = s.sched.now ∧ t.mem = s.mem := by
  obtain ⟨hf, hm, hd, hfit⟩ := execApuReset_next h
  obtain ⟨e, rs, ring, -, -, -, -, he⟩ := execApuReset_eq hf hm hd
  rw [he, if_pos hfit] at h
  cases h
  exact ⟨⟨rfl, rfl, rfl, List.prefix_append _ _, fun _ => rfl, id, id⟩, rfl, rfl⟩

/-- `t` is `s` after writes to host memory: memory, buffer and trace may differ, and the trace has only grown. -/
def WroteMemory (s t : State) : Prop :=
  ∃ mem out rbb, t = { s with mem := mem, out := out, rbb := rbb } ∧ s.out <+: out

theorem WroteMemory.refl (s : State) : WroteMemory s s := ⟨s.mem, s.out, s.rbb, rfl, List.prefix_refl _⟩

theorem WroteMemory.trans {s t u : State} (h : WroteMemory s t) (h' : WroteMemory t u) : WroteMemory s u := by
  obtain ⟨mem, out, rbb, rfl, hout⟩ := h
  obtain ⟨mem', out', rbb', rfl, hout'⟩ := h'
  exact ⟨mem', out', rbb', rfl, hout.trans hout'⟩

/-- Samples stored after a change of the buffer. -/
theorem storeSamples_wroteMemory (dest i : Nat) (xs : List (Stereo Half)) (b : BlockBuffer) (s : State) :
    WroteMemory s (storeSamples dest i xs { s with rbb := b }) := by
  obtain ⟨mem, out, he, -, hout⟩ := storeSamples_frame dest xs i { s with rbb := b }
  exact ⟨mem, out, b, he, hout⟩

/-- Silence does nothing but write. -/
theorem silence_wroteMemory (dest n : Nat) (s : State) : WroteMemory s (silence dest n s) := by
  obtain ⟨mem, out, he, -, hout⟩ := silence_frame dest n s
  exact ⟨mem, out, s.rbb, he, hout⟩

/-- A drain that completes, in any state and with any bound on its turns, has done nothing but write. -/
theorem drain_wroteMemory {dest fuel i r : Nat} {s t : State} (h : drain dest fuel i r s = .ok t) : WroteMemory s t := by
  induction fuel generalizing i r s with
  | zero =>
    rw [drain] at h
    repeat' split at h
    · cases h; exact .refl _
    · cases h
    · cases h; exact storeSamples_wroteMemory ..
    · cases h
  | succ k ih =>
    rw [drain] at h
    repeat' split at h
    · cases h; exact .refl _
    · exact (storeSamples_wroteMemory ..).trans (ih h)
    · cases h; exact storeSamples_wroteMemory ..
    · cases h

/-- `CB.REQ` keeps the time and the resampler (R275). -/
theorem execCbReq_kept {len : BitVec 24} {dest : Word} {s t : State} (h : execCbReq len dest s = .next t) :
    Kept s t ∧ t.sched.now = s.sched.now ∧ t.rs.variant = s.rs.variant := by
  obtain ⟨-, ⟨u, hu, rfl⟩ | ⟨v, -, rfl⟩⟩ := runCommand_next h
  · split at hu
    · cases hu
    · obtain ⟨-, v, hv, rfl⟩ := withMutex_ok hu
      have hw : WroteMemory { s with mutex := true } v := by
        split at hv
        · exact drain_wroteMemory hv
        · cases hv
          exact silence_wroteMemory ..
      obtain ⟨mem, out, rbb, rfl, hout⟩ := hw
      exact ⟨⟨rfl, rfl, rfl, hout, fun _ => rfl, id, id⟩, rfl, rfl⟩
  · exact ⟨.raise v s, rfl, rfl⟩

/-! ### Every instruction -/

/-- What instruction `i` leaves alone when it takes `s` to `t`. -/
structure Frame (i : Instr) (s t : State) : Prop where
  kept : Kept s t
  advanced : ∀ n, i = .schAdv n → t.sched.now = s.sched.now + n.toNat
  now : (∀ n, i ≠ .schAdv n) → t.sched.now = s.sched.now
  variant : i ≠ .apuReset → (∀ src dst, i ≠ .rsRate src dst) → t.rs.variant = s.rs.variant
  mem : (∀ len dest, i ≠ .cbReq len dest) → t.mem = s.mem

/-- A quiet instruction other than `SCH.ADV` has the frame. -/
theorem Quiet.frame {i : Instr} {s t : State} (h : Quiet s t) (hi : ∀ n, i ≠ .schAdv n) : Frame i s t :=
  ⟨h.kept, fun n hn => absurd hn (hi n), fun _ => h.now, fun _ _ => h.variant, fun _ => h.mem⟩

/-- Every instruction that answers a next state has its frame. -/
theorem exec_frame {i : Instr} {s t : State} (h : exec i s = .next t) : Frame i s t := by
  cases i with
  | schAdv n =>
    obtain ⟨hk, hnow, hvar, hmem⟩ := execSchAdv_quiet h
    exact ⟨(Kept.withNow _ s).trans hk, fun m hm => by cases hm; exact hnow, fun hne => absurd rfl (hne n), fun _ _ => hvar,
      fun _ => hmem⟩
  | rsRate src dst =>
    obtain ⟨hk, hnow, hmem⟩ := execRsRate_kept h
    exact ⟨hk, nofun, fun _ => hnow, fun _ hne => absurd rfl (hne src dst), fun _ => hmem⟩
  | apuReset =>
    obtain ⟨hk, hnow, hmem⟩ := execApuReset_kept h
    exact ⟨hk, nofun, fun _ => hnow, fun hne _ => absurd rfl hne, fun _ => hmem⟩
  | cbReq len dest =>
    obtain ⟨hk, hnow, hvar⟩ := execCbReq_kept h
    exact ⟨hk, nofun, fun _ => hnow, fun _ _ => hvar, fun hne => absurd rfl (hne len dest)⟩
  | schAdd cls delta => exact (execSchAdd_quiet h).frame nofun
  | schNow => exact (execSchNow_quiet h).frame nofun
  | rbPush l r => exact (execRbPush_quiet h).frame nofun
  | rbPop => exact (execRbPop_quiet h).frame nofun
  | rbPeek offset => exact (execRbPeek_quiet h).frame nofun
  | rbAvail => exact (execRbAvail_quiet h).frame nofun
  | rbReset => exact (execRbReset_quiet h).frame nofun
  | rbbPush l r => exact (execRbbPush_quiet h).frame nofun
  | rbbPopb => exact (execRbbPopb_quiet h).frame nofun
  | rbbData => exact (execRbbData_quiet h).frame nofun
  | rbbBack => exact (execRbbBack_quiet h).frame nofun
  | rbbSize => exact (execRbbSize_quiet h).frame nofun
  | rbbCpb => exact (execRbbCpb_quiet h).frame nofun
  | rsWrite l r => exact (execRsWrite_quiet h).frame nofun
  | apuOff => exact (execApuOff_quiet h).frame nofun
  | tmrOvf timerId times => exact (execTmrOvf_quiet h).frame nofun
  | fifoWr f word => exact (execFifoWr_quiet h).frame nofun
  | csrWr index value => exact (execCsrWr_quiet h).frame nofun
  | csrRd index => exact (execCsrRd_quiet h).frame nofun
  | psgSet c value => exact (execPsgSet_quiet h).frame nofun
  | devSet ok rate => exact (execDevSet_quiet h).frame nofun
  | evMixer => exact (Quiet.of_runHandler (k := .mixer) h).frame nofun
  | evSeq => exact (Quiet.of_runHandler (k := .sequencer) h).frame nofun

/-- Settles O56: the time and the variant in the frame of every instruction. -/
theorem nowAndVariantMoveOnlyWhereNamed : Obligations.NowAndVariantMoveOnlyWhereNamed := by
  intro s t i h
  have hframe := exec_frame h
  exact ⟨hframe.advanced, hframe.now, hframe.variant⟩

/-- Settles O57: what `Kept` says of the fault record and the ghost flag. -/
theorem faultRecordIsSticky : Obligations.FaultRecordIsSticky := by
  intro s t i h
  have hkept := (exec_frame h).kept
  exact ⟨hkept.errCode, hkept.faulted, hkept.overflow⟩

/-- Settles O58: host memory in the frame, and what `Kept` says of parameters, program, selection and trace. -/
theorem onlyTheCallbackWritesMemory : Obligations.OnlyTheCallbackWritesMemory := by
  intro s t i h
  have hframe := exec_frame h
  exact ⟨hframe.mem, hframe.kept.cfg, hframe.kept.program, hframe.kept.dispatch, hframe.kept.out⟩

end Sys2Proof.Machine
end

section
/-! SUPPORT. Nothing gets stuck: each operation that can stop stops for a fault or a refusal, because in a state of the invariant the mutex is
free, `rs_shift` is positive, a block is not empty, and the loop of R134 has turns enough. -/

namespace Sys2Proof.Machine

/-! ### Operations that do not get stuck -/

/-- The operation completes, faults or is refused, but does not get stuck. -/
def NotStuck {α : Type} (r : Result α) : Prop := ∀ f, r ≠ .error (.stuck f)

theorem NotStuck.ok {α : Type} (x : α) : NotStuck (.ok x : Result α) := nofun

theorem NotStuck.violation {α : Type} (v : Violation) : NotStuck (.error (.violation v) : Result α) := nofun

theorem NotStuck.refused {α : Type} (r : Refusal) : NotStuck (.error (.refused r) : Result α) := nofun

/-- The stop of an operation that does not get stuck may be passed on. -/
theorem NotStuck.passOn {α β : Type} {r : Result α} {e : Stop} (h : NotStuck r) (he : r = .error e) :
    NotStuck (.error e : Result β) := by
  rintro f ⟨⟩
  exact h f he

theorem NotStuck.ite {α : Type} {p : Prop} [Decidable p] {r r' : Result α} (h : NotStuck r) (h' : NotStuck r') :
    NotStuck (if p then r else r') := by
  split
  · exact h
  · exact h'

/-- Reading an element refuses at most (R62). -/
theorem NotStuck.needing {α : Type} {has : Bool} {what : Element} {body : Result α} (h : NotStuck body) :
    NotStuck (needing has what body) := by
  cases has with
  | true => rwa [needing_true rfl]
  | false => rw [needing_false rfl]; exact .refused _

/-- Nothing waits for a free mutex (R84). -/
theorem NotStuck.withMutex {s : State} {body : State → Result State} (hm : s.mutex = false)
    (h : NotStuck (body { s with mutex := true })) : NotStuck (withMutex s body) := by
  rw [withMutex_eq hm]
  split
  · exact .ok _
  next he => exact h.passOn he

/-- An operation on the block buffer, the mutex being free: without a buffer it faults (R165). -/
theorem NotStuck.withBuffer {s : State} {body : State → Result State} (hm : s.mutex = false)
    (h : NotStuck (body { s with mutex := true })) : NotStuck (withBuffer s body) :=
  NotStuck.withMutex hm (.ite h (.violation _))

/-- `Arm` refuses at most (R139). -/
theorem NotStuck.arm (delta : Nat) (cls : EvClass) (s : State) : NotStuck (arm delta cls s) :=
  .ite (.ok _) (.refused _)

/-! ### Instructions whose operation does not get stuck -/

/-- A stop other than a stuck one is no fault of the model. -/
theorem NotStuck.outcome_ne_fault {e : Stop} {s : State} {f : Fault} (h : NotStuck (.error e : Result State)) :
    e.outcome s ≠ .fault f := by
  cases e with
  | violation v => exact nofun
  | refused r => exact nofun
  | stuck g => exact absurd rfl (h g)

theorem NotStuck.runCommand {s : State} {body : Result State} {f : Fault} (hf : s.faulted = false) (h : NotStuck body) :
    runCommand s body ≠ .fault f := by
  cases body with
  | ok t => rw [runCommand_ok hf]; exact nofun
  | error e => rw [runCommand_error hf]; exact h.outcome_ne_fault

theorem NotStuck.runHandler {s : State} {body : Result State} {f : Fault} (hf : s.faulted = false) (h : NotStuck body) :
    runHandler s body ≠ .fault f := by
  cases body with
  | ok t => rw [runHandler_ok hf]; exact nofun
  | error e => rw [runHandler_error hf]; exact h.outcome_ne_fault

/-! ### The three loops -/

/-- A due event counts in the measure of the loop of R134. -/
theorem dueMeasure_pos {s : State} {e : Event} {rest : List Event} (hq : s.sched.evq = e :: rest)
    (hd : e.target ≤ s.sched.now) : 0 < dueMeasure s := by
  have hc : 0 < dueCount s := by simp [dueCount, hq, hd]
  exact Nat.add_pos_left hc _

/-- The loop of R134 with as many turns as its measure ends: every turn lowers the measure. -/
theorem runDue_ne_fault {k : Nat} {s : State} {f : Fault} (hi : Inv s) (hk : dueMeasure s ≤ k) : runDue k s ≠ .fault f := by
  induction k generalizing s with
  | zero =>
    cases hdue : dueEvent s.sched.evq s.sched.now with
    | none => rw [runDue_idle hdue]; exact nofun
    | some due =>
      obtain ⟨hq, hd⟩ := dueEvent_some.1 hdue
      have := dueMeasure_pos hq hd
      omega
  | succ k ih =>
    cases hdue : dueEvent s.sched.evq s.sched.now with
    | none => rw [runDue_idle hdue]; exact nofun
    | some due =>
      obtain ⟨hq, hd⟩ := dueEvent_some.1 hdue
      have hi' := hi.withQueue hq
      rw [runDue_turn hq hd]
      split
      next t ht =>
        have := dueMeasure_turn hi.cfg_wf hq hd ht
        exact ih (handler_inv hi' ht) (by omega)
      next e he => exact NotStuck.outcome_ne_fault fun g hg => handler_not_stuck hi' (he.trans hg)

theorem execSchAdv_ne_fault {n : Word} {s : State} {f : Fault} (hi : Inv s) (hf : s.faulted = false) :
    execSchAdv n s ≠ .fault f := by
  rw [execSchAdv, if_neg (by simp [hf])]
  split
  next hfit => exact runDue_ne_fault (hi.withNow hfit) (dueMeasure_le _)
  · exact nofun

/-- The loop of R190 ends, `rs_shift` being positive. -/
theorem NotStuck.rsWrite (x : Stereo Rat) {s : State} (hi : Inv s) : NotStuck (rsWrite x s) := by
  rcases rsWrite_all x hi.shift_pos hi.ring_ok with he | ⟨ys, phase, ring, he, -⟩
  · rw [he]; exact .violation _
  · rw [he]; exact .ok _

theorem execRsWrite_ne_fault {l r : Half} {s : State} {f : Fault} (hi : Inv s) (hf : s.faulted = false) :
    execRsWrite l r s ≠ .fault f := by
  refine NotStuck.runCommand hf (NotStuck.needing (NotStuck.needing ?_))
  split
  next he => exact (NotStuck.rsWrite _ hi).passOn he
  · exact .ok _

/-- The loop of R278 ends: every block it takes holds at least one of the samples owed. -/
theorem NotStuck.drain {dest r : Nat} {s : State} (hok : s.rbb.Ok s.cfg) (hn : 0 < s.cfg.rbbN) :
    NotStuck (drain dest r 0 r s) := by
  rcases drain_all dest (i := 0) hok hn (le_refl r) with he | ⟨mem, out, rbb, he, -⟩
  · rw [he]; exact .refused _
  · rw [he]; exact .ok _

theorem execCbReq_ne_fault {len : BitVec 24} {dest : Word} {s : State} {f : Fault} (hi : Inv s) (hf : s.faulted = false) :
    execCbReq len dest s ≠ .fault f := by
  have hn : 0 < s.cfg.rbbN := by have := Cfg.wf_iff.1 hi.cfg_wf; omega
  refine NotStuck.runCommand hf ?_
  split
  · exact .refused _
  · refine NotStuck.withMutex hi.mutex_free ?_
    split
    next hc => exact NotStuck.drain (hi.rbb_ok hc) hn
    · exact .ok _

/-! ### The other instructions that can stop -/

/-- A negative delay faults at most (R132). -/
theorem NotStuck.addDelay (b : Build) (delta : Int) : NotStuck (addDelay b delta) := by
  cases b with
  | debug => exact .ite (.violation _) (.ok _)
  | release => exact .ite (.ok _) (.ok _)

theorem execSchAdd_ne_fault {cls : Byte} {delta : Word} {s : State} {f : Fault} (hf : s.faulted = false) :
    execSchAdd cls delta s ≠ .fault f := by
  refine NotStuck.runCommand hf ?_
  split
  · exact .refused _
  · split
    next he => exact (NotStuck.addDelay _ _).passOn he
    · exact NotStuck.arm _ _ _

theorem execRbPop_ne_fault {s : State} {f : Fault} (hf : s.faulted = false) : execRbPop s ≠ .fault f := by
  have hpop : NotStuck (s.ring.pop s.cfg.rbN) := .ite (.violation _) (.ok _)
  refine NotStuck.runCommand hf (NotStuck.needing ?_)
  split
  next he => exact hpop.passOn he
  · exact .ok _

theorem execRbPeek_ne_fault {offset : Half} {s : State} {f : Fault} (hf : s.faulted = false) :
    execRbPeek offset s ≠ .fault f := by
  have hpeek : NotStuck (s.ring.peek s.cfg.rbN offset.toNat) := .ite (.violation _) (.ok _)
  refine NotStuck.runCommand hf (NotStuck.needing ?_)
  split
  next he => exact hpeek.passOn he
  · exact .ok _

/-- `APU.RESET` needs the mutex free for its part 2 (R217). -/
theorem execApuReset_ne_fault {s : State} {f : Fault} (hm : s.mutex = false) (hf : s.faulted = false) :
    execApuReset s ≠ .fault f := by
  cases hd : s.known.dev with
  | false => rw [execApuReset_undriven hf hd]; exact nofun
  | true =>
    obtain ⟨e, rs, ring, -, -, -, -, he⟩ := execApuReset_eq hf hm hd
    rw [he]
    split
    · exact nofun
    · exact nofun

theorem execApuOff_ne_fault {s : State} {f : Fault} (hm : s.mutex = false) (hf : s.faulted = false) :
    execApuOff s ≠ .fault f := by
  refine NotStuck.runCommand hf ?_
  split
  next he =>
    refine NotStuck.passOn ?_ he
    exact NotStuck.withMutex hm (.ok _)
  · exact .ok _

theorem execFifoWr_ne_fault {ch : Byte} {word : Word} {s : State} {f : Fault} (hf : s.faulted = false) :
    execFifoWr ch word s ≠ .fault f := by
  refine NotStuck.runCommand hf ?_
  split
  · exact .refused _
  · exact .needing (.ok _)

/-- A register write refuses an index out of range at most (R262). -/
theorem NotStuck.writeCsr (index : Byte) (value : Word) (s : State) : NotStuck (writeCsr index value s) :=
  .ite (.ok _) (.ite (.ok _) (.ite (.ok _) (.ite (.ok _) (.ite (.ok _) (.ite (.ok _) (.ite (.ok _) (.refused _)))))))

/-- A register read refuses an index out of range, or a register without a value, at most (R264). -/
theorem NotStuck.readCsr (index : Byte) (s : State) : NotStuck (readCsr index s) :=
  .ite (.needing (.ok _)) (.ite (.needing (.ok _)) (.ite (.needing (.ok _))
    (.ite (.ok _) (.ite (.ok _) (.ite (.ok _) (.ite (.ok _) (.ite (.ok _) (.ite (.ok _) (.refused _)))))))))

theorem execCsrRd_ne_fault {index : Byte} {s : State} {f : Fault} (hf : s.faulted = false) : execCsrRd index s ≠ .fault f := by
  rw [execCsrRd, if_neg (by simp [hf])]
  split
  · exact nofun
  next he => exact ((NotStuck.readCsr index s).passOn he).outcome_ne_fault

theorem execPsgSet_ne_fault {c : Byte} {value : Word} {s : State} {f : Fault} (hf : s.faulted = false) :
    execPsgSet c value s ≠ .fault f := by
  refine NotStuck.runCommand hf ?_
  split
  · exact .refused _
  · split
    · exact .refused _
    · exact .ok _

theorem execDevSet_ne_fault {ok : Byte} {rate : Word} {s : State} {f : Fault} (hf : s.faulted = false) :
    execDevSet ok rate s ≠ .fault f := by
  refine NotStuck.runCommand hf ?_
  split
  · exact .refused _
  · exact .ok _

/-! ### Every instruction -/

/-- Settles O60: the three loops end within their bounds, and no instruction finds the mutex held. -/
theorem nothingGetsStuck : Obligations.NothingGetsStuck := by
  intro s i f hi hf
  have hm := hi.mutex_free
  cases i with
  | schAdd cls delta => exact execSchAdd_ne_fault hf
  | schAdv n => exact execSchAdv_ne_fault hi hf
  | schNow => exact NotStuck.runCommand hf (.ok _)
  | rbPush l r => exact NotStuck.runCommand hf (.needing (.ok _))
  | rbPop => exact execRbPop_ne_fault hf
  | rbPeek offset => exact execRbPeek_ne_fault hf
  | rbAvail => exact NotStuck.runCommand hf (.needing (.ok _))
  | rbReset => exact NotStuck.runCommand hf (.ok _)
  | rbbPush l r => exact NotStuck.runCommand hf (.withBuffer hm (.ok _))
  | rbbPopb => exact NotStuck.runCommand hf (.withBuffer hm (.ite (.violation _) (.ok _)))
  | rbbData => exact NotStuck.runCommand hf (.withBuffer hm (.ok _))
  | rbbBack => exact NotStuck.runCommand hf (.withBuffer hm (.ok _))
  | rbbSize => exact NotStuck.runCommand hf (.withBuffer hm (.ok _))
  | rbbCpb => exact NotStuck.runCommand hf (.ok _)
  | rsRate src dst => exact NotStuck.runCommand hf (.needing (.ok _))
  | rsWrite l r => exact execRsWrite_ne_fault hi hf
  | apuReset => exact execApuReset_ne_fault hm hf
  | apuOff => exact execApuOff_ne_fault hm hf
  | tmrOvf timerId times => exact NotStuck.runCommand hf (.ite (.needing (.needing (.ok _))) (.refused _))
  | fifoWr ch word => exact execFifoWr_ne_fault hf
  | csrWr index value => exact NotStuck.runCommand hf (.writeCsr index value s)
  | csrRd index => exact execCsrRd_ne_fault hf
  | psgSet c value => exact execPsgSet_ne_fault hf
  | devSet ok rate => exact execDevSet_ne_fault hf
  | cbReq len dest => exact execCbReq_ne_fault hi hf
  | evMixer => exact NotStuck.runHandler hf fun _ => handler_not_stuck (k := .mixer) hi
  | evSeq => exact NotStuck.runHandler hf fun _ => handler_not_stuck (k := .sequencer) hi

end Sys2Proof.Machine
end

section
/-! SUPPORT. The decoder and the encoder against the opcode map (R102 to R106): a word with a meaning is a word of a row, the encoder writes
that word back, and every command is made by a row. -/

namespace Sys2Proof

/-! ### The rows of R104 -/

/-- An opcode of no row is reserved (R115, R116). -/
theorem decodeCommand_reserved {w : CommandWord} (h : ∀ r ∈ opRows, opField w ≠ r.op) :
    decodeCommand w = .error .reservedOpcode := by
  have hfind : opRows.find? (fun r => r.op == opField w) = none :=
    List.find?_eq_none.2 fun r hr he => h r hr (beq_iff_eq.1 he).symm
  rw [decodeCommand, hfind]

/-- A word has a meaning exactly when it is a word of a row, whose command its fields then make (R102 to R104, R106). -/
theorem decode_command_iff {w : CommandWord} {i : Instr} :
    decode (.command w) = .ok i ↔
      ∃ r ∈ opRows, w &&& r.format.mask = r.op.setWidth 64 <<< 56 ∧ r.build (aField w) (bField w) (dField w) = i := by
  constructor
  · intro hd
    change decodeCommand w = .ok i at hd
    by_cases hrow : ∃ r ∈ opRows, opField w = r.op
    · obtain ⟨r, hr, ho⟩ := hrow
      rw [decodeCommand_eq hr ho] at hd
      split at hd
      next hz => exact ⟨r, hr, (masked_iff _ _ _).2 ⟨ho, hz⟩, Except.ok.inj hd⟩
      · cases hd
    · rw [decodeCommand_reserved fun r hr ho => hrow ⟨r, hr, ho⟩] at hd
      cases hd
  · rintro ⟨r, hr, hmask, rfl⟩
    obtain ⟨ho, hz⟩ := (masked_iff _ _ _).1 hmask
    exact (decodeCommand_eq hr ho).trans (if_pos hz)

/-- A class code has a meaning exactly when it is a handler's (R105). -/
theorem decode_event_iff {c : Byte} {i : Instr} :
    decode (.event c) = .ok i ↔ (c = 0x00#8 ∧ .evMixer = i) ∨ (c = 0x01#8 ∧ .evSeq = i) := by
  by_cases h0 : c = 0x00#8
  · simp [decode, decodeEvent, h0]
  · by_cases h1 : c = 0x01#8
    · simp [decode, decodeEvent, h1]
    · simp [decode, decodeEvent, h0, h1]

/-- The command a row makes of four fields is encoded as these fields, the unused ones being zero: `encode` row by row, a sample put together
again from its lanes. -/
theorem encode_build {r : OpRow} (hr : r ∈ opRows) {a : Byte} {b : Half} {d : Word}
    (hz : r.format.unusedZero a b d = true) : encode (r.build a b d) = .command (packWord r.op a b d) := by
  revert r
  simp +contextual [opRows, encode, Format.unusedZero, halves_append]

/-- The command a row makes is on the H port for the opcode of `CB.REQ`, else on the E port (R101, R104). -/
theorem port_build {r : OpRow} (hr : r ∈ opRows) (a : Byte) (b : Half) (d : Word) :
    (r.build a b d).port = if r.op = 0x50#8 then .h else .e := by
  revert r
  simp [opRows, Instr.port]

/-! ### Every instruction has a code -/

/-- A row of R104 makes the command `i` of some fields, the unused ones being zero. -/
def MadeByRow (i : Instr) : Prop :=
  ∃ r ∈ opRows, ∃ a b d, r.format.unusedZero a b d = true ∧ r.build a b d = i

/-- Row `k` makes `i` of the fields given. -/
theorem MadeByRow.of_row {i : Instr} (k : Fin 25) (a : Byte) (b : Half) (d : Word)
    (hz : opRows[k].format.unusedZero a b d = true) (hi : opRows[k].build a b d = i) : MadeByRow i :=
  ⟨opRows[k], List.getElem_mem _, a, b, d, hz, hi⟩

/-- Every instruction but the two handlers is made by a row: the 25 rows have all 25 commands. -/
theorem madeByRow_or_handler (i : Instr) : MadeByRow i ∨ i = .evMixer ∨ i = .evSeq := by
  cases i with
  | evMixer => exact .inr (.inl rfl)
  | evSeq => exact .inr (.inr rfl)
  | schAdd cls delta => exact .inl (.of_row 0 cls 0 delta rfl rfl)
  | schAdv n => exact .inl (.of_row 1 0 0 n rfl rfl)
  | schNow => exact .inl (.of_row 2 0 0 0 rfl rfl)
  | rbPush l r => exact .inl (.of_row 3 0 0 (r ++ l) rfl (by simp [opRows]))
  | rbPop => exact .inl (.of_row 4 0 0 0 rfl rfl)
  | rbPeek offset => exact .inl (.of_row 5 0 offset 0 rfl rfl)
  | rbAvail => exact .inl (.of_row 6 0 0 0 rfl rfl)
  | rbReset => exact .inl (.of_row 7 0 0 0 rfl rfl)
  | rbbPush l r => exact .inl (.of_row 8 0 0 (r ++ l) rfl (by simp [opRows]))
  | rbbPopb => exact .inl (.of_row 9 0 0 0 rfl rfl)
  | rbbData => exact .inl (.of_row 10 0 0 0 rfl rfl)
  | rbbBack => exact .inl (.of_row 11 0 0 0 rfl rfl)
  | rbbSize => exact .inl (.of_row 12 0 0 0 rfl rfl)
  | rbbCpb => exact .inl (.of_row 13 0 0 0 rfl rfl)
  | rsRate src dst => exact .inl (.of_row 14 (high24 src) (low24 src) dst rfl (by simp [opRows]))
  | rsWrite l r => exact .inl (.of_row 15 0 0 (r ++ l) rfl (by simp [opRows]))
  | apuReset => exact .inl (.of_row 16 0 0 0 rfl rfl)
  | apuOff => exact .inl (.of_row 17 0 0 0 rfl rfl)
  | tmrOvf timerId times => exact .inl (.of_row 18 timerId times 0 rfl rfl)
  | fifoWr f word => exact .inl (.of_row 19 f 0 word rfl rfl)
  | csrWr index value => exact .inl (.of_row 20 index 0 value rfl rfl)
  | csrRd index => exact .inl (.of_row 21 index 0 0 rfl rfl)
  | psgSet c value => exact .inl (.of_row 22 c 0 value rfl rfl)
  | devSet ok rate => exact .inl (.of_row 23 ok 0 rate rfl rfl)
  | cbReq len dest => exact .inl (.of_row 24 (high24 len) (low24 len) dest rfl (by simp [opRows]))

/-! ### The round trips and the worked encodings -/

/-- Settles O8: the encoding of a row's command is its fields, which the same row reads back. -/
theorem decodeOfEncode : Obligations.DecodeOfEncode := by
  intro i
  rcases madeByRow_or_handler i with ⟨r, hr, a, b, d, hz, rfl⟩ | rfl | rfl
  · rw [encode_build hr hz]
    refine decode_command_iff.2 ⟨r, hr, (masked_iff _ _ _).2 ⟨opField_packWord .., ?_⟩, ?_⟩
    · simpa using hz
    · simp
  · exact decode_event_iff.2 (.inl ⟨rfl, rfl⟩)
  · exact decode_event_iff.2 (.inr ⟨rfl, rfl⟩)

/-- Settles O7: what a word of a row decodes to. -/
theorem commandOfRowByMask : Obligations.CommandOfRowByMask := fun _ _ => decode_command_iff

/-- Settles O9: a word with a meaning has its row's opcode and zeros in its unused fields, and it is its four fields. -/
theorem encodeOfDecode : Obligations.EncodeOfDecode := by
  intro c i hd
  cases c with
  | command w =>
    obtain ⟨r, hr, hmask, rfl⟩ := decode_command_iff.1 hd
    obtain ⟨ho, hz⟩ := (masked_iff _ _ _).1 hmask
    rw [encode_build hr hz, ← ho, packWord_fields]
  | event c =>
    rcases decode_event_iff.1 hd with ⟨rfl, rfl⟩ | ⟨rfl, rfl⟩
    · rfl
    · rfl

/-- Settles O4: the encoder gives the nine words of R121, and what it gives decodes. -/
theorem workedEncodings : Obligations.WorkedEncodings := by
  intro p hp
  have henc : encode p.1 = .command p.2 := by
    revert p
    decide
  exact ⟨henc ▸ decodeOfEncode p.1, henc⟩

end Sys2Proof
end

section
/-! SUPPORT. What a step does with the command at `pc` or a selected class code (R22, R100, R101, R105, R115, R135). -/

namespace Sys2Proof.Machine

/-- A step runs the command at `pc` that has a meaning and is on its own port. -/
theorem step_of_decode {s : State} {c : Command} {i : Instr} (hd : s.dispatch = none) (hc : s.program[s.pc]? = some c)
    (hi : decode (.command c.word) = .ok i) (hp : i.port = c.port) : step s = exec i s := by
  simp [step, nextInstr, hd, hc, hi, hp]

/-- A step refuses a word without a meaning (R115). -/
theorem step_badEncoding {s : State} {c : Command} {e : DecodeError} (hd : s.dispatch = none)
    (hc : s.program[s.pc]? = some c) (he : decode (.command c.word) = .error e) : step s = .refused (.badEncoding e) := by
  simp [step, nextInstr, hd, hc, he]

/-- A step refuses a command on another port than its own (R101, R115). -/
theorem step_wrongPort {s : State} {c : Command} {i : Instr} (hd : s.dispatch = none) (hc : s.program[s.pc]? = some c)
    (hi : decode (.command c.word) = .ok i) (hp : i.port ≠ c.port) : step s = .refused .wrongPort := by
  simp [step, nextInstr, hd, hc, hi, hp]

/-- A step at the end of the program is refused (R22). -/
theorem step_programEnded {s : State} (hd : s.dispatch = none) (hp : s.pc = s.program.length) :
    step s = .refused .programEnded := by
  simp [step, nextInstr, hd, hp]

/-- A step runs the handler of a selected class code, without the selection (R105, R135). -/
theorem step_of_dispatch {s : State} {c : Byte} {i : Instr} (hd : s.dispatch = some c) (hi : decode (.event c) = .ok i) :
    step s = exec i { s with dispatch := none } := by
  simp [step, nextInstr, hd, hi]

/-- A step refuses a selected class code of no handler (R105). -/
theorem step_reservedClass {s : State} {c : Byte} (hd : s.dispatch = some c) (h0 : c ≠ 0x00#8) (h1 : c ≠ 0x01#8) :
    step s = .refused (.badEncoding .reservedClass) := by
  simp [step, nextInstr, hd, decode, decodeEvent, h0, h1]

/-- Settles O3: the five things a step can find. -/
theorem stepRunsDecodedInstruction : Obligations.StepRunsDecodedInstruction := by
  intro s
  exact ⟨fun c i => step_of_decode, step_programEnded, fun hd => step_of_dispatch hd rfl, fun hd => step_of_dispatch hd rfl,
    fun c => step_reservedClass⟩

/-- Settles O5: the decoder's two refusals by the row of the opcode, and the port of a row's command. -/
theorem meaninglessWordsRefused : Obligations.MeaninglessWordsRefused := by
  intro s c hd hc
  refine ⟨?_, ?_, ?_⟩
  · intro hop
    refine step_badEncoding hd hc (decodeCommand_reserved fun r hr ho => hop ?_)
    have hmem : r.op ∈ opRows.map OpRow.op := List.mem_map_of_mem hr
    exact ho ▸ hmem
  · intro r hr ho hmask
    have hz : ¬r.format.unusedZero (aField c.word) (bField c.word) (dField c.word) = true :=
      fun hz => hmask ((masked_iff _ _ _).2 ⟨ho, hz⟩)
    exact step_badEncoding hd hc ((decodeCommand_eq hr ho).trans (if_neg hz))
  · intro i hi hp
    obtain ⟨r, hr, hmask, rfl⟩ := decode_command_iff.1 hi
    obtain ⟨ho, -⟩ := (masked_iff _ _ _).1 hmask
    refine step_wrongPort hd hc hi fun hport => hp ?_
    rw [← hport, port_build hr, ho]

end Sys2Proof.Machine
end

section
/-! SUPPORT. Operands out of the ranges of R106 (R118): each of the eight commands that has such an operand refuses it by name. -/

namespace Sys2Proof.Machine

/-- On a block that is not halted, a command that finds an operand out of range is refused by it (R118). -/
theorem runCommand_badOperand {s : State} {operand : String} (hf : s.faulted = false) :
    runCommand s (badOperand operand) = .refused (.operandRange operand) :=
  runCommand_error hf

/-! ### The eight commands -/

theorem execSchAdd_badClass {cls : Byte} {delta : Word} {s : State} (hf : s.faulted = false) (h : 1 < cls.toNat) :
    execSchAdd cls delta s = .refused (.operandRange "class") := by
  rw [execSchAdd, classOperand_none.2 h]
  exact runCommand_badOperand hf

theorem execTmrOvf_badTimes {timerId : Byte} {times : Half} {s : State} (hf : s.faulted = false) (h : times.toNat ≠ 1) :
    execTmrOvf timerId times s = .refused (.operandRange "times") := by
  rw [execTmrOvf, if_neg (mt timesIsOne_iff.1 h)]
  exact runCommand_badOperand hf

theorem execFifoWr_badChannel {f : Byte} {word : Word} {s : State} (hf : s.faulted = false) (h : 1 < f.toNat) :
    execFifoWr f word s = .refused (.operandRange "f") := by
  rw [execFifoWr, dmaOperand_none.2 h]
  exact runCommand_badOperand hf

/-- A register index above `n` is none of the indices up to `n`. -/
theorem index_ne_of_lt {n : Nat} {index k : Byte} (h : n < index.toNat) (hk : k.toNat ≤ n) : index ≠ k := by
  rintro rfl
  omega

theorem execCsrWr_badIndex {index : Byte} {value : Word} {s : State} (hf : s.faulted = false) (h : 6 < index.toNat) :
    execCsrWr index value s = .refused (.operandRange "index") := by
  have hw : writeCsr index value s = badOperand "index" := by simp [writeCsr, index_ne_of_lt h]
  rw [execCsrWr, hw]
  exact runCommand_badOperand hf

theorem execCsrRd_badIndex {index : Byte} {s : State} (hf : s.faulted = false) (h : 8 < index.toNat) :
    execCsrRd index s = .refused (.operandRange "index") := by
  have hr : readCsr index s = badOperand "index" := by simp [readCsr, index_ne_of_lt h]
  rw [execCsrRd, if_neg (by simp [hf]), hr]
  rfl

theorem execPsgSet_badChannel {c : Byte} {value : Word} {s : State} (hf : s.faulted = false) (h : 3 < c.toNat) :
    execPsgSet c value s = .refused (.operandRange "c") := by
  rw [execPsgSet, psgOperand_none.2 h]
  exact runCommand_badOperand hf

theorem execPsgSet_badValue {c : Byte} {value : Word} {s : State} (hf : s.faulted = false) (hc : c.toNat ≤ 3)
    (h : ¬fitsSigned s.cfg.psgW value.toInt = true) : execPsgSet c value s = .refused (.operandRange "value") := by
  have hv : psgValueOperand s.cfg value = none := if_neg h
  obtain ⟨ch, hch⟩ := Option.ne_none_iff_exists'.1 (mt psgOperand_none.1 (Nat.not_lt.2 hc))
  rw [execPsgSet, hch]
  simp only [hv]
  exact runCommand_badOperand hf

theorem execDevSet_badOk {ok : Byte} {rate : Word} {s : State} (hf : s.faulted = false) (h : 1 < ok.toNat) :
    execDevSet ok rate s = .refused (.operandRange "ok") := by
  rw [execDevSet, okOperand_none.2 h]
  exact runCommand_badOperand hf

theorem execCbReq_badLen {len : BitVec 24} {dest : Word} {s : State} (hf : s.faulted = false) (h : ¬len.toNat % 4 = 0) :
    execCbReq len dest s = .refused (.operandRange "len") := by
  have hl : requestOperand len = none := if_neg h
  rw [execCbReq, hl]
  exact runCommand_badOperand hf

/-- Settles O6: the operand that is out of range, by the command; every operand of the other instructions is in range. -/
theorem outOfRangeOperandsRefused : Obligations.OutOfRangeOperandsRefused := by
  intro s i hf hwf
  cases i with
  | schAdd cls delta => exact ⟨_, execSchAdd_badClass hf (not_le.1 (of_decide_eq_false hwf))⟩
  | tmrOvf timerId times => exact ⟨_, execTmrOvf_badTimes hf (of_decide_eq_false hwf)⟩
  | fifoWr f word => exact ⟨_, execFifoWr_badChannel hf (not_le.1 (of_decide_eq_false hwf))⟩
  | csrWr index value => exact ⟨_, execCsrWr_badIndex hf (not_le.1 (of_decide_eq_false hwf))⟩
  | csrRd index => exact ⟨_, execCsrRd_badIndex hf (not_le.1 (of_decide_eq_false hwf))⟩
  | psgSet c value =>
    by_cases hc : c.toNat ≤ 3
    · exact ⟨_, execPsgSet_badValue hf hc (by simpa [Instr.wf, hc] using hwf)⟩
    · exact ⟨_, execPsgSet_badChannel hf (not_le.1 hc)⟩
  | devSet ok rate => exact ⟨_, execDevSet_badOk hf (not_le.1 (of_decide_eq_false hwf))⟩
  | cbReq len dest => exact ⟨_, execCbReq_badLen hf (of_decide_eq_false hwf)⟩
  | _ => cases hwf

end Sys2Proof.Machine
end

section
/-! SUPPORT. The scheduler's commands (R130 to R139): what `SCH.ADD` arms and when it stops, that `SCH.ADV` is the loop of R134 without a
bound, what that loop leaves pending and alone, and when it completes. -/

namespace Sys2Proof.Machine

/-! ### `SCH.NOW` and `SCH.ADD` -/

/-- Settles O10: `SCH.NOW` reads nothing that can stop it. -/
theorem schNowReturnsNow : Obligations.SchNowReturnsNow :=
  ⟨by decide, fun _ hf => runCommand_ok hf⟩

/-- A negative delay is a fault in a `DEBUG` build (R132). -/
theorem addDelay_debug {delta : Int} (h : delta < 0) : addDelay .debug delta = .error (.violation .negDelay) := if_pos h

/-- Any other delay is taken, a negative one as 0 (R132). -/
theorem addDelay_ok {b : Build} {delta : Int} (h : 0 ≤ delta ∨ b = .release) : addDelay b delta = .ok delta.toNat := by
  by_cases hneg : delta < 0
  · obtain rfl := h.resolve_left (not_le.2 hneg)
    rw [Int.toNat_of_nonpos hneg.le]
    exact if_pos hneg
  · exact if_neg hneg

/-- `SCH.ADD` of a class of R105 whose delay faults. -/
theorem execSchAdd_error {cls : Byte} {k : EvClass} {delta : Word} {s : State} {e : Stop} (hf : s.faulted = false)
    (hk : classOperand cls = some k) (he : addDelay s.cfg.build delta.toInt = .error e) :
    execSchAdd cls delta s = e.outcome s := by
  simp only [execSchAdd, hk, deltaOperand, he]
  exact runCommand_error hf

/-- `SCH.ADD` of a class of R105 whose delay is taken arms that class. -/
theorem execSchAdd_arm {cls : Byte} {k : EvClass} {delta : Word} {s : State} {n : Nat}
    (hk : classOperand cls = some k) (hn : addDelay s.cfg.build delta.toInt = .ok n) :
    execSchAdd cls delta s = runCommand s (arm n k s) := by
  simp only [execSchAdd, hk, deltaOperand, hn]

/-- Settles O11: the delay of R132 is a fault or a number, and `Arm` with that number adds one event or is refused (R139). -/
theorem schAddArmsOneEvent : Obligations.SchAddArmsOneEvent := by
  intro s cls k delta hf hcls
  have hk : classOperand cls = some k := by obtain ⟨rfl, rfl⟩ | ⟨rfl, rfl⟩ := hcls <;> rfl
  refine ⟨rfl, fun ⟨hneg, hbuild⟩ => ?_, fun htaken => ?_⟩
  · exact execSchAdd_error hf hk (hbuild ▸ addDelay_debug hneg)
  have harm := execSchAdd_arm (s := s) hk (addDelay_ok htaken)
  rw [arm_eq] at harm
  refine ⟨fun hfit => ⟨_, insertEvent_perm _ _, ?_⟩, fun hover => ?_⟩
  · rw [if_pos hfit] at harm
    exact harm.trans (runCommand_ok hf)
  · rw [if_neg (not_lt.2 hover)] at harm
    exact harm.trans (runCommand_error hf)

/-! ### `SCH.ADV` is the loop of R134 -/

/-- `SCH.ADV` within the range of the timestamp: the time moves, then the loop of R134 runs. -/
theorem execSchAdv_fits {n : Word} {s : State} (hf : s.faulted = false) (hfit : s.sched.now + n.toNat < 2 ^ s.cfg.tsW) :
    execSchAdv n s =
      runDue (s.sched.evq.length + (s.sched.now + n.toNat + 1) * s.cfg.cpsDen)
        { s with sched := { s.sched with now := s.sched.now + n.toNat } } := by
  rw [execSchAdv, if_neg (by simp [hf]), if_pos hfit]
  rfl

/-- `SCH.ADV` past the range of the timestamp (R134). -/
theorem execSchAdv_overflow {n : Word} {s : State} (hf : s.faulted = false) (hover : 2 ^ s.cfg.tsW ≤ s.sched.now + n.toNat) :
    execSchAdv n s = .refused .timestampOverflow := by
  rw [execSchAdv, if_neg (by simp [hf]), if_neg (not_lt.2 hover)]

/-- An `SCH.ADV` that answers a next state began on a block that was not halted, and its time was in range. -/
theorem execSchAdv_next {n : Word} {s t : State} (h : execSchAdv n s = .next t) :
    s.faulted = false ∧ s.sched.now + n.toNat < 2 ^ s.cfg.tsW := by
  unfold execSchAdv at h
  split at h
  · cases h
  next hf =>
    split at h
    · exact ⟨by simpa using hf, ‹_›⟩
    · cases h

/-- With no event due both loops end at once. -/
theorem AdvanceRuns.of_idle {k : Nat} {s : State} (hi : Inv s) (hdue : dueEvent s.sched.evq s.sched.now = none) :
    AdvanceRuns s (runDue k s) := by
  rw [runDue_idle hdue]
  exact .done s ((dueEvent_none hi.queue_sorted).1 hdue)

/-- With as many turns as its measure the bounded loop is the unbounded one: every turn lowers the measure. -/
theorem runDue_advanceRuns {k : Nat} {s : State} (hi : Inv s) (hk : dueMeasure s ≤ k) : AdvanceRuns s (runDue k s) := by
  induction k generalizing s with
  | zero =>
    cases hdue : dueEvent s.sched.evq s.sched.now with
    | none => exact .of_idle hi hdue
    | some due =>
      obtain ⟨hq, hd⟩ := dueEvent_some.1 hdue
      have := dueMeasure_pos hq hd
      omega
  | succ k ih =>
    cases hdue : dueEvent s.sched.evq s.sched.now with
    | none => exact .of_idle hi hdue
    | some due =>
      obtain ⟨e, rest⟩ := due
      obtain ⟨hq, hd⟩ := dueEvent_some.1 hdue
      have hleast := (List.pairwise_cons.1 (hq ▸ hi.queue_sorted)).1
      rw [runDue_turn hq hd]
      split
      next t ht =>
        have := dueMeasure_turn hi.cfg_wf hq hd ht
        exact .turn s t _ e rest hq hleast hd ht (ih (handler_inv (hi.withQueue hq) ht) (by omega))
      next why hwhy => exact .stop s why e rest hq hleast hd hwhy

/-- The bound `SCH.ADV` gives its loop covers the measure. -/
theorem execSchAdv_advanceRuns {n : Word} {s : State} (hi : Inv s) (hf : s.faulted = false)
    (hfit : s.sched.now + n.toNat < 2 ^ s.cfg.tsW) :
    AdvanceRuns { s with sched := { s.sched with now := s.sched.now + n.toNat } } (execSchAdv n s) := by
  rw [execSchAdv_fits hf hfit]
  exact runDue_advanceRuns (hi.withNow hfit) (dueMeasure_le _)

/-- Settles O12: the measure of the loop is within the bound the model gives it. -/
theorem schAdvIsTheDrivingLoop : Obligations.SchAdvIsTheDrivingLoop :=
  fun _ _ hi hf => ⟨execSchAdv_advanceRuns hi hf, execSchAdv_overflow hf⟩

/-! ### What the loop leaves pending -/

/-- A handler takes no event away and counts at most one mixer step: it re-arms itself and does no more to the queue. -/
theorem handler_rearms {k : EvClass} {s t : State} (h : handler k s = .ok t) :
    (∃ e, t.sched.evq = insertEvent e s.sched.evq) ∧ t.mix.n ≤ s.mix.n + 1 := by
  cases k with
  | mixer =>
    obtain ⟨-, -, phase, ring, rbb, g, q, rfl, hq, -⟩ := stepMixer_ok h
    exact ⟨⟨_, hq⟩, le_rfl⟩
  | sequencer =>
    obtain rfl := stepSequencer_ok h
    exact ⟨⟨_, rfl⟩, Nat.le_succ _⟩

/-- A loop that ends without a fault leaves the time, leaves nothing due, and takes no event that is not due. -/
theorem AdvanceRuns.pending {s t : State} {o : Outcome} (h : AdvanceRuns s o) (ho : o = .next t) (hf : t.faulted = false) :
    t.sched.now = s.sched.now ∧ (∀ e ∈ t.sched.evq, t.sched.now < e.target) ∧
      ∀ e ∈ s.sched.evq, s.sched.now < e.target → e ∈ t.sched.evq := by
  induction h with
  | done s idle =>
    cases ho
    exact ⟨rfl, idle, fun e he _ => he⟩
  | turn s u o e rest queue least due runs goes ih =>
    obtain ⟨hnow, hdue, hkeep⟩ := ih ho
    obtain ⟨-, hnow', -⟩ := handler_ok runs
    obtain ⟨⟨armed, hq⟩, -⟩ := handler_rearms runs
    simp only [State.withQueue_sched] at hnow' hq
    refine ⟨hnow.trans hnow', hdue, fun x hx hlate => hkeep x ?_ (hnow' ▸ hlate)⟩
    have hne : x ≠ e := by rintro rfl; omega
    rw [hq, mem_insertEvent]
    exact .inr (List.mem_of_ne_of_mem hne (queue ▸ hx))
  | stop s why e rest queue least due stops =>
    obtain ⟨v, -, rfl⟩ := Stop.outcome_next ho
    cases hf

/-- No event of any queue is due when every target is past `now`. -/
theorem dueEvent_eq_none {q : List Event} {now : Nat} (h : ∀ e ∈ q, now < e.target) : dueEvent q now = none := by
  cases q with
  | nil => rfl
  | cons e rest => exact if_neg (not_le.2 (h e List.mem_cons_self))

/-! ### What the loop leaves alone -/

/-- The state with every element blanked that a handler, a fault or the end of a command may write. -/
def State.outsideAdvance (s : State) : State :=
  { s with
    sched := State.reset.sched
    mix := { s.mix with n := 0 }
    rs := { s.rs with phase := 0 }
    ring := State.reset.ring
    rbb := State.reset.rbb
    rbbOverflow := false
    errCode := 0
    faulted := false
    out := []
    pc := 0 }

/-- A handler that completes writes nothing else. -/
theorem handler_outsideAdvance {k : EvClass} {s t : State} (h : handler k s = .ok t) : t.outsideAdvance = s.outsideAdvance := by
  cases k with
  | mixer =>
    obtain ⟨-, -, phase, ring, rbb, g, q, rfl, -⟩ := stepMixer_ok h
    rfl
  | sequencer =>
    obtain rfl := stepSequencer_ok h
    rfl

/-- The loop writes nothing else, whatever handlers it runs and however it ends. -/
theorem runDue_outsideAdvance {k : Nat} {s t : State} (h : runDue k s = .next t) : t.outsideAdvance = s.outsideAdvance := by
  induction k generalizing s with
  | zero =>
    rw [runDue] at h
    split at h
    · cases h; rfl
    · cases h
  | succ k ih =>
    rw [runDue] at h
    split at h
    · cases h; rfl
    next e rest _ =>
      simp only at h
      split at h
      next u hu => exact (ih h).trans ((handler_outsideAdvance hu).trans rfl)
      next =>
        obtain ⟨v, -, rfl⟩ := Stop.outcome_next h
        rfl

/-- `SCH.ADV` writes nothing else. -/
theorem execSchAdv_outsideAdvance {n : Word} {s t : State} (h : execSchAdv n s = .next t) :
    t.outsideAdvance = s.outsideAdvance := by
  obtain ⟨hf, hfit⟩ := execSchAdv_next h
  rw [execSchAdv_fits hf hfit] at h
  exact (runDue_outsideAdvance h).trans rfl

/-- Settles O13, by induction on the loop without a bound, and for the frame on the bounded one, which needs no invariant. -/
theorem schAdvLeavesNothingDue : Obligations.SchAdvLeavesNothingDue := by
  refine ⟨fun s t n hi h hft => ?_, fun s n hf hfit hidle => ?_, fun s t n h => ?_⟩
  · obtain ⟨hf, hfit⟩ := execSchAdv_next h
    exact (execSchAdv_advanceRuns hi hf hfit).pending h hft
  · exact (execSchAdv_fits hf hfit).trans (runDue_idle (dueEvent_eq_none hidle))
  · have same {α : Type} (f : State → α) : f t.outsideAdvance = f s.outsideAdvance :=
      congrArg f (execSchAdv_outsideAdvance h)
    exact ⟨same State.csr, same State.ports, same State.dma, same State.mem, same State.known, same (·.rs.variant),
      same (·.rs.shift), same (·.mix.epoch), same State.rbbConstructed, same State.mutex, same State.devOpen, same State.cfgErr,
      same State.devFail⟩

/-! ### When the loop completes -/

/-- A later mixer step has no earlier target (R236). -/
theorem mixTarget_mono {c : Cfg} {epoch n m : Nat} (h : n ≤ m) : mixTarget c epoch n ≤ mixTarget c epoch m := by
  unfold mixTarget roundHalfUp
  gcongr

/-- The mixer step with `RS_PATH = BYPASS` in full: one push, one step counted, one mixer event armed (R225, R231, R236). -/
theorem stepMixer_bypass {s : State} (hc : s.rbbConstructed = true) (hm : s.mutex = false) (hp : s.cfg.rsPath = .bypass)
    (h1 : s.known.sndctlL = true) (h2 : s.known.sndctlH = true) (h3 : s.known.sndbias = true) (h4 : s.known.apu = true)
    (h5 : ∀ c, psgQueried s.csr.sndctlL c = true → s.known.psgIn.get c = true)
    (hfit : max s.sched.now (mixTarget s.cfg s.mix.epoch (s.mix.n + 1)) < 2 ^ s.cfg.tsW) :
    stepMixer s =
      .ok { s with
        rbb := s.rbb.push s.cfg (outputSample s (mixNorm s))
        rbbOverflow := s.rbbOverflow || decide (bufCap s.cfg ≤ s.rbb.size + 1)
        mix := { epoch := s.mix.epoch, n := s.mix.n + 1 }
        sched :=
          { now := s.sched.now,
            evq :=
              insertEvent
                { target := max s.sched.now (mixTarget s.cfg s.mix.epoch (s.mix.n + 1)), cls := .mixer, seq := s.sched.seqCtr }
                s.sched.evq,
            seqCtr := s.sched.seqCtr + 1 } } := by
  have hroute : routeSample (mixNorm s) s = outputStage (mixNorm s) s := by rw [routeSample, hp]
  rw [stepMixer, if_pos hc, mixerReads_eq h1 h2 h3 h4 h5, hroute, outputStage_eq hm hc]
  exact (rearmMixer_eq _).trans (if_pos hfit)

/-- A state from which the loop of R134 completes: the block runs, its mixer bypasses the resampler, and neither handler re-arms past the
range of the timestamp, the `last` mixer step being no earlier than any the loop can still take. -/
structure CompletesBy (last : Nat) (s : State) : Prop where
  inv : Inv s
  running : s.faulted = false
  built : s.rbbConstructed = true
  bypass : s.cfg.rsPath = .bypass
  driven : ∀ c, s.known.psgIn.get c = true
  sequencer_fits : s.sched.now + s.cfg.seqCycles < 2 ^ s.cfg.tsW
  mixer_fits : mixTarget s.cfg s.mix.epoch last < 2 ^ s.cfg.tsW
  steps : s.mix.n + dueMeasure s ≤ last

/-- In such a state the handler of the due event completes. -/
theorem CompletesBy.handler_completes {last : Nat} {s : State} {e : Event} {rest : List Event} (h : CompletesBy last s)
    (hq : s.sched.evq = e :: rest) (hd : e.target ≤ s.sched.now) : ∃ t, handler e.cls (s.withQueue rest) = .ok t := by
  cases e.cls with
  | mixer =>
    obtain ⟨hL, hH, hbias, -⟩ := h.inv.apu_known (h.inv.rbb_known h.built)
    have hlast : s.mix.n + 1 ≤ last := by
      have := dueMeasure_pos hq hd
      have := h.steps
      omega
    have htarget := (mixTarget_mono (c := s.cfg) (epoch := s.mix.epoch) hlast).trans_lt h.mixer_fits
    exact ⟨_, stepMixer_bypass (s := s.withQueue rest) h.built h.inv.mutex_free h.bypass hL hH hbias
      (h.inv.rbb_known h.built) (fun c _ => h.driven c) (max_lt h.inv.now_range htarget)⟩
  | sequencer => exact ⟨_, (stepSequencer_eq (s.withQueue rest)).trans (if_pos h.sequencer_fits)⟩

/-- A turn leads to another such state: it may count one mixer step and lowers the measure by at least one. -/
theorem CompletesBy.turn {last : Nat} {s t : State} {e : Event} {rest : List Event} (h : CompletesBy last s)
    (hq : s.sched.evq = e :: rest) (hd : e.target ≤ s.sched.now) (ht : handler e.cls (s.withQueue rest) = .ok t) :
    CompletesBy last t := by
  obtain ⟨hkept, hnow, -, -, -, -, -, -, -, hepoch, hbuilt, -, -, -, -, -, hfaulted, hknown⟩ := handler_ok ht
  have hcfg : t.cfg = s.cfg := hkept.cfg
  simp only [State.withQueue_sched, State.withQueue_mix, State.withQueue_rbbConstructed, State.withQueue_faulted,
    State.withQueue_known] at hnow hepoch hbuilt hfaulted hknown
  exact
    { inv := handler_inv (h.inv.withQueue hq) ht
      running := hfaulted.trans h.running
      built := hbuilt.trans h.built
      bypass := by rw [hcfg]; exact h.bypass
      driven := by rw [hknown]; exact h.driven
      sequencer_fits := by rw [hnow, hcfg]; exact h.sequencer_fits
      mixer_fits := by rw [hcfg, hepoch]; exact h.mixer_fits
      steps := by
        have hlower := dueMeasure_turn h.inv.cfg_wf hq hd ht
        have hcount : t.mix.n ≤ s.mix.n + 1 := (handler_rearms ht).2
        have := h.steps
        omega }

/-- From such a state the loop completes, with the time as it was. -/
theorem AdvanceRuns.completes {last : Nat} {s : State} {o : Outcome} (h : AdvanceRuns s o) (hs : CompletesBy last s) :
    ∃ t, o = .next t ∧ t.faulted = false ∧ t.pc = s.pc + 1 ∧ t.sched.now = s.sched.now := by
  induction h with
  | done s idle => exact ⟨s.retire, rfl, hs.running, rfl, rfl⟩
  | turn s u o e rest queue least due runs goes ih =>
    obtain ⟨t, ho, hf, hpc, hnow⟩ := ih (hs.turn queue due runs)
    obtain ⟨-, hnow', hpc', -⟩ := handler_ok runs
    exact ⟨t, ho, hf, by rw [hpc, hpc']; rfl, hnow.trans hnow'⟩
  | stop s why e rest queue least due stops =>
    obtain ⟨t, ht⟩ := hs.handler_completes queue due
    rw [ht] at stops
    cases stops

/-- Settles O14: the mixer steps counted and the turns still possible never add up to more than they do when the loop begins. -/
theorem schAdvCompletesWhenRunning : Obligations.SchAdvCompletesWhenRunning := by
  intro s n hi hf hbuilt hbypass hdriven hseq hmix
  have hfit : s.sched.now + n.toNat < 2 ^ s.cfg.tsW := by omega
  have hbound := dueMeasure_le { s with sched := { s.sched with now := s.sched.now + n.toNat } }
  refine (execSchAdv_advanceRuns hi hf hfit).completes
    ⟨hi.withNow hfit, hf, hbuilt, hbypass, hdriven, hseq, hmix, ?_⟩
  simp only [dueBound] at hbound
  simp only
  omega

end Sys2Proof.Machine
end

section
/-! SUPPORT. The ring and its commands (R150 to R158): when a pop or a peek faults, what a full ring does, and the outcome of each `RB.*`
command by that of the operation on the ring. -/

namespace Sys2Proof.Machine

/-! ### The operations on the ring -/

/-- A pop of an empty ring (R153). -/
theorem Ring.pop_empty {n : Nat} {r : Ring} (h : r.available = 0) : r.pop n = .error (.violation .rbEmpty) := if_pos h

/-- A pop of any other ring reads the slot of the read cursor (R153). -/
theorem Ring.pop_nonempty {n : Nat} {r : Ring} (h : r.available ≠ 0) :
    r.pop n = .ok (r.slot n r.head, { r with head := r.head + 1 }) := if_neg h

/-- A peek past the unread values (R154). -/
theorem Ring.peek_range {n k : Nat} {r : Ring} (h : r.available ≤ k) : r.peek n k = .error (.violation .rbRange) := if_pos h

/-- A peek within them gives the unread value at its offset (R154). -/
theorem Ring.peek_unread {n k : Nat} {r : Ring} {v : Stereo Rat} (h : (r.unread n)[k]? = some v) : r.peek n k = .ok v := by
  rw [Ring.getElem?_unread] at h
  split at h
  next hk =>
    obtain rfl := Option.some.inj h
    exact if_neg (not_le.2 hk)
  next => cases h

/-- On a full ring both cursors name one slot, so a push overwrites the value the next pop returns (R158). -/
theorem Ring.pop_push_full {n : Nat} {r : Ring} (x : Stereo Rat) (h : r.Ok n) (hn : 0 < n) (hfull : r.available = n) :
    ∃ r', (r.push n x).pop n = .ok (x, r') := by
  have htail : r.tail = r.head + n := by
    have := h.cursors
    simp only [Ring.available] at hfull
    omega
  have hslot : (r.push n x).slot n (r.push n x).head = x :=
    (Ring.slot_push x r.head hn h.slots).trans (if_pos (by rw [htail, Nat.add_mod_right]))
  have havail : (r.push n x).available ≠ 0 := by simp [Ring.available_push x h.cursors]
  exact ⟨_, by rw [Ring.pop_nonempty havail, hslot]⟩

/-- Settles O39: the list of unread values is the queue; the full ring is R158's. -/
theorem ringIsAQueue : Obligations.RingIsAQueue := by
  intro n r hok
  refine ⟨fun x hlt => ⟨Ring.push_ok x hok, Ring.unread_push x hok hlt⟩, fun v rest hv => ?_, fun x hn hfull => ?_⟩
  · obtain ⟨hpop, hrest⟩ := Ring.pop_unread hv
    exact ⟨_, hpop, Ring.pop_ok hok hpop, hrest⟩
  · exact ⟨by rw [Ring.available_push x hok.cursors, hfull], Ring.pop_push_full x hok hn hfull⟩

/-! ### The commands -/

/-- A command whose element has a value completes with its operation. -/
theorem runCommand_needing_ok {s t : State} {has : Bool} {what : Element} {body : Result State} (hf : s.faulted = false)
    (hk : has = true) (hb : body = .ok t) : runCommand s (needing has what body) = .next t.retire := by
  rw [needing_true hk, hb, runCommand_ok hf]

/-- A command whose element has a value stops with its operation. -/
theorem runCommand_needing_error {s : State} {has : Bool} {what : Element} {body : Result State} {e : Stop}
    (hf : s.faulted = false) (hk : has = true) (hb : body = .error e) :
    runCommand s (needing has what body) = e.outcome s := by
  rw [needing_true hk, hb, runCommand_error hf]

theorem execRbPop_ok {s : State} {v : Stereo Rat} {r : Ring} (hf : s.faulted = false) (hk : s.known.ring = true)
    (hp : s.ring.pop s.cfg.rbN = .ok (v, r)) :
    execRbPop s = .next (State.result (.sample v) { s with ring := r }).retire :=
  runCommand_needing_ok hf hk (by rw [hp])

theorem execRbPop_error {s : State} {e : Stop} (hf : s.faulted = false) (hk : s.known.ring = true)
    (hp : s.ring.pop s.cfg.rbN = .error e) : execRbPop s = e.outcome s :=
  runCommand_needing_error hf hk (by rw [hp])

theorem execRbPeek_ok {offset : Half} {s : State} {v : Stereo Rat} (hf : s.faulted = false) (hk : s.known.ring = true)
    (hp : s.ring.peek s.cfg.rbN offset.toNat = .ok v) : execRbPeek offset s = .next (s.result (.sample v)).retire :=
  runCommand_needing_ok hf hk (by rw [hp])

theorem execRbPeek_error {offset : Half} {s : State} {e : Stop} (hf : s.faulted = false) (hk : s.known.ring = true)
    (hp : s.ring.peek s.cfg.rbN offset.toNat = .error e) : execRbPeek offset s = e.outcome s :=
  runCommand_needing_error hf hk (by rw [hp])

/-- Settles O38: each command's outcome is that of its operation, which the list of unread values decides. -/
theorem ringPopPeek : Obligations.RingPopPeek := by
  intro s offset hf hk
  refine ⟨rfl, rfl, fun v hv => ?_, fun hempty => ?_, fun v hv => ?_, fun hrange => ?_⟩
  · obtain ⟨rest, hrest⟩ := List.head?_eq_some_iff.1 (List.head?_eq_getElem?.trans hv)
    exact execRbPop_ok hf hk (Ring.pop_unread hrest).1
  · have havail : s.ring.available = 0 := by rw [← Ring.length_unread s.cfg.rbN, hempty, List.length_nil]
    exact execRbPop_error hf hk (Ring.pop_empty havail)
  · exact execRbPeek_ok hf hk (Ring.peek_unread hv)
  · exact execRbPeek_error hf hk (Ring.peek_range hrange)

/-- Settles O37: these commands have no stop of their own once the ring has a value, which `RB.RESET` does not need. -/
theorem ringPushAvailReset : Obligations.RingPushAvailReset := by
  intro s l r hf
  refine ⟨rfl, rfl, rfl, fun hk => ⟨?_, ?_⟩, ?_⟩
  · exact runCommand_needing_ok hf hk rfl
  · exact runCommand_needing_ok hf hk rfl
  · exact runCommand_ok hf

end Sys2Proof.Machine
end

section
/-! SUPPORT. The invariant through every instruction: one rule for each way an instruction ends, one for each part of the state that several
instructions write, then the instructions that write a part of their own. -/

namespace Sys2Proof.Machine

/-! ### How an instruction ends -/

/-- A command keeps the invariant when its body does: a fault always does. -/
theorem Inv.of_runCommand {s t : State} {body : Result State} (hi : Inv s) (h : runCommand s body = .next t)
    (hb : ∀ u, body = .ok u → Inv u) : Inv t := by
  obtain ⟨-, ⟨u, hu, rfl⟩ | ⟨v, -, rfl⟩⟩ := runCommand_next h
  · exact (hb u hu).retire
  · exact hi.raise v

/-- A command that cannot stop keeps the invariant when the state it completes with does. -/
theorem completes_inv {s t u : State} (hu : Inv u) (h : runCommand s (.ok u) = .next t) : Inv t := by
  obtain ⟨-, ⟨v, hv, rfl⟩ | ⟨v, hv, -⟩⟩ := runCommand_next h
  · cases hv
    exact hu.retire
  · cases hv

/-- A handler run on its own keeps the invariant. -/
theorem Inv.of_runHandler {k : EvClass} {s t : State} (hi : Inv s) (h : runHandler s (handler k s) = .next t) : Inv t := by
  obtain ⟨-, hok | ⟨v, -, rfl⟩⟩ := runHandler_next h
  · exact handler_inv hi hok
  · exact hi.raise v

/-- An operation under the mutex keeps the invariant when what its body leaves does, once the mutex is free again (R84). -/
theorem Inv.of_withMutex {s t : State} {body : State → Result State} (h : withMutex s body = .ok t)
    (hb : ∀ u, body { s with mutex := true } = .ok u → Inv { u with mutex := false }) : Inv t := by
  obtain ⟨-, u, hu, rfl⟩ := withMutex_ok h
  exact hb u hu

/-- An operation on the buffer likewise. -/
theorem Inv.of_withBuffer {s t : State} {body : State → Result State} (h : withBuffer s body = .ok t)
    (hb : ∀ u, body { s with mutex := true } = .ok u → Inv { u with mutex := false }) : Inv t := by
  obtain ⟨-, -, u, hu, rfl⟩ := withBuffer_ok h
  exact hb u hu

/-- A result keeps the invariant: it goes to the trace. -/
theorem Inv.result {s : State} (h : Inv s) (v : Value) : Inv (s.result v) := h.withOut _

/-! ### The parts of the state -/

/-- A block of the buffer holds a sample (R6). -/
theorem Inv.block_pos {s : State} (h : Inv s) : 0 < s.cfg.rbbN := by have := Cfg.wf_iff.1 h.cfg_wf; omega

/-- The buffer holds a block (R6). -/
theorem Inv.blocks_pos {s : State} (h : Inv s) : 0 < s.cfg.rbbB := by have := Cfg.wf_iff.1 h.cfg_wf; omega

/-- Another ring in shape. -/
theorem Inv.withRing {s : State} (h : Inv s) {r : Ring} (hr : r.Ok s.cfg.rbN) : Inv { s with ring := r } :=
  { h with ring_ok := hr }

/-- Other DMA channels within their ranges. -/
theorem Inv.withDma {s : State} (h : Inv s) {d : Dma} (hf : ∀ f, (d.fifo.get f).length ≤ s.cfg.fifoCap)
    (hp : ∀ f, (d.pipe.get f).count ≤ 4) : Inv { s with dma := d } :=
  { h with fifo_range := hf, pipe_range := hp }

/-- Another resampler, its ring and `cfg_err`. -/
theorem Inv.withResampler {s : State} (h : Inv s) (e : Bool) {rs : Resampler} {ring : Ring} (hs : 0 < rs.shift) (hp : 0 ≤ rs.phase)
    (hr : ring.Ok s.cfg.rbN) : Inv { s with cfgErr := e, rs := rs, ring := ring } :=
  { h with shift_pos := hs, phase_nonneg := hp, ring_ok := hr }

/-! ### The scheduler -/

theorem execSchAdd_inv {cls : Byte} {delta : Word} {s t : State} (hi : Inv s) (h : execSchAdd cls delta s = .next t) : Inv t :=
  hi.of_runCommand h fun u hu => by
    split at hu
    · cases hu
    · split at hu
      · cases hu
      next k _ _ n _ =>
        obtain ⟨hfit, rfl⟩ := arm_ok hu
        exact hi.withEvent k hfit

/-- The loop of R134 keeps the invariant, by induction on its turns: each turn takes the head of the queue and runs its handler. -/
theorem runDue_inv {k : Nat} {s t : State} (hi : Inv s) (h : runDue k s = .next t) : Inv t := by
  induction k generalizing s with
  | zero =>
    rw [runDue] at h
    split at h
    · cases h; exact hi.retire
    · cases h
  | succ k ih =>
    cases hdue : dueEvent s.sched.evq s.sched.now with
    | none =>
      rw [runDue_idle hdue] at h
      cases h
      exact hi.retire
    | some due =>
      obtain ⟨hq, hd⟩ := dueEvent_some.1 hdue
      have hi' := hi.withQueue hq
      rw [runDue_turn hq hd] at h
      split at h
      next u hu => exact ih (handler_inv hi' hu) h
      next =>
        obtain ⟨v, -, rfl⟩ := Stop.outcome_next h
        exact hi'.raise v

theorem execSchAdv_inv {n : Word} {s t : State} (hi : Inv s) (h : execSchAdv n s = .next t) : Inv t := by
  obtain ⟨hf, hfit⟩ := execSchAdv_next h
  rw [execSchAdv_fits hf hfit] at h
  exact runDue_inv (hi.withNow hfit) h

/-! ### The ring and the resampler -/

theorem execRbPush_inv {l r : Half} {s t : State} (hi : Inv s) (h : execRbPush l r s = .next t) : Inv t :=
  hi.of_runCommand h fun u hu => by
    obtain ⟨-, hu⟩ := needing_ok hu
    cases hu
    exact hi.withRing (Ring.push_ok _ hi.ring_ok)

theorem execRbPop_inv {s t : State} (hi : Inv s) (h : execRbPop s = .next t) : Inv t :=
  hi.of_runCommand h fun u hu => by
    obtain ⟨-, hu⟩ := needing_ok hu
    split at hu
    · cases hu
    next v r hpop =>
      cases hu
      exact (hi.withRing (Ring.pop_ok hi.ring_ok hpop)).result _

theorem execRbPeek_inv {offset : Half} {s t : State} (hi : Inv s) (h : execRbPeek offset s = .next t) : Inv t :=
  hi.of_runCommand h fun u hu => by
    obtain ⟨-, hu⟩ := needing_ok hu
    split at hu
    · cases hu
    · cases hu
      exact hi.result _

theorem execRbAvail_inv {s t : State} (hi : Inv s) (h : execRbAvail s = .next t) : Inv t :=
  hi.of_runCommand h fun u hu => by
    obtain ⟨-, hu⟩ := needing_ok hu
    cases hu
    exact hi.result _

/-- `RB.RESET` also gives the ring a value (R62). -/
theorem execRbReset_inv {s t : State} (hi : Inv s) (h : execRbReset s = .next t) : Inv t :=
  hi.of_runCommand h fun u hu => by
    cases hu
    exact
      { hi with
        ring_ok := Ring.cleared_ok _
        apu_known := fun ha => by
          obtain ⟨hL, hH, hbias, -⟩ := hi.apu_known ha
          exact ⟨hL, hH, hbias, rfl⟩ }

theorem execRsRate_inv {src : BitVec 24} {dst : Word} {s t : State} (hi : Inv s) (h : execRsRate src dst s = .next t) : Inv t :=
  hi.of_runCommand h fun u hu => by
    obtain ⟨-, hu⟩ := needing_ok hu
    obtain ⟨e, rs, ring, he, hshift, hphase, hring⟩ := rsRate_frame src.toNat dst.toNat s
    rw [he] at hu
    cases hu
    exact hi.withResampler e hshift (hphase hi.phase_nonneg) (hring hi.ring_ok)

theorem execRsWrite_inv {l r : Half} {s t : State} (hi : Inv s) (h : execRsWrite l r s = .next t) : Inv t :=
  hi.of_runCommand h fun u hu => by
    obtain ⟨-, hu⟩ := needing_ok hu
    obtain ⟨-, hu⟩ := needing_ok hu
    rcases rsWrite_all (sampleOperand l r) hi.shift_pos hi.ring_ok with he | ⟨ys, phase, ring, he, -, hphase, hring, -⟩
    · rw [he] at hu; cases hu
    · rw [he] at hu
      cases hu
      exact (hi.withResampler s.cfgErr (rs := { s.rs with phase := phase }) hi.shift_pos hphase hring).result _

/-! ### The block buffer and the callback -/

theorem execRbbPush_inv {l r : Half} {s t : State} (hi : Inv s) (h : execRbbPush l r s = .next t) : Inv t :=
  hi.of_runCommand h fun u hu => by
    obtain ⟨-, -, rfl⟩ := rbbPush_ok hu
    exact { hi with rbb_ok := fun hc => BlockBuffer.push_ok _ (hi.rbb_ok hc) }

theorem execRbbPopb_inv {s t : State} (hi : Inv s) (h : execRbbPopb s = .next t) : Inv t :=
  hi.of_runCommand h fun u hu => Inv.of_withBuffer hu fun v hv => by
    split at hv
    · cases hv
    · cases hv
      exact { hi with rbb_ok := fun hc => BlockBuffer.dropBlock_ok (hi.rbb_ok hc), mutex_free := rfl }

/-- A read of the buffer leaves a result and nothing else. -/
theorem bufferRead_inv {value : State → Value} {s t : State} (hi : Inv s)
    (h : runCommand s (withBuffer s fun u => .ok (u.result (value u))) = .next t) : Inv t :=
  hi.of_runCommand h fun u hu => Inv.of_withBuffer hu fun v hv => by
    cases hv
    exact { hi with mutex_free := rfl }

/-- `CB.REQ` writes memory, in canonical form, and moves the cursors of a buffer that keeps its shape (R277, R278). -/
theorem execCbReq_inv {len : BitVec 24} {dest : Word} {s t : State} (hi : Inv s) (h : execCbReq len dest s = .next t) : Inv t := by
  refine hi.of_runCommand h fun u hu => ?_
  split at hu
  · cases hu
  next r _ =>
    refine Inv.of_withMutex hu fun v hv => ?_
    split at hv
    next hc =>
      rcases drain_all (destOperand dest) (i := 0) (s := { s with mutex := true }) (hi.rbb_ok hc) hi.block_pos (le_refl r) with
        he | ⟨mem, out, rbb, he, hok, -, -, hwf, -⟩
      · rw [he] at hv; cases hv
      · rw [he] at hv
        cases hv
        exact { hi with mem_wf := hwf hi.mem_wf, rbb_ok := fun _ => hok, mutex_free := rfl }
    next =>
      obtain ⟨mem, out, he, hwf, -⟩ := silence_frame (destOperand dest) (4 * r) { s with mutex := true }
      cases he ▸ hv
      exact { hi with mem_wf := hwf hi.mem_wf, mutex_free := rfl }

/-! ### The DMA channels -/

/-- Serving a channel takes words out of its FIFO and puts none in (R252). -/
theorem serveDma_fifo_le (f g : DmaCh) (d : Dma) : ((serveDma f d).fifo.get g).length ≤ (d.fifo.get g).length := by
  by_cases hg : g = f
  · subst hg
    by_cases hc : (d.pipe.get g).count = 0
    · cases hq : d.fifo.get g with
      | nil => rw [(serveDma_empty hc hq).1]
      | cons w rest => rw [(serveDma_refill hc hq).1]; exact Nat.le_succ _
    · rw [(serveDma_shift (Nat.pos_of_ne_zero hc)).1]
  · rw [(serveDma_other hg d).1]

/-- A pipe that held at most four bytes holds at most four when its channel, or the other, has been served (R252, R253, R255). -/
theorem serveDma_pipe_le {f g : DmaCh} {d : Dma} (h : (d.pipe.get g).count ≤ 4) : ((serveDma f d).pipe.get g).count ≤ 4 := by
  by_cases hg : g = f
  · subst hg
    by_cases hc : (d.pipe.get g).count = 0
    · cases hq : d.fifo.get g with
      | nil => rw [(serveDma_empty hc hq).2.2]; exact h
      | cons w rest => rw [(serveDma_refill hc hq).2.2]; exact Nat.le_succ 3
    · rw [(serveDma_shift (Nat.pos_of_ne_zero hc)).2.2]
      exact (Nat.sub_le _ _).trans h
  · rw [(serveDma_other hg d).2.2]
    exact h

theorem serveIfBound_inv {s : State} (hi : Inv s) (timerId : Byte) (f : DmaCh) : Inv (serveIfBound timerId f s) := by
  rw [serveIfBound_eq]
  split
  · exact (hi.withDma (fun g => (serveDma_fifo_le f g s.dma).trans (hi.fifo_range g))
      fun g => serveDma_pipe_le (hi.pipe_range g)).withOut _
  · exact hi.withOut _

theorem execTmrOvf_inv {timerId : Byte} {times : Half} {s t : State} (hi : Inv s) (h : execTmrOvf timerId times s = .next t) :
    Inv t :=
  hi.of_runCommand h fun u hu => by
    split at hu
    · obtain ⟨-, hu⟩ := needing_ok hu
      obtain ⟨-, hu⟩ := needing_ok hu
      cases hu
      exact serveIfBound_inv (serveIfBound_inv hi timerId .ch0) timerId .ch1
    · cases hu

/-- A word is appended to a FIFO that is not full (R258). -/
theorem execFifoWr_inv {f : Byte} {word : Word} {s t : State} (hi : Inv s) (h : execFifoWr f word s = .next t) : Inv t :=
  hi.of_runCommand h fun u hu => by
    split at hu
    · cases hu
    next ch _ =>
      obtain ⟨-, hu⟩ := needing_ok hu
      cases hu
      split
      next hlt =>
        refine hi.withDma (fun g => ?_) hi.pipe_range
        rw [Pair.get_put]
        split
        · rw [List.length_append]; exact hlt
        · exact hi.fifo_range g
      next => exact hi

/-! ### The registers and the ports -/

/-- A value cut to its low `n` bits is below `2^n`. -/
theorem toNat_and_lowMask_lt (w : Word) (n : Nat) : (w &&& lowMask n).toNat < 2 ^ n :=
  calc (w &&& lowMask n).toNat = w.toNat &&& (lowMask n).toNat := BitVec.toNat_and w _
    _ ≤ (lowMask n).toNat := Nat.and_le_right
    _ ≤ 2 ^ n - 1 := by rw [lowMask, BitVec.toNat_ofNat]; exact Nat.mod_le _ _
    _ < 2 ^ n := Nat.sub_lt (Nat.two_pow_pos n) Nat.one_pos

/-- `OUTVOL` holds a volume up to 100, whatever is written (R262). -/
theorem toNat_outvolOf_le (value : Word) : (outvolOf value).toNat ≤ 100 := by
  have := clampInt_range (x := value.toInt) (show (0 : Int) ≤ 100 by decide)
  rw [outvolOf, BitVec.toNat_ofInt]
  omega

/-- A masked register has its reserved bits clear. -/
theorem and_mask_idem (w m : Word) : w &&& m &&& m = w &&& m := by rw [BitVec.and_assoc, BitVec.and_self]

/-- A register write stores a value in the register's range, and gives the register a value (R262). -/
theorem writeCsr_inv {index : Byte} {value : Word} {s t : State} (hi : Inv s) (h : writeCsr index value s = .ok t) : Inv t := by
  unfold writeCsr at h
  repeat' split at h
  all_goals cases h
  · exact
      { hi with
        sndctlL_reserved := and_mask_idem value _
        apu_known := fun ha => ⟨rfl, (hi.apu_known ha).2⟩ }
  · exact
      { hi with
        sndctlH_reserved := and_mask_idem value _
        apu_known := fun ha => by
          obtain ⟨hL, -, hbias, hring⟩ := hi.apu_known ha
          exact ⟨hL, rfl, hbias, hring⟩ }
  · exact
      { hi with
        sndbias_range := toNat_and_lowMask_lt value _
        apu_known := fun ha => by
          obtain ⟨hL, hH, -, hring⟩ := hi.apu_known ha
          exact ⟨hL, hH, rfl, hring⟩ }
  · exact { hi with outvol_range := toNat_outvolOf_le value }
  · exact { hi with interp_range := toNat_and_lowMask_lt value 3 }
  · exact { hi with mixmode_range := toNat_and_lowMask_lt value 1 }
  · exact { hi with }

theorem execCsrRd_inv {index : Byte} {s t : State} (hi : Inv s) (h : execCsrRd index s = .next t) : Inv t := by
  unfold execCsrRd at h
  split at h
  · cases h
  · split at h
    · cases h
      exact (hi.result _).retire
    · obtain ⟨v, -, rfl⟩ := Stop.outcome_next h
      exact hi.raise v

/-- `PSG.SET` drives a port with a value that fits it (R118, R266). -/
theorem execPsgSet_inv {c : Byte} {value : Word} {s t : State} (hi : Inv s) (h : execPsgSet c value s = .next t) : Inv t :=
  hi.of_runCommand h fun u hu => by
    split at hu
    · cases hu
    next ch _ =>
      split at hu
      · cases hu
      next v hv =>
        cases hu
        obtain ⟨hfits, rfl⟩ := psgValueOperand_some.1 hv
        refine { hi with psg_range := fun d => ?_ }
        simp only [Quad.get_put]
        split
        · exact hfits
        · exact hi.psg_range d

theorem execDevSet_inv {ok : Byte} {rate : Word} {s t : State} (hi : Inv s) (h : execDevSet ok rate s = .next t) : Inv t :=
  hi.of_runCommand h fun u hu => by
    split at hu
    · cases hu
    · cases hu
      exact { hi with }

/-! ### Reset and teardown -/

/-- An empty queue keeps the invariant. -/
theorem Inv.withoutEvents {s : State} (h : Inv s) : Inv { s with sched := { s.sched with evq := [] } } :=
  { h with queue_sorted := List.Pairwise.nil, queue_seq := nofun, queue_target := nofun }

/-- Removing the block's own events empties the queue (R220, R240). -/
theorem removeOwnEvents_inv {s : State} (h : Inv s) : Inv (removeOwnEvents s) := by
  rw [removeOwnEvents, removeOwnEvents_empty]
  exact h.withoutEvents

/-- Parts 1 and 2 of the reset: the registers are cleared and have values, and there is a buffer (R216, R217). -/
theorem afterDevice_inv {s : State} (hi : Inv s) : Inv (afterDevice s) := by
  have hfresh : (BlockBuffer.fresh s.cfg).Ok s.cfg := BlockBuffer.fresh_ok hi.block_pos hi.blocks_pos
  exact
    { hi with
      fifo_range := fun f => by cases f <;> exact Nat.zero_le _
      pipe_range := fun f => by cases f <;> exact Nat.zero_le _
      sndctlL_reserved := BitVec.zero_and
      sndctlH_reserved := BitVec.zero_and
      sndbias_range := toNat_and_lowMask_lt _ _
      rbb_ok := fun _ => hfresh
      rbb_known := fun _ => rfl
      apu_known := fun _ => ⟨rfl, rfl, rfl, rfl⟩
      device := by simp [afterDevice] }

/-- `APU.RESET` goes on to set the resampler and to arm both events on an empty queue (R218 to R221). -/
theorem execApuReset_inv {s t : State} (hi : Inv s) (h : execApuReset s = .next t) : Inv t := by
  obtain ⟨hf, hm, hd, hfit⟩ := execApuReset_next h
  obtain ⟨e, rs, ring, -, hshift, hphase, hring, he⟩ := execApuReset_eq hf hm hd
  rw [he, if_pos hfit] at h
  cases h
  have harmed := (((afterDevice_inv hi).withResampler e hshift hphase hring).withoutEvents.withEvent .mixer hfit.1).withEvent
    .sequencer hfit.2
  exact { harmed with }

/-- `APU.OFF` closes the device and removes the buffer and the events (R240). -/
theorem execApuOff_inv {s t : State} (hi : Inv s) (h : execApuOff s = .next t) : Inv t :=
  hi.of_runCommand h fun u hu => by
    split at hu
    · cases hu
    next v hv =>
      cases hu
      refine removeOwnEvents_inv (Inv.of_withMutex hv fun w hw => ?_)
      cases hw
      exact { hi with rbb_ok := nofun, rbb_known := nofun, mutex_free := rfl, device := nofun }

/-! ### Every instruction -/

/-- Every instruction keeps the invariant. -/
theorem exec_inv {i : Instr} {s t : State} (hi : Inv s) (h : exec i s = .next t) : Inv t := by
  cases i with
  | schAdd cls delta => exact execSchAdd_inv hi h
  | schAdv n => exact execSchAdv_inv hi h
  | schNow => exact completes_inv (hi.result _) h
  | rbPush l r => exact execRbPush_inv hi h
  | rbPop => exact execRbPop_inv hi h
  | rbPeek offset => exact execRbPeek_inv hi h
  | rbAvail => exact execRbAvail_inv hi h
  | rbReset => exact execRbReset_inv hi h
  | rbbPush l r => exact execRbbPush_inv hi h
  | rbbPopb => exact execRbbPopb_inv hi h
  | rbbData => exact bufferRead_inv hi h
  | rbbBack => exact bufferRead_inv hi h
  | rbbSize => exact bufferRead_inv hi h
  | rbbCpb => exact completes_inv (hi.result _) h
  | rsRate src dst => exact execRsRate_inv hi h
  | rsWrite l r => exact execRsWrite_inv hi h
  | apuReset => exact execApuReset_inv hi h
  | apuOff => exact execApuOff_inv hi h
  | tmrOvf timerId times => exact execTmrOvf_inv hi h
  | fifoWr f word => exact execFifoWr_inv hi h
  | csrWr index value => exact hi.of_runCommand h fun _ => writeCsr_inv hi
  | csrRd index => exact execCsrRd_inv hi h
  | psgSet c value => exact execPsgSet_inv hi h
  | devSet ok rate => exact execDevSet_inv hi h
  | cbReq len dest => exact execCbReq_inv hi h
  | evMixer => exact Inv.of_runHandler (k := .mixer) hi h
  | evSeq => exact Inv.of_runHandler (k := .sequencer) hi h

/-- With no handler selected a step that answers a next state has run an instruction in the state it began in (R22, R100). -/
theorem step_next {s t : State} (hd : s.dispatch = none) (h : step s = .next t) : ∃ i, exec i s = .next t := by
  unfold step at h
  split at h
  · cases h
  next i u hnext =>
    simp only [nextInstr, hd] at hnext
    repeat' split at hnext
    all_goals cases hnext
    exact ⟨i, h⟩

/-- Settles O59: the step runs one instruction, and every instruction keeps the invariant. -/
theorem stepKeepsInvariant : Obligations.StepKeepsInvariant := by
  intro s t hi h
  obtain ⟨i, hexec⟩ := step_next hi.no_dispatch h
  exact exec_inv hi hexec

end Sys2Proof.Machine
end

section
/-! SUPPORT. The `RBB.*` commands (R165 to R174): each one's outcome by that of its operation under the mutex, the block buffer as a queue
of blocks, and what a callback request pads with (R278, R279). -/

namespace Sys2Proof.Machine

/-! ### A command on the buffer -/

/-- Without a buffer a command on it raises `RBB_ABSENT` (R165). -/
theorem runCommand_withBuffer_absent {s : State} {body : State → Result State} (hf : s.faulted = false) (hm : s.mutex = false)
    (hc : s.rbbConstructed = false) : runCommand s (withBuffer s body) = .next (s.raise .rbbAbsent) := by
  rw [withBuffer_absent hm hc, runCommand_error hf]
  rfl

/-- A command on the buffer completes with its operation, the mutex free again (R84). -/
theorem runCommand_withBuffer_ok {s t : State} {body : State → Result State} (hf : s.faulted = false) (hm : s.mutex = false)
    (hc : s.rbbConstructed = true) (hb : body { s with mutex := true } = .ok { t with mutex := true })
    (ht : t.mutex = false) : runCommand s (withBuffer s body) = .next t.retire := by
  rw [withBuffer_eq hm hc, hb, runCommand_ok hf]
  simp only
  rw [mutex_roundtrip ht]

/-- A command on the buffer stops with its operation. -/
theorem runCommand_withBuffer_error {s : State} {e : Stop} {body : State → Result State} (hf : s.faulted = false)
    (hm : s.mutex = false) (hc : s.rbbConstructed = true) (hb : body { s with mutex := true } = .error e) :
    runCommand s (withBuffer s body) = e.outcome s := by
  rw [withBuffer_eq hm hc, hb]
  exact runCommand_error hf

/-- Settles O44: each of the five commands is an operation on the buffer. -/
theorem blockBufferAbsent : Obligations.BlockBufferAbsent := by
  intro s l r hf hm hc i hi
  have habsent (body : State → Result State) := runCommand_withBuffer_absent (body := body) hf hm hc
  simp only [List.mem_cons, List.not_mem_nil, or_false] at hi
  rcases hi with rfl | rfl | rfl | rfl | rfl <;> exact habsent _

/-! ### Push, block and `Back()` -/

/-- Settles O40: a push has no stop of its own. -/
theorem blockPushAdvancesModuloCapacity : Obligations.BlockPushAdvancesModuloCapacity := by
  intro s l r hf hm hc
  refine ⟨rfl, ?_⟩
  change runCommand s (rbbPush ⟨l, r⟩ s) = _
  rw [rbbPush_eq _ hm hc, runCommand_ok hf]
  rfl

/-- The block a pop takes is the `N` oldest queued samples (R169). -/
theorem BlockBuffer.block_eq_take {c : Cfg} {b : BlockBuffer} (h : b.Ok c) (hn : c.rbbN ≤ b.size) :
    b.block c = (b.queued c).take c.rbbN := by
  rw [BlockBuffer.queued_dropBlock h hn, List.take_left' (BlockBuffer.length_block h)]

/-- Settles O41: the size decides whether there is a block to take. -/
theorem popBlockReturnsOldestBlock : Obligations.PopBlockReturnsOldestBlock := by
  refine ⟨rfl, fun s hf hm hc => ⟨fun hok hn => ⟨?_, ?_⟩, fun hshort => ?_⟩⟩
  · rw [List.length_take, BlockBuffer.length_queued, Nat.min_eq_left hn]
  · rw [← BlockBuffer.block_eq_take hok hn]
    exact runCommand_withBuffer_ok hf hm hc
      (t := ({ s with rbb := s.rbb.dropBlock s.cfg } : State).result (.samples16 (s.rbb.block s.cfg)))
      (if_neg (not_lt.2 hn)) hm
  · exact runCommand_withBuffer_error (e := .violation .rbbUnderflow) hf hm hc (if_pos hshort)

/-- `Back()` is the newest queued sample when there is one (R171). -/
theorem BlockBuffer.back_of_getLast? {c : Cfg} {b : BlockBuffer} {x : Stereo Half} (h : (b.queued c).getLast? = some x) :
    b.back c = x := by
  have hne : b.queued c ≠ [] := by intro hnil; rw [hnil] at h; cases h
  have hpos : 0 < b.size := by rw [← BlockBuffer.length_queued c b]; exact List.length_pos_of_ne_nil hne
  exact Option.some.inj ((BlockBuffer.back_eq hpos).symm.trans h)

/-- `Back()` of an empty buffer is the base sample of the current block (R171). -/
theorem BlockBuffer.back_empty {c : Cfg} {b : BlockBuffer} (h : b.size = 0) : b.back c = b.slot (b.base c) :=
  if_neg (by omega)

/-- A read of the buffer completes with its result (R170 to R172). -/
theorem bufferRead_eq {value : State → Value} {s : State} (hf : s.faulted = false) (hm : s.mutex = false)
    (hc : s.rbbConstructed = true) :
    runCommand s (withBuffer s fun u => .ok (u.result (value u))) = .next (s.result (value { s with mutex := true })).retire :=
  runCommand_withBuffer_ok hf hm hc rfl hm

/-- Settles O42: each read leaves its value on the result port, `RBB.BACK` that of `Back()`. -/
theorem blockBufferReads : Obligations.BlockBufferReads := by
  intro s hf
  refine ⟨rfl, rfl, rfl, rfl, runCommand_ok hf, fun hm hc => ?_⟩
  have hback : exec .rbbBack s = .next (s.result (.sample16 (s.rbb.back s.cfg))).retire := bufferRead_eq hf hm hc
  refine ⟨bufferRead_eq hf hm hc, bufferRead_eq hf hm hc, fun x hx => ?_, fun hempty => ?_⟩
  · rw [BlockBuffer.back_of_getLast? hx] at hback
    exact hback
  · rw [BlockBuffer.back_empty hempty] at hback
    exact hback

/-- Settles O43: the list of queued samples is the queue. -/
theorem blockBufferIsAQueue : Obligations.BlockBufferIsAQueue := by
  intro c b hok
  refine ⟨fun x hlt => ?_, fun hn => ?_⟩
  · have hq := BlockBuffer.queued_push x hok hlt
    exact ⟨BlockBuffer.push_ok x hok, hq, BlockBuffer.back_of_getLast? (by rw [hq, List.getLast?_concat])⟩
  · exact ⟨BlockBuffer.dropBlock_ok hok, BlockBuffer.queued_dropBlock hok hn, BlockBuffer.length_block hok⟩

/-! ### The callback's pad -/

/-- Settles O51: the drain under the mutex, which a request that R280 does not refuse completes. -/
theorem callbackPadsUnderrun : Obligations.CallbackPadsUnderrun := by
  intro s len dest hi hf hc hl hr
  obtain ⟨mem, out, hd, -, hat⟩ := drain_completes dest.toNat (i := 0) (s := { s with mutex := true }) (hi.rbb_ok hc) hi.block_pos
    (le_refl (len.toNat / 4)) hr
  refine ⟨mem, out, ?_, fun i hlt => ?_⟩
  · have hexec := execCbReq_eq (dest := dest) hf hi.mutex_free hl
    rw [if_pos hc, hd] at hexec
    exact hexec.trans (by simp [State.retire, hi.mutex_free])
  · have := hat i hlt
    rwa [Nat.zero_add] at this

end Sys2Proof.Machine
end

section
/-! SUPPORT. The mixer step with `RS_PATH = INLINE` (R231): the mix goes through the resampler, whose outputs are pushed. -/

namespace Sys2Proof.Machine

/-- The routing on a short window, an output being due (R190, R154). -/
theorem routeSample_inline_short {v : Stereo Rat} {s : State} (hp : s.cfg.rsPath = .inline) (hk : s.known.ring = true)
    (hr : s.ring.head ≤ s.ring.tail) (hw : s.ring.available + 1 < taps s.rs.variant) (hphase : s.rs.phase < 1) :
    routeSample v s = .error (.violation .rbRange) := by
  simp only [routeSample, hp, needing_true hk, rsWrite_short hr hw hphase]

/-- The samples the output stage makes of what the resampler puts out for the input `v` (R190, R233). -/
def resampled (v : Stereo Rat) (s : State) : List (Stereo Half) :=
  (List.range (outputCount s.rs.shift s.rs.phase)).map (fun (k : Nat) =>
    outputSample s (interpolate (kernel s.cfg.kernel s.rs.variant s.rs.shift (s.rs.phase + (k : Rat) * s.rs.shift))
      (((s.ring.push s.cfg.rbN v).unread s.cfg.rbN).take (taps s.rs.variant))))

/-- The routing in full, no output being due or the window being there: the phase and the ring move on, and the outputs are pushed with
their ghost flag (R168, R190). -/
theorem routeSample_inline {v : Stereo Rat} {s : State} (hp : s.cfg.rsPath = .inline) (hk : s.known.ring = true)
    (hm : s.mutex = false) (hc : s.rbbConstructed = true) (hs : 0 < s.rs.shift) (hr : s.ring.head ≤ s.ring.tail)
    (hw : taps s.rs.variant ≤ s.ring.available + 1 ∨ 1 ≤ s.rs.phase) :
    routeSample v s =
      .ok { s with
        rs := { s.rs with phase := s.rs.phase + (outputCount s.rs.shift s.rs.phase : Rat) * s.rs.shift - 1 }
        ring := { s.ring.push s.cfg.rbN v with head := s.ring.head + 1 }
        rbb := ((resampled v s).foldl (pushFlagged s.cfg) (s.rbb, s.rbbOverflow)).1
        rbbOverflow := ((resampled v s).foldl (pushFlagged s.cfg) (s.rbb, s.rbbOverflow)).2 } := by
  simp only [routeSample, hp, needing_true hk, rsWrite_eq hs hr hw]
  rw [outputAll_fold _ (by exact hm) (by exact hc), List.map_map]
  rfl

/-- The mixer step when it may read all it needs: the routing, and then the re-arm if that completes (R225, R231, R236). -/
theorem stepMixer_eq_bind {s : State} (hi : Inv s) (hc : s.rbbConstructed = true)
    (hdriven : ∀ c, psgQueried s.csr.sndctlL c = true → s.known.psgIn.get c = true) :
    stepMixer s = (routeSample (mixNorm s) s).bind rearmMixer := by
  have hapu := hi.rbb_known hc
  obtain ⟨hL, hH, hbias, -⟩ := hi.apu_known hapu
  rw [stepMixer, if_pos hc, mixerReads_eq hL hH hbias hapu hdriven]
  cases routeSample (mixNorm s) s with
  | ok t => rfl
  | error e => rfl

/-- Settles O17: `RS.Write` and the output stage in full, one after the other, and the re-arm. -/
theorem inlineMixerPushesResampledSamples : Obligations.InlineMixerPushesResampledSamples := by
  intro s hi hf hc hp hdriven
  obtain ⟨-, -, -, hring⟩ := hi.apu_known (hi.rbb_known hc)
  have hcursors := hi.ring_ok.cursors
  have hstep := stepMixer_eq_bind hi hc hdriven
  refine ⟨fun hshort hphase => ?_, fun hw hfit => ?_⟩
  · rw [routeSample_inline_short hp hring hcursors hshort hphase] at hstep
    exact (congrArg (runHandler s) hstep).trans (runHandler_error hf)
  · rw [routeSample_inline hp hring hi.mutex_free hc hi.shift_pos hcursors hw] at hstep
    have hrearmed := hstep.trans ((rearmMixer_eq _).trans (if_pos hfit))
    refine ⟨outputCount s.rs.shift s.rs.phase, _, fun k => lt_outputCount hi.shift_pos k,
      (congrArg (runHandler s) hrearmed).trans (runHandler_ok hf), fun hroom => ?_, insertEvent_perm _ _⟩
    have hlen : s.rbb.size + (resampled (mixNorm s) s).length < bufCap s.cfg := by
      rwa [resampled, List.length_map, List.length_range]
    refine ⟨foldl_pushFlagged_room _ hlen, ?_⟩
    have hqueued := BlockBuffer.foldl_push_queued _ (hi.rbb_ok hc) hlen
    rwa [← foldl_pushFlagged_fst s.cfg _ (s.rbb, s.rbbOverflow)] at hqueued

end Sys2Proof.Machine
end

section
/-! SUPPORT. The resampler's two commands and its reference kernels: what a rate and a fallback do (R188, R189), the outcome of
`RS.WRITE` by that of `RS.Write` (R190), and an output sample tap by tap (R195, R200 to R202). -/

namespace Sys2Proof.Machine

/-! ### The rate and the fallback -/

/-- A supported pair of rates sets the shift and nothing else (R188). -/
theorem rsRate_supported {src dst : Nat} {s : State} (hsrc : src ≠ 0) (hdst : dst ≠ 0)
    (h : s.cfg.rsSupported s.rs.variant src dst = true) : rsRate src dst s = setShift ((src : Rat) / (dst : Rat)) s := by
  rw [rsRate, if_neg (not_or.2 ⟨hsrc, hdst⟩), if_pos h]

/-- A zero rate or an unsupported pair is a configuration error; the shift is set after it (R188). -/
theorem rsRate_fallback {src dst : Nat} {s : State} (h : src = 0 ∨ dst = 0 ∨ s.cfg.rsSupported s.rs.variant src dst = false) :
    rsRate src dst s = setShift (if src = 0 ∨ dst = 0 then 1 else (src : Rat) / (dst : Rat)) (configError s) := by
  by_cases hz : src = 0 ∨ dst = 0
  · rw [rsRate, if_pos hz, if_pos hz]
  · have hunsupported : s.cfg.rsSupported s.rs.variant src dst = false := (or_assoc.2 h).resolve_left hz
    rw [rsRate, if_neg hz, if_neg hz, if_neg (by simp [hunsupported])]

/-- A configuration error with the default variant active leaves the stream alone (R189). -/
theorem configError_default {s : State} (h : s.rs.variant = s.cfg.rsDefault) : configError s = { s with cfgErr := true } :=
  if_pos h

/-- With another variant active it starts the default one afresh (R189, R186). -/
theorem configError_other {s : State} (h : s.rs.variant ≠ s.cfg.rsDefault) :
    configError s = rsInit s.cfg.rsDefault { s with cfgErr := true } := if_neg h

/-- The window of a variant just started: `TAPS - 1` silent samples, where the ring has room for them (R186). -/
theorem rsInit_unread (v : Variant) {s : State} (h : 256 ≤ s.cfg.rbN) :
    (rsInit v s).ring.unread s.cfg.rbN = List.replicate (taps v - 1) ⟨0, 0⟩ :=
  (Ring.unread_silent (by have := taps_range v; omega)).2.2

/-- `RS.RATE` completes whatever its operands (R188). -/
theorem execRsRate_eq {src : BitVec 24} {dst : Word} {s : State} (hf : s.faulted = false) (ha : s.known.apu = true) :
    execRsRate src dst s = .next (rsRate src.toNat dst.toNat s).retire :=
  runCommand_needing_ok hf ha rfl

/-- Settles O45: the pair is supported or `ConfigError()` runs, whose two cases give the phase and the ring. -/
theorem rateSetsShiftOrFallsBack : Obligations.RateSetsShiftOrFallsBack := by
  intro s src dst hf ha
  have hexec : exec (.rsRate src dst) s = _ := execRsRate_eq hf ha
  have zero_iff {w : Nat} (x : BitVec w) : x.toNat = 0 ↔ x = 0 := by simp [← BitVec.toNat_inj]
  refine ⟨rfl, fun hsrc hdst hok => ?_, fun hbad => ?_⟩
  · rw [rsRate_supported (mt (zero_iff src).1 hsrc) (mt (zero_iff dst).1 hdst) hok] at hexec
    exact hexec
  · rw [← zero_iff src, ← zero_iff dst] at hbad
    rw [rsRate_fallback hbad] at hexec
    simp only [zero_iff] at hexec
    by_cases hv : s.rs.variant = s.cfg.rsDefault
    · rw [configError_default hv] at hexec
      exact ⟨s.rs.phase, s.ring, by rw [← hv]; exact hexec, fun _ => ⟨rfl, rfl⟩, fun hne => absurd hv hne⟩
    · rw [configError_other hv] at hexec
      exact ⟨0, (rsInit s.cfg.rsDefault s).ring, hexec, fun heq => absurd heq hv, fun _ hn => ⟨rfl, rsInit_unread _ hn⟩⟩

/-! ### The write -/

/-- `RS.WRITE` completes with `RS.Write`, its outputs on the result port (R190, R191). -/
theorem execRsWrite_ok {l r : Half} {s t : State} {ys : List (Stereo Rat)} (hf : s.faulted = false) (ha : s.known.apu = true)
    (hr : s.known.ring = true) (hw : rsWrite (sampleOperand l r) s = .ok (ys, t)) :
    execRsWrite l r s = .next (t.result (.samples ys)).retire :=
  runCommand_needing_ok hf ha (by rw [needing_true hr, hw])

/-- `RS.WRITE` stops with `RS.Write` (R190, R291). -/
theorem execRsWrite_error {l r : Half} {s : State} {e : Stop} (hf : s.faulted = false) (ha : s.known.apu = true)
    (hr : s.known.ring = true) (hw : rsWrite (sampleOperand l r) s = .error e) : execRsWrite l r s = e.outcome s :=
  runCommand_needing_error hf ha (by rw [needing_true hr, hw])

/-- Settles O46: `RS.Write` in full, with `outputCount` outputs, or on a short window. -/
theorem writeProducesOutputsByPhase : Obligations.WriteProducesOutputsByPhase := by
  intro s l r hi hf ha
  obtain ⟨-, -, -, hring⟩ := hi.apu_known ha
  have hcursors := hi.ring_ok.cursors
  refine ⟨rfl, fun hshort hphase => execRsWrite_error hf ha hring (rsWrite_short hcursors hshort hphase), fun hw => ?_⟩
  have hcount (k : Nat) := lt_outputCount hi.shift_pos (phase := s.rs.phase) k
  exact ⟨outputCount s.rs.shift s.rs.phase, hcount, execRsWrite_ok hf ha hring (rsWrite_eq hi.shift_pos hcursors hw),
    fun hroom => Ring.unread_push _ hi.ring_ok hroom, phase_after hcount⟩

/-! ### An output sample, tap by tap -/

/-- An empty window gives `ZERO`. -/
@[simp] theorem interpolate_nil (weight : Nat → Rat) : interpolate weight [] = ⟨0, 0⟩ := rfl

/-- The oldest sample of the window takes weight 0, and the rest of the window the weights after it (R190, R195). -/
@[simp] theorem interpolate_cons (weight : Nat → Rat) (x : Stereo Rat) (h : List (Stereo Rat)) :
    interpolate weight (x :: h) =
      ⟨weight 0 * x.l + (interpolate (fun j => weight (j + 1)) h).l,
        weight 0 * x.r + (interpolate (fun j => weight (j + 1)) h).r⟩ := by
  simp only [interpolate, List.length_cons, List.range_succ_eq_map, List.map_cons, List.map_map, List.sum_cons, Stereo.of_l,
    Stereo.of_r]
  rfl

/-- A window filled with one sample gives the sample times the sum of the weights (R207). -/
theorem interpolate_replicate (weight : Nat → Rat) (p : Nat) (x : Stereo Rat) :
    interpolate weight (List.replicate p x) = x.map (((List.range p).map weight).sum * ·) := by
  have hlane (side : Side) :
      ((List.range p).map (fun j => weight j * ((List.replicate p x).getD j zeroSample).side side)).sum =
        ((List.range p).map weight).sum * x.side side := by
    rw [← sum_mul_const]
    congr 1
    refine List.map_congr_left fun j hj => ?_
    rw [List.getD_replicate _ (List.mem_range.1 hj)]
  simp only [interpolate, List.length_replicate, hlane]
  rfl

/-- Settles O47: a window of one, two and four samples, tap by tap. -/
theorem referenceKernelValues : Obligations.ReferenceKernelValues := by
  intro shift mu
  refine ⟨fun h0 => ?_, fun h0 h1 => ⟨?_, ?_⟩, fun h0 h1 h2 h3 => ?_⟩
  · simp [referenceKernel]
  · simp [referenceKernel, cosineRef]
  · have hhalf : cosineRef (1 / 2) = 1 / 2 := by norm_num [cosineRef]
    simp only [interpolate_cons, interpolate_nil, referenceKernel, hhalf, Stereo.mk.injEq, zero_add, one_ne_zero, ↓reduceIte]
    constructor <;> ring
  · simp only [interpolate_cons, interpolate_nil, referenceKernel, Stereo.mk.injEq]
    constructor <;> ring

/-! ### The sum of the weights -/

/-- Settles O48: the polynomials of R200 to R202 sum to 1 identically, and the last Sinc weight is what is left of 1. -/
theorem kernelsPreserveConstants : Obligations.KernelsPreserveConstants := by
  refine ⟨fun v shift mu => ?_, fun weight p x hsum => ?_⟩
  · cases v with
    | nearest => simp [taps, referenceKernel]
    | cosine => simp [taps, List.range_succ, referenceKernel]
    | cubic =>
      have hfour : List.range (taps .cubic) = [0, 1, 2, 3] := by decide
      simp only [hfour, List.map_cons, List.map_nil, List.sum_cons, List.sum_nil, referenceKernel]
      ring
    | sinc32 => exact sincRef_sum .sinc32 shift mu
    | sinc64 => exact sincRef_sum .sinc64 shift mu
    | sinc128 => exact sincRef_sum .sinc128 shift mu
    | sinc256 => exact sincRef_sum .sinc256 shift mu
  · rw [interpolate_replicate, hsum]
    simp [Stereo.map]

end Sys2Proof.Machine
end

section
/-! SUPPORT. The two event handlers (R222 to R239): the outcome of each, the fixed-point mix and the output stage by formula, their ranges
under REF, and the mixer's targets. -/

namespace Sys2Proof.Machine

/-! ### The outcome of a handler -/

/-- Settles O15: the sequencer step in full. -/
theorem sequencerTicksAndRearms : Obligations.SequencerTicksAndRearms := by
  intro s hf hfit
  have hstep := (stepSequencer_eq s).trans (if_pos hfit)
  exact ⟨_, insertEvent_perm _ _, (congrArg (runHandler s) hstep).trans (runHandler_ok hf)⟩

/-- Settles O16: the bypassed mixer step in full. -/
theorem mixerPushesOneSample : Obligations.MixerPushesOneSample := by
  intro s hf hc hm hp hL hH hbias hapu hdriven hfit
  have hstep := stepMixer_bypass hc hm hp hL hH hbias hapu hdriven hfit
  exact ⟨_, insertEvent_perm _ _, (congrArg (runHandler s) hstep).trans (runHandler_ok hf)⟩

/-- Without a buffer the mixer step faults (R225). -/
theorem stepMixer_absent {s : State} (hc : s.rbbConstructed = false) : stepMixer s = .error (.violation .rbbAbsent) := by
  simp [stepMixer, hc]

/-- The channel the mixer step is refused for is enabled and its port has no value (R225, R226). -/
theorem undrivenPsg_some {s : State} {c : PsgCh} (h : undrivenPsg s = some c) :
    psgQueried s.csr.sndctlL c = true ∧ s.known.psgIn.get c = false := by
  simpa using List.find?_some h

/-- There is such a channel whenever some enabled channel's port has no value. -/
theorem exists_undrivenPsg {s : State} {c : PsgCh} (hq : psgQueried s.csr.sndctlL c = true)
    (hk : s.known.psgIn.get c = false) : ∃ d, undrivenPsg s = some d := by
  have hmem : c ∈ PsgCh.all := by cases c <;> decide
  refine Option.isSome_iff_exists.1 (List.find?_isSome.2 ⟨c, hmem, ?_⟩)
  simp [hq, hk]

/-- With the registers known, the mixer step is refused for an undriven channel (R225). -/
theorem stepMixer_undriven {s : State} {c : PsgCh} (hi : Inv s) (hc : s.rbbConstructed = true) (hu : undrivenPsg s = some c) :
    stepMixer s = .error (.refused (.noValue (.psgIn c))) := by
  have hapu := hi.rbb_known hc
  obtain ⟨hL, hH, hbias, -⟩ := hi.apu_known hapu
  rw [stepMixer, if_pos hc, mixerReads, needing_true hL, needing_true hH, needing_true hbias, needing_true hapu, hu]

/-- Settles O18: the buffer is asked for first, and the ports before the mix. -/
theorem mixerNeedsBufferAndPorts : Obligations.MixerNeedsBufferAndPorts := by
  intro s hf
  refine ⟨fun hc => ?_, fun hi hc ⟨c, hq, hk⟩ => ?_⟩
  · exact (congrArg (runHandler s) (stepMixer_absent hc)).trans (runHandler_error hf)
  · obtain ⟨d, hd⟩ := exists_undrivenPsg hq hk
    exact ⟨d, (undrivenPsg_some hd).2, (congrArg (runHandler s) (stepMixer_undriven hi hc hd)).trans (runHandler_error hf)⟩

/-! ### The fixed-point mix -/

/-- With `MIXMODE.FLOAT = 0` the mix is the fixed-point one on each side (R227, R229). -/
theorem mixNorm_fixed {s : State} (h : s.csr.mixmode.getLsbD 0 = false) : mixNorm s = Stereo.of (normFixed s) := by
  simp only [mixNorm, floatMode, h]
  rfl

/-- Settles O19: the fixed-point path unfolded through its fields. -/
theorem mixerFixedPath : Obligations.MixerFixedPath := by
  intro s hm
  rw [mixNorm_fixed hm]
  simp only [Stereo.of_l, Stereo.of_r, normFixed, psgScaled, psgSum_eq, psgVolume_eq, dmaMix_eq]
  constructor <;>
    simp [normalise, clampInt, tdiv, psgEnabled, PsgCh.num, dmaEnabled, dmaVolume, DmaCh.num, masterNumOf, masterField, biasLevel]

/-! ### The output stage -/

/-- A clamp leaves a number of the range alone. -/
theorem clampInt_of_mem {x lo hi : Int} (h : lo ≤ x) (h' : x ≤ hi) : clampInt x lo hi = x := by
  rw [clampInt, if_neg (not_lt.2 h), if_neg (not_lt.2 h')]

/-- The clamp of R233 is to the range of an `s16`, so storing its result loses nothing. -/
theorem toInt_toS16 (c : Cfg) (vol : Nat) (v : Rat) :
    (toS16 c vol v).toInt =
      clampInt (truncRat (clampRat v (-1) 1 * (vol : Rat) / 100 * (c.s16Scale : Rat))) (-32768) 32767 := by
  have hrange := clampInt_range (x := truncRat (clampRat v (-1) 1 * (vol : Rat) / 100 * (c.s16Scale : Rat)))
    (show (-32768 : Int) ≤ 32767 by decide)
  exact BitVec.toInt_ofInt_eq_self (by decide) hrange.1 (by omega)

/-- At volumes up to 100 the scaled sample is within `S16_SCALE` of 0, and so is its truncation (R233). -/
theorem scaled_sample_range {vol : Nat} (scale : Nat) (v : Rat) (hvol : vol ≤ 100) :
    -(scale : Int) ≤ truncRat (clampRat v (-1) 1 * (vol : Rat) / 100 * (scale : Rat)) ∧
      truncRat (clampRat v (-1) 1 * (vol : Rat) / 100 * (scale : Rat)) ≤ (scale : Int) := by
  have hclamp : |clampRat v (-1) 1| ≤ 1 := abs_le.2 (clampRat_range (by norm_num))
  have hgain : |(vol : Rat) / 100| ≤ 1 := by
    rw [abs_of_nonneg (by positivity), div_le_one (by norm_num)]
    exact_mod_cast hvol
  have habs : |clampRat v (-1) 1 * (vol : Rat) / 100 * (scale : Rat)| ≤ (scale : Rat) := by
    rw [mul_div_assoc, abs_mul, abs_mul, Nat.abs_cast]
    exact mul_le_of_le_one_left (Nat.cast_nonneg _) (mul_le_one₀ hclamp (abs_nonneg _) hgain)
  exact truncRat_range (n := scale) (by exact_mod_cast (abs_le.1 habs).1) (by exact_mod_cast (abs_le.1 habs).2)

/-- Settles O21: the stored number is the clamped one, and below full scale the clamp does nothing. -/
theorem outputStageArithmetic : Obligations.OutputStageArithmetic := by
  intro c vol v
  refine ⟨toInt_toS16 c vol v, fun hvol hscale => ?_⟩
  obtain ⟨hlo, hhi⟩ := scaled_sample_range c.s16Scale v hvol
  rw [toInt_toS16, clampInt_of_mem (by omega) (by omega)]
  exact ⟨hlo, hhi⟩

/-! ### The volume and bias scenario -/

/-- Settles O22: the numbers of R239, step by step. -/
theorem volumeAndBiasScenario : Obligations.VolumeAndBiasScenario := by
  intro s hcfg hm hL hH hbias hvol hpsg
  have hscaled (side : Side) : psgScaled s side = 448 := by
    rw [psgScaled, psgSum_eq, hcfg, hL, hH, hpsg]
    cases side <;> simp [psgEnabled, PsgCh.num, psgVolume, masterField, masterNumOf, Config.ref]
  have hdma (side : Side) : dmaMix s side = 0 := by
    rw [dmaMix_eq, hH]
    cases side <;> simp [dmaEnabled, DmaCh.num]
  have hnorm (side : Side) : normFixed s side = 1 / 32 := by
    have hmix : tdiv 448 28 = 16 := by decide
    rw [normFixed, hscaled, hdma, hcfg, hbias]
    norm_num [hmix, biasLevel, Config.ref, clampInt, normalise]
  have hgain : clampRat (1 / 32) (-1) 1 * ((100 : Nat) : Rat) / 100 * (Config.ref.s16Scale : Rat) = 32767 / 32 := by
    norm_num [clampRat, Config.ref]
  have htrunc : truncRat (32767 / 32) = Int.tdiv 32767 32 := by norm_num [truncRat]
  have hsample : toS16 Config.ref 100 (1 / 32) = 1023#16 := by
    simp only [toS16, hgain, htrunc]
    decide
  refine ⟨hscaled, hnorm, ?_⟩
  simp only [outputSample, mixNorm_fixed hm, hcfg, hvol, Stereo.map, Stereo.of_l, Stereo.of_r, hnorm]
  exact congrArg₂ Stereo.mk hsample hsample

/-! ### Ranges under REF -/

/-- What an enable bit lets through is no larger than what it gates. -/
theorem natAbs_gated_le {p : Prop} [Decidable p] {x : Int} {n : Nat} (h : x.natAbs ≤ n) : (if p then x else 0).natAbs ≤ n := by
  split
  · exact h
  · exact Nat.zero_le n

/-- A sample of `PSG_W = 8` signed bits is at most 128 from 0 (R34). -/
theorem natAbs_psgIn_le {s : State} (hcfg : s.cfg = Config.ref) (hi : Inv s) (c : PsgCh) :
    (s.ports.psgIn.get c).natAbs ≤ 128 := by
  have hfits := hi.psg_range c
  simp [fitsSigned, hcfg, Config.ref] at hfits
  omega

/-- A latch holds an `s8` (R42). -/
theorem natAbs_latch_le (b : Byte) : b.toInt.natAbs ≤ 128 := by
  have := BitVec.le_toInt b
  have := BitVec.toInt_lt (x := b)
  omega

theorem psgVolume_ref_le (sndctlH : Word) : psgVolume Config.ref sndctlH ≤ 4 := by
  rw [psgVolume_eq]
  repeat' split
  all_goals decide

theorem dmaVolume_ref_le (sndctlH : Word) (f : DmaCh) : dmaVolume Config.ref sndctlH f ≤ 4 := by
  unfold dmaVolume
  split <;> decide

theorem natAbs_masterNum_ref_le (m : Nat) : (masterNumOf Config.ref m).natAbs ≤ 7 := by
  have htable : ∀ k < 8, (masterNumOf Config.ref k).natAbs ≤ 7 := by decide
  rcases Nat.lt_or_ge m 8 with hm | hm
  · exact htable m hm
  · rw [masterNumOf, List.getD_eq_default _ _ hm]
    decide

/-- Four channels of at most 128 (R227, R235). -/
theorem natAbs_psgSum_le {s : State} (hcfg : s.cfg = Config.ref) (hi : Inv s) (side : Side) : (psgSum s side).natAbs ≤ 512 := by
  have hchannel (c : PsgCh) := natAbs_gated_le (p := psgEnabled s.csr.sndctlL side c) (natAbs_psgIn_le hcfg hi c)
  have h0 := hchannel .ch0
  have h1 := hchannel .ch1
  have h2 := hchannel .ch2
  have h3 := hchannel .ch3
  simp only [Quad.get] at h0 h1 h2 h3
  rw [psgSum_eq]
  omega

/-- The sum at volume factor 4 and master volume 7 (R227, R235). -/
theorem natAbs_psgScaled_le {s : State} (hcfg : s.cfg = Config.ref) (hi : Inv s) (side : Side) :
    (psgScaled s side).natAbs ≤ 14336 := by
  rw [psgScaled, hcfg, Int.natAbs_mul, Int.natAbs_mul, Int.natAbs_natCast]
  exact Nat.mul_le_mul (Nat.mul_le_mul (natAbs_psgSum_le hcfg hi side) (psgVolume_ref_le _)) (natAbs_masterNum_ref_le _)

/-- The scaled sum over `PSG_DIV = 28` (R227, R235). -/
theorem natAbs_psgMix_le {s : State} (hcfg : s.cfg = Config.ref) (hi : Inv s) (side : Side) :
    (tdiv (psgScaled s side) s.cfg.psgDiv).natAbs ≤ 512 := by
  rw [tdiv, Int.natAbs_tdiv, Int.natAbs_natCast, hcfg]
  exact Nat.div_le_div_right (c := 28) (natAbs_psgScaled_le hcfg hi side)

/-- Two latches of at most 128 at volume factor 4 (R228, R235). -/
theorem natAbs_dmaMix_le {s : State} (hcfg : s.cfg = Config.ref) (side : Side) : (dmaMix s side).natAbs ≤ 1024 := by
  have hchannel (b : Byte) (f : DmaCh) : (b.toInt * (dmaVolume s.cfg s.csr.sndctlH f : Int)).natAbs ≤ 512 := by
    rw [Int.natAbs_mul, Int.natAbs_natCast, hcfg]
    exact Nat.mul_le_mul (natAbs_latch_le b) (dmaVolume_ref_le _ f)
  have h0 := natAbs_gated_le (p := dmaEnabled s.csr.sndctlH .ch0 side) (hchannel s.dma.latch.c0 .ch0)
  have h1 := natAbs_gated_le (p := dmaEnabled s.csr.sndctlH .ch1 side) (hchannel s.dma.latch.c1 .ch1)
  rw [dmaMix_eq]
  omega

/-- A bias level has `BIAS_W = 10` bits (R29). -/
theorem biasLevel_ref_le (sndbias : Word) : biasLevel Config.ref sndbias ≤ 1023 :=
  Nat.le_of_lt_succ (Nat.mod_lt _ (by decide))

/-- Settles O23: the bounds of the three summands add up to those of the accumulator. -/
theorem mixerRangesUnderRef : Obligations.MixerRangesUnderRef := by
  intro s side hcfg hi
  have hmix := natAbs_psgMix_le hcfg hi side
  have hdma := natAbs_dmaMix_le hcfg side
  have hbias : biasLevel s.cfg s.csr.sndbias ≤ 1023 := by rw [hcfg]; exact biasLevel_ref_le _
  exact ⟨natAbs_psgSum_le hcfg hi side, natAbs_psgScaled_le hcfg hi side, hmix, hdma, hbias, by omega, by omega⟩

/-! ### The mixer's targets -/

/-- Rounding half up moves a fraction by at most one half (R236). -/
theorem roundHalfUp_bounds (num : Nat) {den : Nat} (hd : 0 < den) :
    2 * num ≤ 2 * den * roundHalfUp num den + den ∧ 2 * den * roundHalfUp num den ≤ 2 * num + den := by
  have hdivmod := Nat.div_add_mod (2 * num + den) (2 * den)
  have hrem := Nat.mod_lt (2 * num + den) (show 0 < 2 * den by omega)
  rw [roundHalfUp]
  omega

/-- Settles O24: the target is `mix_epoch` and one rounding, whatever the step's number. -/
theorem mixerTargetsDoNotDrift : Obligations.MixerTargetsDoNotDrift := by
  intro c epoch n hd
  rw [mixTarget, Nat.add_sub_cancel_left]
  exact roundHalfUp_bounds _ hd

end Sys2Proof.Machine
end

section
/-! SUPPORT. `APU.RESET` and `APU.OFF` (R215 to R221, R240): the state each leaves, and what the resampler is after a reset. -/

namespace Sys2Proof.Machine

/-! ### `APU.RESET` in full -/

/-- The state after parts 1 to 4 (R216 to R219). -/
def afterRates (s : State) : State := resetRates (resetVariant (afterDevice s))

/-- The state an `APU.RESET` leaves: parts 1 to 4, both events armed on an empty queue, and `pc` advanced (R215 to R221). -/
def afterReset (s : State) : State :=
  { afterDevice s with
    cfgErr := (afterRates s).cfgErr
    rs := (afterRates s).rs
    ring := (afterRates s).ring
    mix := { epoch := s.sched.now, n := 1 }
    sched :=
      { now := s.sched.now,
        evq :=
          insertEvent { target := s.sched.now + s.cfg.seqCycles, cls := .sequencer, seq := s.sched.seqCtr + 1 }
            [{ target := s.sched.now + roundHalfUp s.cfg.cpsNum s.cfg.cpsDen, cls := .mixer, seq := s.sched.seqCtr }],
        seqCtr := s.sched.seqCtr + 2 }
    pc := s.pc + 1 }

/-- `APU.RESET` with the ports driven and the two targets in range. -/
theorem execApuReset_fits {s : State} (hf : s.faulted = false) (hm : s.mutex = false) (hd : s.known.dev = true)
    (hfit : s.sched.now + roundHalfUp s.cfg.cpsNum s.cfg.cpsDen < 2 ^ s.cfg.tsW ∧ s.sched.now + s.cfg.seqCycles < 2 ^ s.cfg.tsW) :
    execApuReset s = .next (afterReset s) := by
  obtain ⟨e, rs, ring, hrates, -, -, -, hexec⟩ := execApuReset_eq hf hm hd
  rw [hexec, if_pos hfit, afterReset, afterRates, hrates]

/-- Every `APU.RESET` that answers a next state leaves that one: none faults. -/
theorem execApuReset_afterReset {s t : State} (h : execApuReset s = .next t) : s.mutex = false ∧ t = afterReset s := by
  obtain ⟨hf, hm, hd, hfit⟩ := execApuReset_next h
  rw [execApuReset_fits hf hm hd hfit] at h
  cases h
  exact ⟨hm, rfl⟩

/-- `SNDBIAS` holding a level that fits `BIAS_W` bits reads as that level (R29). -/
theorem toNat_sndbiasOf {c : Cfg} {v : Nat} (hv : v < 2 ^ c.biasW) (hw : c.biasW ≤ 16) : (sndbiasOf c v).toNat = v := by
  have hpow : 2 ^ c.biasW ≤ 2 ^ 16 := Nat.pow_le_pow_right (by decide) hw
  rw [sndbiasOf, lowMask, BitVec.toNat_and, BitVec.toNat_ofNat, BitVec.toNat_ofNat, Nat.mod_eq_of_lt (by omega),
    Nat.mod_eq_of_lt (by omega), Nat.and_two_pow_sub_one_eq_mod, Nat.mod_eq_of_lt hv]

/-- Settles O25: the registers and the DMA channels are part 1's, which no later part touches. -/
theorem apuResetClearsRegisters : Obligations.ApuResetClearsRegisters := by
  intro s hf hd hm hbias hw hmixer hseq
  exact ⟨afterReset s, execApuReset_fits hf hm hd ⟨hmixer, hseq⟩, hf, rfl, rfl, rfl, toNat_sndbiasOf hbias hw, rfl, rfl⟩

/-- Settles O26: the trace, the buffer and the device flags are part 2's. -/
theorem apuResetBuildsBuffer : Obligations.ApuResetBuildsBuffer := by
  intro s t h _
  obtain ⟨hm, rfl⟩ := execApuReset_afterReset h
  exact ⟨rfl, rfl, rfl, rfl, rfl, hm⟩

/-- Settles O28: the events are those of part 6 on the queue part 5 emptied. -/
theorem apuResetArmsBothEventsAndKeepsTheRest : Obligations.ApuResetArmsBothEventsAndKeepsTheRest := by
  intro s t h _
  obtain ⟨-, rfl⟩ := execApuReset_afterReset h
  exact ⟨rfl, rfl, rfl, (insertEvent_perm _ _).trans (.swap _ _ _), rfl, rfl, rfl, rfl, rfl, rfl, rfl, rfl, rfl, rfl, rfl⟩

/-! ### The resampler after a reset -/

/-- The resampler has just begun variant `v`, on a ring of `n` slots: its phase is 0 and its window is silent (R186). -/
structure Fresh (n : Nat) (v : Variant) (s : State) : Prop where
  variant : s.rs.variant = v
  phase : s.rs.phase = 0
  window : s.ring.unread n = List.replicate (taps s.rs.variant - 1) ⟨0, 0⟩

/-- `RS.Init` begins its variant (R186). -/
theorem rsInit_fresh (v : Variant) {s : State} (hn : 256 ≤ s.cfg.rbN) : Fresh s.cfg.rbN v (rsInit v s) :=
  ⟨rfl, rfl, rsInit_unread v hn⟩

/-- The shift is no part of that. -/
theorem Fresh.setShift {n : Nat} {v : Variant} {s : State} (h : Fresh n v s) (x : Rat) : Fresh n v (setShift x s) :=
  ⟨h.variant, h.phase, h.window⟩

/-- On a resampler that has just begun, a configuration error begins the default variant (R189). -/
theorem Fresh.configError {v : Variant} {s : State} (h : Fresh s.cfg.rbN v s) (hn : 256 ≤ s.cfg.rbN) :
    Fresh s.cfg.rbN s.cfg.rsDefault (configError s) := by
  by_cases hv : s.rs.variant = s.cfg.rsDefault
  · rw [configError_default hv]
    exact ⟨hv, h.phase, h.window⟩
  · rw [configError_other hv]
    exact rsInit_fresh (s := { s with cfgErr := true }) _ hn

/-- A configuration error is reported (R189). -/
@[simp] theorem configError_cfgErr (s : State) : (configError s).cfgErr = true := by rw [configError_eq]

/-- `RS.Rate` takes the pair of rates as it is for the variant `v` (R188). -/
def goodRates (c : Cfg) (v : Variant) (src dst : Nat) : Bool := decide (dst ≠ 0) && c.rsSupported v src dst

/-- `RS.Rate` from a rate on a resampler that has just begun `v`: it stays with `v` or begins the default variant (R188, R189). -/
theorem Fresh.rsRate {v : Variant} {s : State} {src : Nat} (h : Fresh s.cfg.rbN v s) (hn : 256 ≤ s.cfg.rbN) (hsrc : src ≠ 0)
    (dst : Nat) :
    Fresh s.cfg.rbN (if goodRates s.cfg v src dst then v else s.cfg.rsDefault) (rsRate src dst s) ∧
      (rsRate src dst s).cfgErr = (s.cfgErr || !goodRates s.cfg v src dst) ∧
      (rsRate src dst s).rs.shift = if dst = 0 then 1 else (src : Rat) / (dst : Rat) := by
  cases hgood : goodRates s.cfg v src dst with
  | true =>
    obtain ⟨hdst, hsup⟩ : dst ≠ 0 ∧ s.cfg.rsSupported v src dst = true := by simpa [goodRates] using hgood
    rw [rsRate_supported hsrc hdst (h.variant ▸ hsup)]
    exact ⟨h.setShift _, by simp, by simp [hdst]⟩
  | false =>
    have hbad : dst = 0 ∨ s.cfg.rsSupported s.rs.variant src dst = false := by
      rw [h.variant, or_iff_not_imp_left]
      intro hdst
      simpa [goodRates, hdst] using hgood
    rw [rsRate_fallback (.inr hbad)]
    exact ⟨(h.configError hn).setShift _, by simp, by simp [hsrc]⟩

/-- The state in which part 3 begins a variant: the reserved selection is reported (R218). -/
def afterSelection (s : State) : State := { afterDevice s with cfgErr := decide (interpVariant s.csr.interp = none) }

/-- Parts 3 and 4 are `RS.Init` of the selected variant, or of the default one, and `RS.Rate` after it (R218, R219). -/
theorem afterRates_eq (s : State) :
    afterRates s =
      rsRate s.cfg.srcRate s.ports.devRate.toNat
        (rsInit ((interpVariant s.csr.interp).getD s.cfg.rsDefault) (afterSelection s)) := by
  rw [afterRates, resetVariant_eq]
  rfl

/-- Settles O27: part 3 begins the selected variant, and part 4 stays with it or begins the default one. -/
theorem apuResetConfiguresResampler : Obligations.ApuResetConfiguresResampler := by
  intro s t h _ hwf selected good
  obtain ⟨-, rfl⟩ := execApuReset_afterReset h
  have hn : 256 ≤ s.cfg.rbN := by have := Cfg.wf_iff.1 hwf; omega
  have hsrc : s.cfg.srcRate ≠ 0 := by have := Cfg.wf_iff.1 hwf; omega
  have hzero : s.ports.devRate.toNat = 0 ↔ s.ports.devRate = 0 := by simp [← BitVec.toNat_inj]
  have hgood : goodRates s.cfg selected s.cfg.srcRate s.ports.devRate.toNat = good := by
    simp only [goodRates, ne_eq, hzero, good]
  have hrates : Fresh s.cfg.rbN (if good then selected else s.cfg.rsDefault) (afterRates s) ∧
      (afterRates s).cfgErr = (decide (interpVariant s.csr.interp = none) || !good) ∧
      (afterRates s).rs.shift = if s.ports.devRate = 0 then 1 else (s.cfg.srcRate : Rat) / (s.ports.devRate.toNat : Rat) := by
    simp only [afterRates_eq, ← hgood, ← hzero]
    exact Fresh.rsRate (s := rsInit selected (afterSelection s)) (rsInit_fresh selected hn) hn hsrc _
  obtain ⟨⟨hvariant, hphase, hwindow⟩, herr, hshift⟩ := hrates
  exact ⟨hvariant, herr, hshift, hphase, hwindow⟩

/-! ### `APU.OFF` -/

/-- Settles O29: closing, un-constructing under the mutex, and a queue that holds no other block's events. -/
theorem apuOffTearsDown : Obligations.ApuOffTearsDown := by
  refine ⟨rfl, fun s hf hm => ?_⟩
  show execApuOff s = _
  rw [execApuOff, withMutex_eq (s := { s.emit .devClose with devOpen := false }) hm]
  simp only
  rw [runCommand_ok hf, removeOwnEvents, removeOwnEvents_empty]
  simp [State.retire, State.emit, hm]

end Sys2Proof.Machine
end

section
/-! SUPPORT. The DMA channels (R250 to R258): what a timer overflow makes of each channel, channel 0 alone on its timer, and a FIFO write. -/

namespace Sys2Proof

/-- Putting back what a channel holds changes nothing. -/
@[simp] theorem Pair.put_get {α : Type} (p : Pair α) (f : DmaCh) : p.put f (p.get f) = p := by cases f <;> rfl

end Sys2Proof

namespace Sys2Proof.Machine

/-! ### One channel of the two -/

/-- Channel `f` holds in `t` what it holds in `d`. -/
def SameChannel (f : DmaCh) (d t : Dma) : Prop :=
  t.fifo.get f = d.fifo.get f ∧ t.latch.get f = d.latch.get f ∧ t.pipe.get f = d.pipe.get f

theorem SameChannel.trans {f : DmaCh} {d t u : Dma} (h : SameChannel f d t) (h' : SameChannel f t u) : SameChannel f d u :=
  let ⟨hfifo, hlatch, hpipe⟩ := h
  let ⟨hfifo', hlatch', hpipe'⟩ := h'
  ⟨hfifo'.trans hfifo, hlatch'.trans hlatch, hpipe'.trans hpipe⟩

/-- Channel `f` holds in `t` what serving it makes of `d`: a byte shifted out of the pipe (R253), out of a pipe just refilled (R252), or out
of neither (R254). -/
def Served (f : DmaCh) (d t : Dma) : Prop :=
  (0 < (d.pipe.get f).count →
    t.fifo.get f = d.fifo.get f ∧ t.latch.get f = (d.pipe.get f).word.setWidth 8 ∧
    t.pipe.get f = ⟨(d.pipe.get f).word >>> 8, (d.pipe.get f).count - 1⟩) ∧
  (∀ w rest, (d.pipe.get f).count = 0 → d.fifo.get f = w :: rest →
    t.fifo.get f = rest ∧ t.latch.get f = w.setWidth 8 ∧ t.pipe.get f = ⟨w >>> 8, 3⟩) ∧
  ((d.pipe.get f).count = 0 → d.fifo.get f = [] →
    t.fifo.get f = [] ∧ t.latch.get f = d.latch.get f ∧ t.pipe.get f = d.pipe.get f)

theorem served_serveDma (f : DmaCh) (d : Dma) : Served f d (serveDma f d) :=
  ⟨serveDma_shift, fun _ _ => serveDma_refill, serveDma_empty⟩

/-- What serving a channel makes of it depends on that channel alone, before and after. -/
theorem Served.congr {f : DmaCh} {d d' t t' : Dma} (h : Served f d' t') (hd : SameChannel f d d') (ht : SameChannel f t' t) :
    Served f d t := by
  obtain ⟨hfifo, hlatch, hpipe⟩ := hd
  obtain ⟨hfifo', hlatch', hpipe'⟩ := ht
  unfold Served at h ⊢
  rw [hfifo', hlatch', hpipe']
  rwa [hfifo, hlatch, hpipe] at h

/-! ### A timer overflow -/

/-- Serves channel `f` of the DMA channels if `sndctlH` binds it to timer `timerId` (R250). -/
def serveDmaIfBound (timerId : Byte) (f : DmaCh) (sndctlH : Word) (d : Dma) : Dma :=
  if dmaTimer sndctlH f = timerId.toNat then serveDma f d else d

/-- Channel 1 after channel 0 (R250). -/
def overflowDma (timerId : Byte) (sndctlH : Word) (d : Dma) : Dma :=
  serveDmaIfBound timerId .ch1 sndctlH (serveDmaIfBound timerId .ch0 sndctlH d)

/-- The other channel is not touched. -/
theorem sameChannel_serveDmaIfBound {f g : DmaCh} (h : g ≠ f) (timerId : Byte) (sndctlH : Word) (d : Dma) :
    SameChannel g d (serveDmaIfBound timerId f sndctlH d) := by
  unfold serveDmaIfBound
  split
  · exact serveDma_other h d
  · exact ⟨rfl, rfl, rfl⟩

/-- A channel is served if it is bound, and keeps what it holds if not, whatever happens to the other one before and after. -/
theorem served_or_same {timerId : Byte} {f : DmaCh} {sndctlH : Word} {d d' t : Dma} (hd : SameChannel f d d')
    (ht : SameChannel f (serveDmaIfBound timerId f sndctlH d') t) :
    if dmaTimer sndctlH f = timerId.toNat then Served f d t else SameChannel f d t := by
  unfold serveDmaIfBound at ht
  split
  next hbound =>
    rw [if_pos hbound] at ht
    exact (served_serveDma f d').congr hd ht
  next hfree =>
    rw [if_neg hfree] at ht
    exact hd.trans ht

/-- An overflow serves the bound channels and leaves the others alone (R250). -/
theorem overflowDma_channel (timerId : Byte) (sndctlH : Word) (d : Dma) (f : DmaCh) :
    if dmaTimer sndctlH f = timerId.toNat then Served f d (overflowDma timerId sndctlH d)
    else SameChannel f d (overflowDma timerId sndctlH d) := by
  cases f with
  | ch0 => exact served_or_same ⟨rfl, rfl, rfl⟩ (sameChannel_serveDmaIfBound (by decide) timerId sndctlH _)
  | ch1 => exact served_or_same (sameChannel_serveDmaIfBound (by decide) timerId sndctlH d) ⟨rfl, rfl, rfl⟩

/-- Both channels in full: the request of channel 1 goes by its FIFO as the overflow finds it, for serving channel 0 does not touch it. -/
theorem serveIfBound_both (timerId : Byte) (s : State) :
    serveIfBound timerId .ch1 (serveIfBound timerId .ch0 s) =
      { s with
        dma := overflowDma timerId s.csr.sndctlH s.dma
        out := s.out
          ++ (if dmaTimer s.csr.sndctlH .ch0 = timerId.toNat ∧ s.dma.fifo.c0.length ≤ 3 then [.dmaReq .ch0] else [])
          ++ (if dmaTimer s.csr.sndctlH .ch1 = timerId.toNat ∧ s.dma.fifo.c1.length ≤ 3 then [.dmaReq .ch1] else []) } := by
  obtain ⟨hfifo, -, -⟩ := sameChannel_serveDmaIfBound (f := .ch0) (g := .ch1) (by decide) timerId s.csr.sndctlH s.dma
  rw [serveIfBound_eq, serveIfBound_eq, show s.dma.fifo.c1 = s.dma.fifo.get .ch1 from rfl, ← hfifo]
  rfl

/-- Settles O30: the overflow completes, serves channel by channel, and asks by the FIFOs it finds. -/
theorem timerOverflowServesBoundChannels : Obligations.TimerOverflowServesBoundChannels := by
  intro s timerId hf ha hH
  refine ⟨rfl, overflowDma timerId s.csr.sndctlH s.dma, ?_, overflowDma_channel timerId s.csr.sndctlH s.dma⟩
  show execTmrOvf timerId 1 s = _
  rw [execTmrOvf, if_pos (by decide), runCommand_needing_ok hf ha (needing_true hH), serveIfBound_both]
  rfl

/-! ### Channel 0 alone on timer 0 -/

/-- A running block after its first reset, with channel 0 bound to timer 0 and channel 1 to timer 1. -/
structure Channel0Alone (s : State) : Prop where
  running : s.faulted = false
  channels_known : s.known.apu = true
  control_known : s.known.sndctlH = true
  timer0 : dmaTimer s.csr.sndctlH .ch0 = 0
  timer1 : dmaTimer s.csr.sndctlH .ch1 = 1

/-- An overflow of timer 0 then serves channel 0, asks for channel 0 if its FIFO is low, and changes nothing that matters to the next. -/
theorem Channel0Alone.overflow {s : State} (h : Channel0Alone s) :
    ∃ t, exec (.tmrOvf 0 1) s = .next t ∧ Channel0Alone t ∧ Served .ch0 s.dma t.dma ∧
      t.out = s.out ++ if s.dma.fifo.c0.length ≤ 3 then [.dmaReq .ch0] else [] := by
  obtain ⟨hf, ha, hH, h0, h1⟩ := h
  obtain ⟨-, d, hexec, hch⟩ := timerOverflowServesBoundChannels s 0 hf ha hH
  refine ⟨_, hexec, ⟨hf, ha, hH, h0, h1⟩, ?_, ?_⟩
  · have hserved := hch .ch0
    rwa [if_pos (by rw [h0]; rfl)] at hserved
  · simp [h0, h1]

/-- An overflow that finds the pipe empty takes the oldest word and shifts its first byte out; the request goes by the count before. -/
theorem Channel0Alone.overflow_refill {s : State} (h : Channel0Alone s) {w : Word} {rest : List Word}
    (hpipe : s.dma.pipe.c0.count = 0) (hfifo : s.dma.fifo.c0 = w :: rest) :
    ∃ t, exec (.tmrOvf 0 1) s = .next t ∧ Channel0Alone t ∧ t.dma.fifo.c0 = rest ∧ t.dma.latch.c0 = w.setWidth 8 ∧
      t.dma.pipe.c0 = ⟨w >>> 8, 3⟩ ∧ t.out = s.out ++ if (w :: rest).length ≤ 3 then [.dmaReq .ch0] else [] := by
  obtain ⟨t, hexec, ht, ⟨-, hrefill, -⟩, hout⟩ := h.overflow
  obtain ⟨hq, hl, hp⟩ := hrefill w rest hpipe hfifo
  exact ⟨t, hexec, ht, hq, hl, hp, hfifo ▸ hout⟩

/-- An overflow that finds a byte in the pipe shifts it out and leaves the FIFO as it was. -/
theorem Channel0Alone.overflow_shift {s : State} (h : Channel0Alone s) {w : Word} {n : Nat} {q : List Word}
    (hpipe : s.dma.pipe.c0 = ⟨w, n + 1⟩) (hfifo : s.dma.fifo.c0 = q) :
    ∃ t, exec (.tmrOvf 0 1) s = .next t ∧ Channel0Alone t ∧ t.dma.fifo.c0 = q ∧ t.dma.latch.c0 = w.setWidth 8 ∧
      t.dma.pipe.c0 = ⟨w >>> 8, n⟩ ∧ t.out = s.out ++ if q.length ≤ 3 then [.dmaReq .ch0] else [] := by
  obtain ⟨t, hexec, ht, ⟨hshift, -, -⟩, hout⟩ := h.overflow
  simp only [Pair.get, hpipe, hfifo] at hshift hout
  obtain ⟨hq, hl, hp⟩ := hshift n.succ_pos
  exact ⟨t, hexec, ht, hq, hl, hp, hout⟩

/-- Settles O31: a refill, three shifts of the same word, and the next refill. -/
theorem pipeLatchScenario : Obligations.PipeLatchScenario := by
  intro s w1 w2 w3 w4 hf ha hH hbit10 hbit14 hfifo hpipe
  have h : Channel0Alone s :=
    ⟨hf, ha, hH, if_neg (by simpa [DmaCh.num] using hbit10), if_pos (by simpa [DmaCh.num] using hbit14)⟩
  obtain ⟨t1, e1, h1, q1, l1, p1, o1⟩ := h.overflow_refill hpipe hfifo
  obtain ⟨t2, e2, h2, q2, l2, p2, o2⟩ := h1.overflow_shift p1 q1
  obtain ⟨t3, e3, h3, q3, l3, p3, o3⟩ := h2.overflow_shift p2 q2
  obtain ⟨t4, e4, h4, q4, l4, p4, o4⟩ := h3.overflow_shift p3 q3
  obtain ⟨t5, e5, -, q5, l5, p5, o5⟩ := h4.overflow_refill (by rw [p4]) q4
  have hfirst : t1.out = s.out := by simpa using o1
  refine ⟨t1, t2, t3, t4, t5, e1, e2, e3, e4, e5, l1, ?_, ?_, ?_, l5, by rw [p1], by rw [p2], by rw [p3], by rw [p4], by rw [p5],
    q1, q2, q3, q4, q5, hfirst, hfirst ▸ o2, o3, o4, o5⟩
  · rw [l2, BitVec.setWidth_ushiftRight_eq_extractLsb]
  · rw [l3, ← BitVec.shiftRight_add, BitVec.setWidth_ushiftRight_eq_extractLsb]
  · rw [l4, ← BitVec.shiftRight_add, ← BitVec.shiftRight_add, BitVec.setWidth_ushiftRight_eq_extractLsb]

/-! ### A FIFO write -/

/-- A word goes to the end of its channel's FIFO, or nowhere if the FIFO is full (R258). -/
theorem execFifoWr_eq {f : Byte} {ch : DmaCh} {word : Word} {s : State} (hf : s.faulted = false) (ha : s.known.apu = true)
    (hch : f.toNat = ch.num) :
    execFifoWr f word s =
      .next { s with
        dma := { s.dma with
          fifo := s.dma.fifo.put ch
            (if (s.dma.fifo.get ch).length < s.cfg.fifoCap then s.dma.fifo.get ch ++ [word] else s.dma.fifo.get ch) }
        pc := s.pc + 1 } := by
  rw [execFifoWr, dmaOperand_some.2 hch]
  refine (runCommand_needing_ok hf ha rfl).trans ?_
  split
  · rfl
  · rw [Pair.put_get]
    rfl

/-- Settles O32: channel by channel; before `APU.RESET` the FIFOs have no value. -/
theorem fifoWriteAppendsOrDrops : Obligations.FifoWriteAppendsOrDrops := by
  intro s w hf
  refine ⟨rfl, rfl, fun ha => ⟨?_, ?_⟩, fun ha => ⟨?_, ?_⟩⟩
  · exact execFifoWr_eq (f := 0) (ch := .ch0) hf ha rfl
  · exact execFifoWr_eq (f := 1) (ch := .ch1) hf ha rfl
  · exact runCommand_noValue hf ha
  · exact runCommand_noValue hf ha

end Sys2Proof.Machine
end

section
/-! SUPPORT. The control registers and the input ports (R262 to R268): what each write leaves, by index and by channel. -/

namespace Sys2Proof.Machine

/-! ### Register writes -/

/-- The registers after a write of `value` to register `index` (R262). -/
def csrWritten (c : Cfg) (index : Byte) (value : Word) (r : Csr) : Csr where
  sndctlL := if index = 0 then value &&& wmaskL c else r.sndctlL
  sndctlH := if index = 1 then value &&& wmaskH else r.sndctlH
  sndbias := if index = 2 then value &&& lowMask c.biasW else r.sndbias
  outvol := if index = 3 then outvolOf value else r.outvol
  interp := if index = 4 then value &&& 0x7#32 else r.interp
  mixmode := if index = 5 then value &&& 0x1#32 else r.mixmode
  tgtrate := if index = 6 then value else r.tgtrate

/-- Which elements have a value after a write to register `index` (R62, R262). -/
def knownWritten (index : Byte) (k : Known) : Known :=
  { k with
    sndctlL := k.sndctlL || decide (index = 0)
    sndctlH := k.sndctlH || decide (index = 1)
    sndbias := k.sndbias || decide (index = 2) }

/-- The indices of R262's table. -/
theorem index_cases {index : Byte} (h : index.toNat ≤ 6) :
    index = 0 ∨ index = 1 ∨ index = 2 ∨ index = 3 ∨ index = 4 ∨ index = 5 ∨ index = 6 := by
  revert index
  decide

/-- A write to an index of the table completes: one case for each row. -/
theorem writeCsr_eq {index : Byte} (value : Word) (s : State) (h : index.toNat ≤ 6) :
    writeCsr index value s =
      .ok { s with csr := csrWritten s.cfg index value s.csr, known := knownWritten index s.known } := by
  rcases index_cases h with rfl | rfl | rfl | rfl | rfl | rfl | rfl <;> simp [writeCsr, csrWritten, knownWritten]

/-- `OUTVOL` reads back as the written number clamped to 0 to 100 (R30, R262). -/
theorem toInt_outvolOf (value : Word) : (outvolOf value).toInt = max 0 (min 100 value.toInt) := by
  have hrange := clampInt_range (x := value.toInt) (show (0 : Int) ≤ 100 by decide)
  have hclamp : clampInt value.toInt 0 100 = max 0 (min 100 value.toInt) := by rw [clampInt]; omega
  rw [outvolOf, BitVec.toInt_ofInt, Int.bmod_eq_of_le (by omega) (by omega), hclamp]

/-- Settles O33: the registers and the marks after a write, register by register; only `OUTVOL` is not a plain mask. -/
theorem csrWriteByIndex : Obligations.CsrWriteByIndex := by
  intro s index value hf
  refine ⟨rfl, fun hindex => ?_, fun hindex => execCsrWr_badIndex hf hindex⟩
  refine ⟨csrWritten s.cfg index value s.csr, knownWritten index s.known, ?_, rfl, rfl, rfl, ?_, rfl, rfl, rfl, rfl⟩
  · show execCsrWr index value s = _
    rw [execCsrWr, writeCsr_eq value s hindex, runCommand_ok hf]
    rfl
  · rw [csrWritten, apply_ite BitVec.toInt, toInt_outvolOf]

/-! ### Register reads -/

/-- A read that finds a value answers it (R264). -/
theorem execCsrRd_ok {index : Byte} {v : Word} {s : State} (hf : s.faulted = false) (hr : readCsr index s = .ok v) :
    execCsrRd index s = .next (s.result (.word v)).retire := by
  rw [execCsrRd, if_neg (by simp [hf]), hr]

/-- A read that finds none stops (R264). -/
theorem execCsrRd_error {index : Byte} {e : Stop} {s : State} (hf : s.faulted = false) (hr : readCsr index s = .error e) :
    execCsrRd index s = e.outcome s := by
  rw [execCsrRd, if_neg (by simp [hf]), hr]

/-- Settles O34: index by index; the first three registers may have no value. -/
theorem csrReadReturnsRegister : Obligations.CsrReadReturnsRegister := by
  intro s hf reads
  refine ⟨fun _ => rfl, fun hk => ?_, fun hk => ?_, fun hk => ?_, ?_, ?_, ?_, ?_, ?_, ?_, fun hk => ?_, fun hk => ?_, fun hk => ?_,
    fun index hindex => execCsrRd_badIndex hf hindex⟩
  · exact execCsrRd_ok hf (needing_true hk)
  · exact execCsrRd_ok hf (needing_true hk)
  · exact execCsrRd_ok hf (needing_true hk)
  · exact execCsrRd_ok hf rfl
  · exact execCsrRd_ok hf rfl
  · exact execCsrRd_ok hf rfl
  · exact execCsrRd_ok hf rfl
  · exact execCsrRd_ok hf rfl
  · exact execCsrRd_ok hf rfl
  · exact execCsrRd_error (index := 0) hf (needing_false hk)
  · exact execCsrRd_error (index := 1) hf (needing_false hk)
  · exact execCsrRd_error (index := 2) hf (needing_false hk)

/-! ### The input ports -/

/-- A value that fits `PSG_W` signed bits drives its port (R266). -/
theorem execPsgSet_ok {c : Byte} {ch : PsgCh} {value : Word} {s : State} (hf : s.faulted = false) (hch : c.toNat = ch.num)
    (hfits : fitsSigned s.cfg.psgW value.toInt = true) :
    execPsgSet c value s =
      .next { s with
        ports := { s.ports with psgIn := s.ports.psgIn.put ch value.toInt }
        known := { s.known with psgIn := s.known.psgIn.put ch true }
        pc := s.pc + 1 } := by
  rw [execPsgSet, psgOperand_some.2 hch]
  simp only [psgValueOperand_some.2 ⟨hfits, rfl⟩]
  exact runCommand_ok hf

/-- Settles O36: a port's value and its mark are put at one channel; `DEV.SET` fixes both answers whatever they are. -/
theorem portCommandsDriveTheirPorts : Obligations.PortCommandsDriveTheirPorts := by
  refine ⟨fun s c ch value hf hch hlow hhigh => ⟨rfl, ?_⟩, fun s rate ok hf => ?_⟩
  · have hfits : fitsSigned s.cfg.psgW value.toInt = true := by simp [fitsSigned, hlow, hhigh]
    refine ⟨_, _, execPsgSet_ok hf hch hfits, fun k => ⟨Quad.get_put _ ch k _, ?_⟩⟩
    rw [Quad.get_put]
    by_cases hk : k = ch <;> simp [hk]
  · cases ok with
    | false => exact ⟨rfl, runCommand_ok hf⟩
    | true => exact ⟨rfl, runCommand_ok hf⟩

end Sys2Proof.Machine
end

section
/-! SUPPORT. `CB.REQ` by its outcome (R275): silence (R277), a request that R280 does not refuse, and one that it refuses. -/

namespace Sys2Proof.Machine

/-! ### Silence -/

/-- Settles O49: silence under the mutex changes memory and the trace alone, and its bytes are the zeros of `silence_read`. -/
theorem callbackSilence : Obligations.CallbackSilence := by
  intro s len dest hf hm hc hl
  have hexec := execCbReq_eq (dest := dest) hf hm hl
  rw [if_neg (by simp [hc]), show 4 * (len.toNat / 4) = len.toNat by omega] at hexec
  have hread := silence_read dest.toNat len.toNat { s with mutex := true }
  obtain ⟨mem, out, hsilence, -⟩ := silence_frame dest.toNat len.toNat { s with mutex := true }
  rw [hsilence] at hexec hread
  exact ⟨mem, out, hexec.trans (by simp [State.retire, hm]), hread⟩

/-! ### What a request leaves queued -/

/-- The buffer after `r` samples have been asked for (R278, R279): past the whole blocks taken, with what was not asked for still queued. -/
def BlockBuffer.afterRequest (c : Cfg) (b : BlockBuffer) (r : Nat) : BlockBuffer :=
  { b with currentBlock := (b.currentBlock + min b.size r / c.rbbN) % c.rbbB, size := b.size - r }

/-- A request keeps the shape of the buffer. -/
theorem BlockBuffer.afterRequest_ok {c : Cfg} {b : BlockBuffer} (h : b.Ok c) (r : Nat) : (b.afterRequest c r).Ok c where
  slots := h.slots
  block := Nat.mod_lt _ (Nat.zero_lt_of_lt h.block)
  size := Nat.lt_of_le_of_lt (Nat.sub_le _ _) h.size

/-- After a request for `k` whole blocks, all of them queued, the base is `k` blocks further, modulo the capacity. -/
theorem BlockBuffer.base_afterRequest {c : Cfg} {b : BlockBuffer} {k : Nat} (hn : 0 < c.rbbN) (hk : k * c.rbbN ≤ b.size)
    (j : Nat) : ((b.afterRequest c (k * c.rbbN)).base c + j) % bufCap c = (b.base c + (k * c.rbbN + j)) % bufCap c := by
  have hbase : (b.afterRequest c (k * c.rbbN)).base c = (b.base c + k * c.rbbN) % bufCap c := by
    simp only [BlockBuffer.afterRequest, BlockBuffer.base, bufCap]
    rw [Nat.min_eq_right hk, Nat.mul_div_cancel _ hn, ← Nat.add_mul, Nat.mul_comm c.rbbN c.rbbB, Nat.mul_mod_mul_right]
  rw [hbase, Nat.mod_add_mod, Nat.add_assoc]

/-- What a request leaves queued, if R280 does not refuse it, is the rest of the queue (R278, R283). -/
theorem BlockBuffer.queued_afterRequest {c : Cfg} {b : BlockBuffer} {r : Nat} (hn : 0 < c.rbbN)
    (hr : r % c.rbbN = 0 ∨ b.size ≤ r) : (b.afterRequest c r).queued c = (b.queued c).drop r := by
  have hsize : (b.afterRequest c r).size = b.size - r := rfl
  by_cases hall : b.size ≤ r
  · have hempty : (b.afterRequest c r).queued c = [] := by
      rw [← List.length_eq_zero_iff, BlockBuffer.length_queued, hsize, Nat.sub_eq_zero_of_le hall]
    rw [hempty, List.drop_eq_nil_of_le (by rwa [BlockBuffer.length_queued])]
  · obtain ⟨k, rfl⟩ := Nat.dvd_of_mod_eq_zero (hr.resolve_right hall)
    rw [Nat.mul_comm] at hall hsize ⊢
    apply List.ext_getElem?
    intro j
    rw [List.getElem?_drop, BlockBuffer.getElem?_queued, BlockBuffer.getElem?_queued,
      BlockBuffer.base_afterRequest hn (by omega), hsize]
    exact if_congr (by omega) rfl rfl

/-- Settles O50: the request completes as O51 says, where a sample that is queued is not the pad. -/
theorem callbackDeliversQueueInOrder : Obligations.CallbackDeliversQueueInOrder := by
  intro s len dest hi hf hc hl hr
  obtain ⟨mem, out, hexec, hat⟩ := callbackPadsUnderrun s len dest hi hf hc hl hr
  refine ⟨mem, out, s.rbb.afterRequest s.cfg (len.toNat / 4), hexec, fun i x hlt hx => ?_,
    BlockBuffer.queued_afterRequest hi.block_pos hr, BlockBuffer.afterRequest_ok (hi.rbb_ok hc) _⟩
  rw [hat i hlt, List.getD_eq_getElem?_getD, hx, Option.getD_some]

/-! ### A request inside a block -/

/-- A request that ends inside a block with samples left over still does so after each block it takes, and is refused at the last (R280). -/
theorem drain_refused {dest fuel i r : Nat} {s : State} (hn : 0 < s.cfg.rbbN) (hf : r ≤ fuel) (hr : r % s.cfg.rbbN ≠ 0)
    (hs : r < s.rbb.size) : drain dest fuel i r s = .error (.refused .requestInsideBlock) := by
  induction fuel generalizing i r s with
  | zero =>
    obtain rfl := Nat.le_zero.1 hf
    exact absurd (Nat.zero_mod _) hr
  | succ k ih =>
    have hr0 : r ≠ 0 := by rintro rfl; exact hr (Nat.zero_mod _)
    by_cases hlt : r < s.cfg.rbbN
    · exact drain_inside hr0 hlt hs
    · have hblock : s.cfg.rbbN ≤ r := Nat.le_of_not_lt hlt
      have hrest : (r - s.cfg.rbbN) % s.cfg.rbbN ≠ 0 := by rwa [← Nat.mod_eq_sub_mod hblock]
      rw [drain_block hr0 ⟨by omega, hblock⟩]
      obtain ⟨mem, out, hstore, -⟩ :=
        storeSamples_frame dest (s.rbb.block s.cfg) i { s with rbb := s.rbb.dropBlock s.cfg }
      rw [hstore]
      exact ih hn (by omega) hrest (Nat.sub_lt_sub_right hblock hs)

/-- Settles O53: the drain under the mutex stops, and the command with it. -/
theorem callbackInsideBlockRefused : Obligations.CallbackInsideBlockRefused := by
  intro s len dest hi hf hc hl hr hs
  have hexec := execCbReq_eq (dest := dest) hf hi.mutex_free hl
  rw [if_pos hc, drain_refused (s := { s with mutex := true }) hi.block_pos le_rfl hr hs] at hexec
  exact hexec

end Sys2Proof.Machine
end

section
/-! SUPPORT. A block halted by a fault (R291): the two register reads a fault leaves defined, and that every other instruction stops. -/

namespace Sys2Proof.Machine

/-- On a halted block `SCH.ADV` has no behaviour (R291). -/
theorem execSchAdv_halted {n : Word} {s : State} (hf : s.faulted = true) : execSchAdv n s = .fault .halted :=
  if_pos hf

/-- On a halted block a register read of any other index than 7 and 8 has no behaviour (R291). -/
theorem execCsrRd_halted {index : Byte} {s : State} (hf : s.faulted = true) (h7 : index ≠ 7#8) (h8 : index ≠ 8#8) :
    execCsrRd index s = .fault .halted :=
  if_pos ⟨hf, h7, h8⟩

/-- `CSR.RD 7` answers `STATUS`, on a halted block too (R264, R291). -/
theorem execCsrRd_status (s : State) : execCsrRd 7#8 s = .next (s.result (.word s.status)).retire :=
  if_neg fun ⟨_, h7, _⟩ => h7 rfl

/-- `CSR.RD 8` answers `ERR`, on a halted block too (R264, R291). -/
theorem execCsrRd_err (s : State) : execCsrRd 8#8 s = .next (s.result (.word s.err)).retire :=
  if_neg fun ⟨_, _, h8⟩ => h8 rfl

/-- On a halted block every instruction but the two register reads stops: all but `SCH.ADV`, `CSR.RD` and the two handlers are
commands by `runCommand`. -/
theorem exec_halted {i : Instr} {s : State} (hf : s.faulted = true) (h7 : i ≠ .csrRd 7#8) (h8 : i ≠ .csrRd 8#8) :
    exec i s = .fault .halted := by
  cases i with
  | schAdv n => exact execSchAdv_halted hf
  | csrRd index =>
    exact execCsrRd_halted hf (fun h => h7 (congrArg Instr.csrRd h)) (fun h => h8 (congrArg Instr.csrRd h))
  | evMixer => exact runHandler_halted hf
  | evSeq => exact runHandler_halted hf
  | schNow | rbReset | rbbCpb => exact runCommand_halted (body := .ok _) hf
  | _ => exact runCommand_halted hf

/-- Settles O54: every instruction by how it begins, and the two register reads that look past the faulted mark. -/
theorem haltedAfterFault : Obligations.HaltedAfterFault :=
  fun s _ hf => ⟨exec_halted hf, execCsrRd_err s, execCsrRd_status s⟩

end Sys2Proof.Machine
end
